-- ==== Sys2Proof/Word.lean ====
section
/-! DEFINITION. The word types of the engine (spec/00_scope.md R5 to R7, spec/20_memory.md R32, R34) and the one
way this model writes a table of a fixed length. -/

namespace Sys2Proof

/-- A 32-bit word of the host bus and of the scalar registers (R14, R32). -/
abbrev Word := BitVec 32

/-- A byte of the byte buffer BUF (R13). -/
abbrev Byte := BitVec 8

/-- A 16-bit two's complement polynomial coefficient (R6, R10). -/
abbrev Coeff := BitVec 16

/-- The 256 coefficients of a polynomial as a command computes with them (R4, R10). -/
abbrev Poly := Vector Coeff 256

/-- The index of a polynomial register, a 4-bit unsigned field of a command (R53). -/
abbrev PolyIdx := Fin 16

/-- A byte offset in the engine's 32 KiB window (R30). -/
abbrev Offset := BitVec 15

/-- The vector of the values `f 0` to `f (n - 1)`. -/
def tabulate {α : Type} (n : Nat) (f : Nat → α) : Vector α n :=
  ⟨((List.range n).map f).toArray, by simp⟩

end Sys2Proof
end

