-- ==== Sys2Proof/Machine/Arith.lean ====
section
/-! DEFINITION. The width functions and the reduction primitives, on mathematical integers with every narrowing
written out (spec/00_scope.md R5, R6, spec/40_reduction.md R70 to R76, R82), and the normalization of the codec
(spec/44_codec.md R140). -/

namespace Sys2Proof.Machine

/-- The integer of [-2^15, 2^15) congruent to `x` modulo 2^16 (R6). -/
def s16 (x : Int) : Int := (x + 32768) % 65536 - 32768

/-- The integer of [-2^31, 2^31) congruent to `x` modulo 2^32 (R6). -/
def s32 (x : Int) : Int := (x + 2147483648) % 4294967296 - 2147483648

/-- The integer of [-1664, 1664] congruent to `x` modulo q (R6). -/
def centered (x : Int) : Int := (x + 1664) % 3329 - 1664

/-- The coefficient that holds `x`, which wraps to 16 bits where it does not fit (R6). -/
def toCoeff (x : Int) : Coeff := BitVec.ofInt 16 x

/-- The 32-bit pattern of `x`, `u32(x)` (R6). -/
def u32 (x : Int) : Word := BitVec.ofInt 32 x

/-- A word read as a 32-bit signed number, `sext_32` (R6). -/
def sext32 (w : Word) : Int := w.toInt

/-- The low half of a word read as a 16-bit signed number, `sext_16(w[15:0])` (R6). -/
def sext16 (w : Word) : Int := (w.extractLsb' 0 16).toInt

/-- Coefficient `i` of a polynomial as an integer; commands use only `i` below 256 (R7). -/
def coeffAt (r : Poly) (i : Nat) : Int := if h : i < 256 then (r[i]).toInt else 0

/-- `montgomery_reduce`, with the low 16 bits of `a * QINV` read as signed; `/` rounds down, so `/ 65536` is the
arithmetic shift by 16 (R5, R71). -/
def montgomeryReduce (a : Int) : Int :=
  let u := s16 (a * 62209)
  let t := s32 (a - u * 3329)
  s16 (t / 65536)

/-- `barrett_reduce`; `/ 67108864` is the arithmetic shift by 26 (R73). -/
def barrettReduce (a : Int) : Int :=
  let t := (20159 * a + 33554432) / 67108864
  a - t * 3329

/-- `fqmul`, the Montgomery product (R75). -/
def fqmul (a b : Int) : Int := montgomeryReduce (a * b)

/-- `frommont`, multiplication by 2^32 mod q in 32 bits and Montgomery reduction (R76). -/
def frommontFn (r : Int) : Int := montgomeryReduce (s32 (r * 1353))

/-- `normalize`: q is added to a negative coefficient and the sum read as an unsigned 16-bit pattern (R140). -/
def normalizeCoeff (a : Int) : Nat := ((a + if a < 0 then 3329 else 0) % 65536).toNat

end Sys2Proof.Machine
end

