-- ==== Sys2Proof/Config.lean ====
section
/-! DEFINITION. The build parameters of an engine (spec/00_scope.md R4, spec/10_state.md R19, R21,
spec/44_codec.md R149) and the free values the spec leaves open (spec/10_state.md R27). -/

namespace Sys2Proof

/-- The compressed width DV, 4 or 5 bits per coefficient; no engine has another (R21, R149). -/
inductive DvWidth where
  | four
  | five
  deriving DecidableEq, Repr

/-- The number DV stands for (R4). -/
def DvWidth.bits : DvWidth → Nat
  | .four => 4
  | .five => 5

/-- The parameters of a built engine. NPOLY is `extraRegs + 1`, so that every value is one of 1..16 (R10, R21). -/
structure Build where
  extraRegs : Fin 16
  dv : DvWidth
  base : Nat
  deriving DecidableEq, Repr

/-- NPOLY, the number of polynomial registers, 1 to 16 (R10). -/
def Build.npoly (b : Build) : Nat := b.extraRegs.val + 1

/-- Constructing an engine: a configuration outside NPOLY in 1..16 and DV in 4, 5 is refused (R21, R149, R170). -/
def Build.make? (npoly dv base : Nat) : Option Build :=
  if h : 1 ≤ npoly ∧ npoly ≤ 16 then
    if dv = 4 then some { extraRegs := ⟨npoly - 1, by omega⟩, dv := .four, base := base }
    else if dv = 5 then some { extraRegs := ⟨npoly - 1, by omega⟩, dv := .five, base := base }
    else none
  else none

/-- The build of `State.reset`: NPOLY = 8 is the spec's default (R10). DESIGN CHOICE (notes/assumptions/3.md):
DV = 4, the build of the spec's test vectors, and BASE = 0; the spec leaves both open (D6, D27), and every
definition of the machine takes them from the state. -/
def Config.build : Build := { extraRegs := 7, dv := .four, base := 0 }

/-- The coefficient the n-th free read returns (R27: an unwritten element "holds an unspecified value, and two
reads of it need not agree"). No body: nothing can be proved of its value (notes/assumptions/1.md). -/
opaque Config.freeCoeff : Nat → Coeff

/-- The byte the n-th free read of BUF returns (R27; notes/assumptions/1.md). -/
opaque Config.freeByte : Nat → Byte

end Sys2Proof
end

