-- ==== Sys2Proof/Syntax.lean ====
section
/-! DEFINITION. The eighteen commands of the command set KPE-1 (spec/30_encoding.md R54), one constructor per row
of spec/opcode_table.json. -/

namespace Sys2Proof

/-- A command with its register fields; a field an opcode does not use is absent (R54, R55). -/
inductive Instr where
  /-- 0x10: SR from `montgomery_reduce(SA)` (R78). -/
  | montred
  /-- 0x11: SR from `barrett_reduce(SA[15:0])` (R79). -/
  | barrett
  /-- 0x12: SR from `fqmul(SA[15:0], SB[15:0])` (R80). -/
  | fqmul
  /-- 0x13: SR from `frommont(SA)` (R81). -/
  | frommontS
  /-- 0x20: forward transform (R93). -/
  | ntt (rd rs1 : PolyIdx)
  /-- 0x21: forward transform, then Barrett reduction (R94). -/
  | polyNtt (rd rs1 : PolyIdx)
  /-- 0x22: inverse transform (R96). -/
  | invntt (rd rs1 : PolyIdx)
  /-- 0x30: base multiplication (R111). -/
  | basemul (rd rs1 rs2 : PolyIdx)
  /-- 0x40: coefficient-wise sum (R120). -/
  | add (rd rs1 rs2 : PolyIdx)
  /-- 0x41: coefficient-wise difference `rs1 - rs2` (R121). -/
  | sub (rd rs1 rs2 : PolyIdx)
  /-- 0x42: Barrett reduction of every coefficient (R122). -/
  | reduce (rd rs1 : PolyIdx)
  /-- 0x43: Montgomery conversion of every coefficient (R123). -/
  | frommont (rd rs1 : PolyIdx)
  /-- 0x50: 12-bit packing into BUF (R141). -/
  | tobytes (rs1 : PolyIdx)
  /-- 0x51: 12-bit unpacking from BUF (R142). -/
  | frombytes (rd : PolyIdx)
  /-- 0x52: lossy compression into BUF (R147). -/
  | compress (rs1 : PolyIdx)
  /-- 0x53: expansion from BUF (R148). -/
  | decompress (rd : PolyIdx)
  /-- 0x54: message to polynomial (R151). -/
  | frommsg (rd : PolyIdx)
  /-- 0x55: polynomial to message (R152). -/
  | tomsg (rs1 : PolyIdx)
  deriving DecidableEq, Repr

end Sys2Proof
end

