-- ==== Sys2Proof/WellFormed.lean ====
section
/-! DEFINITION. Which commands an engine with NPOLY polynomial registers accepts (spec/30_encoding.md R57): every
register a command uses must exist. -/

namespace Sys2Proof

/-- The polynomial registers a command names, destination first, then sources in field order (R54, R55). -/
def Instr.usedRegs : Instr → List PolyIdx
  | .montred => []
  | .barrett => []
  | .fqmul => []
  | .frommontS => []
  | .ntt rd rs1 => [rd, rs1]
  | .polyNtt rd rs1 => [rd, rs1]
  | .invntt rd rs1 => [rd, rs1]
  | .basemul rd rs1 rs2 => [rd, rs1, rs2]
  | .add rd rs1 rs2 => [rd, rs1, rs2]
  | .sub rd rs1 rs2 => [rd, rs1, rs2]
  | .reduce rd rs1 => [rd, rs1]
  | .frommont rd rs1 => [rd, rs1]
  | .tobytes rs1 => [rs1]
  | .frombytes rd => [rd]
  | .compress rs1 => [rs1]
  | .decompress rd => [rd]
  | .frommsg rd => [rd]
  | .tomsg rs1 => [rs1]

/-- Every register the command uses is one of the NPOLY registers of the engine (R57, R171 code 0x03). -/
def Instr.wf (npoly : Nat) (i : Instr) : Bool :=
  i.usedRegs.all fun p => decide (p.val < npoly)

end Sys2Proof
end

