-- ==== Sys2Proof/Decode.lean ====
section
/-! DEFINITION. The decoder of a command word, total on all 2^32 words and rejecting by name
(spec/30_encoding.md R50 to R58), and the encoder written from the same table (R52, R54). -/

namespace Sys2Proof

/-- The command errors, with the code STATUS.ERRCODE records (spec/60_exceptions.md R171). -/
inductive CmdError where
  /-- 0x01: OP is not in the table of R54. -/
  | illegalOpcode
  /-- 0x02: RES or a field the class does not use is not zero. -/
  | reservedField
  /-- 0x03: a used field names a register index of NPOLY or more. -/
  | polyIndex
  deriving DecidableEq, Repr

/-- The code of a command error (R171). -/
def CmdError.code : CmdError → Nat
  | .illegalOpcode => 0x01
  | .reservedField => 0x02
  | .polyIndex => 0x03

/-- The operand usage classes (R55). -/
inductive OpClass where
  | scalar
  | unary
  | binary
  | storeToBuffer
  | loadFromBuffer
  deriving DecidableEq, Repr

/-- OP, bits 7:0 of the command word (R51). -/
def opField (w : Word) : Nat := w.toNat % 256

/-- RD, bits 11:8 (R51, R53). -/
def rdField (w : Word) : PolyIdx := ⟨w.toNat / 256 % 16, by omega⟩

/-- RS1, bits 15:12 (R51, R53). -/
def rs1Field (w : Word) : PolyIdx := ⟨w.toNat / 4096 % 16, by omega⟩

/-- RS2, bits 19:16 (R51, R53). -/
def rs2Field (w : Word) : PolyIdx := ⟨w.toNat / 65536 % 16, by omega⟩

/-- RES, bits 31:20 (R51, R56). -/
def resField (w : Word) : Nat := w.toNat / 1048576

/-- The row of R54 for an opcode, with the fields placed in the command; `none` is one of the 238 unassigned
values (R58). -/
def opcodeRow (op : Nat) (rd rs1 rs2 : PolyIdx) : Option (OpClass × Instr) :=
  match op with
  | 0x10 => some (.scalar, .montred)
  | 0x11 => some (.scalar, .barrett)
  | 0x12 => some (.scalar, .fqmul)
  | 0x13 => some (.scalar, .frommontS)
  | 0x20 => some (.unary, .ntt rd rs1)
  | 0x21 => some (.unary, .polyNtt rd rs1)
  | 0x22 => some (.unary, .invntt rd rs1)
  | 0x30 => some (.binary, .basemul rd rs1 rs2)
  | 0x40 => some (.binary, .add rd rs1 rs2)
  | 0x41 => some (.binary, .sub rd rs1 rs2)
  | 0x42 => some (.unary, .reduce rd rs1)
  | 0x43 => some (.unary, .frommont rd rs1)
  | 0x50 => some (.storeToBuffer, .tobytes rs1)
  | 0x51 => some (.loadFromBuffer, .frombytes rd)
  | 0x52 => some (.storeToBuffer, .compress rs1)
  | 0x53 => some (.loadFromBuffer, .decompress rd)
  | 0x54 => some (.loadFromBuffer, .frommsg rd)
  | 0x55 => some (.storeToBuffer, .tomsg rs1)
  | _ => none

/-- A field the class does not use is not zero (R55, R56). -/
def OpClass.unusedNonzero (c : OpClass) (rd rs1 rs2 : PolyIdx) : Bool :=
  match c with
  | .scalar => decide (rd.val ≠ 0 ∨ rs1.val ≠ 0 ∨ rs2.val ≠ 0)
  | .unary => decide (rs2.val ≠ 0)
  | .binary => false
  | .storeToBuffer => decide (rd.val ≠ 0 ∨ rs2.val ≠ 0)
  | .loadFromBuffer => decide (rs1.val ≠ 0 ∨ rs2.val ≠ 0)

/-- Decoding a command word, the checks in the order of R57: ILLEGAL_OPCODE, RESERVED_FIELD (RES, then an unused
field), POLY_INDEX. -/
def decode (npoly : Nat) (w : Word) : Except CmdError Instr :=
  match opcodeRow (opField w) (rdField w) (rs1Field w) (rs2Field w) with
  | none => .error .illegalOpcode
  | some (c, i) =>
    if resField w ≠ 0 then .error .reservedField
    else if c.unusedNonzero (rdField w) (rs1Field w) (rs2Field w) then .error .reservedField
    else if i.wf npoly then .ok i
    else .error .polyIndex

/-- The word whose bytes, lowest offset first, are given: little-endian (spec/20_memory.md R34). -/
def wordOfBytes (b0 b1 b2 b3 : Byte) : Word :=
  BitVec.ofNat 32 (b0.toNat + b1.toNat * 256 + b2.toNat * 65536 + b3.toNat * 16777216)

/-- The same decoder on a list of bytes in the order of their offsets: exactly four bytes are a command word
(R34, R50); any other number is no word and decodes to nothing. -/
def decodeBytes (npoly : Nat) : List Byte → Option (Except CmdError Instr)
  | [b0, b1, b2, b3] => some (decode npoly (wordOfBytes b0 b1 b2 b3))
  | _ => none

/-- The opcode and the three fields of a command, a field its class does not use being zero (R52, R54). -/
def Instr.fields : Instr → Nat × PolyIdx × PolyIdx × PolyIdx
  | .montred => (0x10, 0, 0, 0)
  | .barrett => (0x11, 0, 0, 0)
  | .fqmul => (0x12, 0, 0, 0)
  | .frommontS => (0x13, 0, 0, 0)
  | .ntt rd rs1 => (0x20, rd, rs1, 0)
  | .polyNtt rd rs1 => (0x21, rd, rs1, 0)
  | .invntt rd rs1 => (0x22, rd, rs1, 0)
  | .basemul rd rs1 rs2 => (0x30, rd, rs1, rs2)
  | .add rd rs1 rs2 => (0x40, rd, rs1, rs2)
  | .sub rd rs1 rs2 => (0x41, rd, rs1, rs2)
  | .reduce rd rs1 => (0x42, rd, rs1, 0)
  | .frommont rd rs1 => (0x43, rd, rs1, 0)
  | .tobytes rs1 => (0x50, 0, rs1, 0)
  | .frombytes rd => (0x51, rd, 0, 0)
  | .compress rs1 => (0x52, 0, rs1, 0)
  | .decompress rd => (0x53, rd, 0, 0)
  | .frommsg rd => (0x54, rd, 0, 0)
  | .tomsg rs1 => (0x55, 0, rs1, 0)

/-- Assembling a command word, `OP | RD << 8 | RS1 << 12 | RS2 << 16`; the four fields share no bit, so the
bitwise or is the sum (R52). -/
def encode (i : Instr) : Word :=
  match i.fields with
  | (op, rd, rs1, rs2) => BitVec.ofNat 32 (op + rd.val * 256 + rs1.val * 4096 + rs2.val * 65536)

/-- The host's question: the instruction the decoder reads from the word `w`, bit 0 its least significant bit, the
bits above `nbits` zero, on the engine of `Config.build` (notes/assumptions/16.md). -/
def decodeTableWord (nbits w : Nat) : Option Instr :=
  match decode Config.build.npoly (BitVec.ofNat 32 (w % 2 ^ nbits)) with
  | .ok i => some i
  | .error _ => none

end Sys2Proof
end

