-- ==== Sys2Proof/Machine/State.lean ====
section
/-! DEFINITION. The state of the engine and of the inputs it is driven by (spec/10_state.md R10 to R27), the reasons
a step can stop, and the state after reset (R26). -/

namespace Sys2Proof.Machine

/-- A coefficient element of a polynomial register: `unwritten` is the spec's own state of an element that neither
the host nor a command has written since reset (R27, R190). -/
inductive Stored where
  | unwritten
  | holds (c : Coeff)
  deriving DecidableEq, Repr

/-- A polynomial register: 256 coefficient elements (R10). -/
abbrev PolyReg := Vector Stored 256

/-- The byte buffer BUF as pairs of an index and a byte, the indexes strictly rising; an index that is not listed is
unwritten since reset (R13, R27). -/
abbrev Memory := List Host.Cell

/-- How wide a host access is. The bus has no byte enables, so a partial 32-bit write is a kind of its own (R32;
notes/assumptions/11.md). -/
inductive Width where
  | bits8
  | bits16
  | bits32
  | bits64
  | partialWord
  deriving DecidableEq, Repr

/-- One host bus access; the data of a write refused for its width never matters (R7, R32). -/
inductive Access where
  | read (width : Width)
  | write (width : Width) (v : Word)
  deriving DecidableEq, Repr

/-- What may happen next: a host access at a bus address, the engine's turn to take its completion step, or the
platform's reset (R12, R190). -/
inductive Input where
  | host (addr : Nat) (a : Access)
  | engine
  | reset
  deriving DecidableEq, Repr

/-- What the host gets back for an access in the window (R41, R174). -/
inductive Response where
  | data (w : Word)
  | ok
  | busError
  deriving DecidableEq, Repr

/-- The whole machine. -/
structure State where
  /-- NPOLY, DV and BASE of this engine; no step changes them (R4, R19, R21). -/
  build : Build
  /-- The polynomial register file P; the registers from NPOLY on do not exist and stay unwritten (R10;
  notes/assumptions/10.md). -/
  polys : Vector PolyReg 16
  /-- The byte buffer BUF (R13). -/
  buf : Memory
  /-- Scalar register SA (R14). -/
  sa : Word
  /-- Scalar register SB (R14). -/
  sb : Word
  /-- Scalar register SR (R14). -/
  sr : Word
  /-- STATUS.DONE (R15). -/
  done : Bool
  /-- STATUS.ERR and STATUS.ERRCODE: ERR is 1 exactly when an error is held, ERRCODE is its code and 0 when ERR
  is 0 (R15). -/
  error : Option CmdError
  /-- STATUS.OVR (R15). -/
  ovr : Bool
  /-- IRQ_EN.DONE_IE (R16). -/
  doneIe : Bool
  /-- IRQ_EN.ERR_IE (R16). -/
  errIe : Bool
  /-- PENDING, the accepted command not yet complete; STATUS.BUSY is 1 exactly when it holds one (R24). -/
  pending : Option Instr
  /-- The events still to come, in their order: host accesses, engine turns, resets. MODEL (notes/assumptions/2.md). -/
  inputs : List Input
  /-- The responses the host has received, oldest first (R199). MODEL (notes/assumptions/2.md). -/
  responses : List Response
  /-- How many free values have been drawn. MODEL (notes/assumptions/1.md). -/
  freeCount : Nat
  /-- The model fault of R27 and R170, recorded: an unwritten element has been read. MODEL (notes/assumptions/1.md). -/
  unwrittenRead : Bool
  deriving DecidableEq, Repr

/-- Why the machine can stop with a fault. -/
inductive Fault where
  /-- Raised by `exec` for a command that names a polynomial register of index NPOLY or more, a register that does
  not exist (R10). Safe: decoding rejects every such command (R57), so no run from reset reaches it. -/
  | absentRegister
  deriving DecidableEq, Repr

/-- Why the machine can refuse. -/
inductive Refusal where
  /-- Raised only by an arm of `exec` whose instruction has no meaning yet; no arm does. Safe. -/
  | notModelled (mnemonic : String)
  deriving DecidableEq, Repr

/-- The engine of a given build right after reset, with nothing yet to happen (R26, R190, R192). -/
def State.resetOf (b : Build) : State :=
  { build := b
    polys := Vector.replicate 16 (Vector.replicate 256 .unwritten)
    buf := []
    sa := 0
    sb := 0
    sr := 0
    done := false
    error := none
    ovr := false
    doneIe := false
    errIe := false
    pending := none
    inputs := []
    responses := []
    freeCount := 0
    unwrittenRead := false }

/-- The machine right after reset, on the build of `Config.build` (R26). -/
def State.reset : State := State.resetOf Config.build

end Sys2Proof.Machine
end

