-- ==== Sys2Proof/Machine/Flags.lean ====
section
/-! DEFINITION. STATUS, IRQ_EN, the interrupt output and every rule that writes a STATUS field
(spec/10_state.md R15, R16, R24, spec/60_exceptions.md R172, R175, R177, spec/20_memory.md R40;
notes/assumptions/9.md). -/

namespace Sys2Proof.Machine

/-- STATUS.BUSY: 1 exactly when PENDING holds a command (R15, R24). -/
def State.busy (s : State) : Bool := s.pending.isSome

/-- STATUS.ERR (R15). -/
def State.err (s : State) : Bool := s.error.isSome

/-- STATUS.ERRCODE; 0 when ERR = 0 (R15, R171). -/
def State.errcode (s : State) : Nat :=
  match s.error with
  | none => 0
  | some e => e.code

/-- The word a read of STATUS returns; the reserved bits read 0 (R15). -/
def State.statusWord (s : State) : Word :=
  BitVec.ofNat 32 (s.busy.toNat + s.done.toNat * 2 + s.err.toNat * 4 + s.ovr.toNat * 8 + s.errcode * 256)

/-- The word a read of IRQ_EN returns (R16). -/
def State.irqEnWord (s : State) : Word :=
  BitVec.ofNat 32 (s.doneIe.toNat + s.errIe.toNat * 2)

/-- A write of IRQ_EN keeps bits 1:0 (R16). -/
def State.writeIrqEn (s : State) (v : Word) : State :=
  { s with doneIe := v.getLsbD 0, errIe := v.getLsbD 1 }

/-- The interrupt output, a function of STATUS and IRQ_EN at every moment (R175). -/
def State.irq (s : State) : Bool :=
  (s.done && s.doneIe) || ((s.err || s.ovr) && s.errIe)

/-- The acceptance of a decoded command: PENDING holds it, BUSY is 1, DONE, ERR and ERRCODE are 0, OVR is
unchanged (R172). -/
def State.accept (s : State) (i : Instr) : State :=
  { s with pending := some i, done := false, error := none }

/-- What completion does to the status after the command's effects: PENDING is none, BUSY 0, DONE 1; ERR, ERRCODE and
OVR stay (R12, R172). -/
def State.complete (s : State) : State :=
  { s with pending := none, done := true }

/-- A CMD write refused because BUSY = 1 sets OVR (R40, R174). -/
def State.setOvr (s : State) : State := { s with ovr := true }

end Sys2Proof.Machine
end

