-- ==== Sys2Proof/Machine/Ops.lean ====
section
/-! DEFINITION. The named operations over the storage (P, BUF, SR, the free values) and the engine's whole response
to an abnormal event: rejecting a command, refusing an access, the host's acknowledgement
(spec/10_state.md R10 to R14, R27, spec/60_exceptions.md R170 to R177). -/

namespace Sys2Proof.Machine

/-! ### The byte buffer -/

/-- The byte at index `j`, `none` when it is unwritten since reset (R13, R27). -/
def Memory.read (m : Memory) (j : Nat) : Option Byte :=
  match m with
  | [] => none
  | (a, b) :: rest => if a = j then some b else Memory.read rest j

/-- Writing the byte at index `j`, keeping the indexes strictly rising (R13). -/
def Memory.write (m : Memory) (j : Nat) (b : Byte) : Memory :=
  match m with
  | [] => [(j, b)]
  | (a, c) :: rest =>
    if j < a then (j, b) :: (a, c) :: rest
    else if j = a then (j, b) :: rest
    else (a, c) :: Memory.write rest j b

/-- Writing a list of bytes from index `j` up. -/
def Memory.writeBytes (m : Memory) (j : Nat) : List Byte → Memory
  | [] => m
  | b :: rest => Memory.write (Memory.writeBytes m (j + 1) rest) j b

/-- The indexes rise strictly from `lo` up and stay below 384, the size of BUF (R13). -/
def Memory.wfFrom (lo : Nat) : Memory → Bool
  | [] => true
  | (a, _) :: rest => decide (lo ≤ a) && decide (a < 384) && Memory.wfFrom (a + 1) rest

/-- The canonical form: the indexes strictly rising, each one of BUF's 384. No entry can equal what an unlisted index
reads as, since that is no value. -/
def Memory.wf (m : Memory) : Bool := Memory.wfFrom 0 m

/-! ### The polynomial register file -/

/-- The element holds a value (R27). -/
def Stored.isWritten : Stored → Bool
  | .unwritten => false
  | .holds _ => true

/-- The value a read of the element returns; for an unwritten one it is the free value given (R27). -/
def Stored.valueOr (free : Coeff) : Stored → Coeff
  | .unwritten => free
  | .holds c => c

/-- The register index names a register of this engine (R10). -/
def State.hasReg (s : State) (p : PolyIdx) : Bool := decide (p.val < s.build.npoly)

/-- Element `i` of register `p`, `P[p][i]` of R7; there is no element from 256 on. -/
def State.elem (s : State) (p : PolyIdx) (i : Nat) : Stored :=
  if h : i < 256 then s.polys[p][i] else .unwritten

/-- A command's whole write of its destination register (R7). -/
def State.setPoly (s : State) (p : PolyIdx) (r : Poly) : State :=
  { s with polys := s.polys.set p (tabulate 256 fun i => if h : i < 256 then .holds r[i] else .unwritten) }

/-- A write of the two coefficients of word `k` of register `p` (R36). -/
def State.setCoeffs (s : State) (p : PolyIdx) (k : Fin 128) (lo hi : Coeff) : State :=
  { s with polys :=
      s.polys.set p ((s.polys[p].set (2 * k.val) (.holds lo)).set (2 * k.val + 1) (.holds hi)) }

/-- A command's or the host's write of bytes of BUF from index `j` up (R13, R37). -/
def State.setBytes (s : State) (j : Nat) (bs : List Byte) : State :=
  { s with buf := s.buf.writeBytes j bs }

/-- A scalar command's write of SR (R14). -/
def State.setSr (s : State) (v : Word) : State := { s with sr := v }

/-- What a read of `n` elements leaves behind: nothing when all are written; when one is not, the free values
drawn are used up and the model fault is recorded (R27, R170; notes/assumptions/1.md). -/
def State.noteRead (s : State) (n : Nat) (allWritten : Bool) : State :=
  if allWritten then s else { s with freeCount := s.freeCount + n, unwrittenRead := true }

/-! ### Errors, responses, acknowledgement -/

/-- The response to a host access is received (R199). -/
def State.respond (s : State) (r : Response) : State := { s with responses := s.responses ++ [r] }

/-- Rejecting a command, `raise CmdError(code)`: DONE and ERR are 1 and ERRCODE is the code; PENDING, OVR, IRQ_EN and
all data are unchanged (R172). The engine has no trap entry: this is its whole response (R176). -/
def State.raiseCmdError (s : State) (e : CmdError) : State := { s with done := true, error := some e }

/-- Refusing a host access, `raise BusError`: the host gets BusError and nothing else changes (R174). The run goes on
(notes/assumptions/7.md). -/
def State.raiseBusError (s : State) : State := s.respond .busError

/-- The host's acknowledgement, a write of `v` to STATUS: each of DONE, ERR (with ERRCODE) and OVR is cleared where
the written bit is 1, every other written bit is ignored (R15, R177). There is no return instruction: this is what
stands in its place. -/
def State.acknowledge (s : State) (v : Word) : State :=
  { s with
    done := s.done && !v.getLsbD 1
    error := if v.getLsbD 2 then none else s.error
    ovr := s.ovr && !v.getLsbD 3 }

/-- The platform's reset: every piece of the engine's state at its reset value; a pending command is abandoned
(R190, R191). The events still to come, the responses received, and the model's own count and record stay
(notes/assumptions/2.md). -/
def State.resetEvent (s : State) : State :=
  { State.resetOf s.build with
    inputs := s.inputs
    responses := s.responses
    freeCount := s.freeCount
    unwrittenRead := s.unwrittenRead }

end Sys2Proof.Machine
end

