-- ==== Sys2Proof/Machine/Operands.lean ====
section
/-! DEFINITION. The operand forms of the commands (spec/30_encoding.md R53, R55): a command reads all its sources
first, computes on copies, writes its destination, and completes (spec/20_memory.md R45, spec/60_exceptions.md R172).
One shared operation per operand usage class. -/

namespace Sys2Proof.Machine

/-- What `exec` answers. -/
abbrev Result := Host.Outcome State Fault Refusal

/-- The 256 coefficients a command reads from register `p`; an unwritten one is a free value of its own (R27). -/
def State.polyValues (s : State) (p : PolyIdx) : Poly :=
  tabulate 256 fun i => (s.elem p i).valueOr (Config.freeCoeff (s.freeCount + i))

/-- Every coefficient of register `p` has been written since reset (R27). -/
def State.polyWritten (s : State) (p : PolyIdx) : Bool := s.polys[p].toList.all Stored.isWritten

/-- Reading a source register in full (R45). -/
def State.readPoly (s : State) (p : PolyIdx) : Poly × State :=
  (s.polyValues p, s.noteRead 256 (s.polyWritten p))

/-- The bytes `BUF[j]` to `BUF[j + n - 1]` as a read returns them; an unwritten one is a free value of its
own (R27). -/
def State.bufValues (s : State) (j n : Nat) : List Byte :=
  (List.range n).map fun k => (s.buf.read (j + k)).getD (Config.freeByte (s.freeCount + k))

/-- Every byte `BUF[j]` to `BUF[j + n - 1]` has been written since reset (R27). -/
def State.bufWritten (s : State) (j n : Nat) : Bool :=
  (List.range n).all fun k => (s.buf.read (j + k)).isSome

/-- Reading `n` bytes of BUF from index `j` up. -/
def State.readBytes (s : State) (j n : Nat) : List Byte × State :=
  (s.bufValues j n, s.noteRead n (s.bufWritten j n))

/-- The scalar class: SR is the result, sign-extended to 32 bits (R14, R55). -/
def runScalar (result : Word → Word → Int) (s : State) : Result :=
  .next (s.setSr (u32 (result s.sa s.sb))).complete

/-- The unary class: `P[rd]` is a function of `P[rs1]` (R55). -/
def runUnary (f : Poly → Poly) (rd rs1 : PolyIdx) (s : State) : Result :=
  if s.hasReg rd && s.hasReg rs1 then
    .next ((s.readPoly rs1).2.setPoly rd (f (s.readPoly rs1).1)).complete
  else .fault .absentRegister

/-- The binary class: `P[rd]` is a function of `P[rs1]` and `P[rs2]`, both read in full first (R45, R55). -/
def runBinary (f : Poly → Poly → Poly) (rd rs1 rs2 : PolyIdx) (s : State) : Result :=
  if s.hasReg rd && s.hasReg rs1 && s.hasReg rs2 then
    let a := s.readPoly rs1
    let b := a.2.readPoly rs2
    .next (b.2.setPoly rd (f a.1 b.1)).complete
  else .fault .absentRegister

/-- The store-to-buffer class: BUF from index 0 up is a function of `P[rs1]`; the other bytes keep their
values (R55). -/
def runStore (f : Poly → List Byte) (rs1 : PolyIdx) (s : State) : Result :=
  if s.hasReg rs1 then
    .next ((s.readPoly rs1).2.setBytes 0 (f (s.readPoly rs1).1)).complete
  else .fault .absentRegister

/-- The load-from-buffer class: `P[rd]` is a function of the bytes `BUF[0]` to `BUF[n - 1]` (R55). -/
def runLoad (n : Nat) (f : List Byte → Poly) (rd : PolyIdx) (s : State) : Result :=
  if s.hasReg rd then
    .next ((s.readBytes 0 n).2.setPoly rd (f (s.readBytes 0 n).1)).complete
  else .fault .absentRegister

end Sys2Proof.Machine
end

