-- ==== Sys2Proof/Machine/Twiddle.lean ====
section
/-! DEFINITION. The twiddle ROM (spec/41_ntt.md R90, spec/10_state.md R20): the default table, "which this hardware
takes". Nothing writes it and reset leaves it, so it is a constant of the build and not a field of State
(notes/assumptions/4.md). -/

namespace Sys2Proof.Machine

/-- ZETAS[0] to ZETAS[31] (R90). -/
def zetaRows0 : List Int :=
  [-1044, -758, -359, -1517, 1493, 1422, 287, 202,
   -171, 622, 1577, 182, 962, -1202, -1474, 1468,
   573, -1325, 264, 383, -829, 1458, -1602, -130,
   -681, 1017, 732, 608, -1542, 411, -205, -1571]

/-- ZETAS[32] to ZETAS[63] (R90). -/
def zetaRows1 : List Int :=
  [1223, 652, -552, 1015, -1293, 1491, -282, -1544,
   516, -8, -320, -666, -1618, -1162, 126, 1469,
   -853, -90, -271, 830, 107, -1421, -247, -951,
   -398, 961, -1508, -725, 448, -1065, 677, -1275]

/-- ZETAS[64] to ZETAS[95] (R90). -/
def zetaRows2 : List Int :=
  [-1103, 430, 555, 843, -1251, 871, 1550, 105,
   422, 587, 177, -235, -291, -460, 1574, 1653,
   -246, 778, 1159, -147, -777, 1483, -602, 1119,
   -1590, 644, -872, 349, 418, 329, -156, -75]

/-- ZETAS[96] to ZETAS[127] (R90). -/
def zetaRows3 : List Int :=
  [817, 1097, 603, 610, 1322, -1285, -1465, 384,
   -1215, -136, 1218, -1335, -874, 220, -1187, -1659,
   -1185, -1530, -1278, 794, -1510, -854, -870, 478,
   -108, -308, 996, 991, 958, -1460, 1522, 1628]

/-- The twiddle table ZETA_TABLE, 128 entries (R90). -/
def zetaTable : List Int := zetaRows0 ++ (zetaRows1 ++ (zetaRows2 ++ zetaRows3))

/-- ROM entry `i`, `ZETAS[i]` of R7; commands and the host use only `i` below 128 (R20). -/
def zetas (i : Nat) : Int := zetaTable.getD i 0

/-- The reversal of a 7-bit number: bit b of `i` moves to bit 6 - b (R90). -/
def brv7 (i : Nat) : Nat :=
  (List.range 7).foldl (fun acc b => acc + (i / 2 ^ b % 2) * 2 ^ (6 - b)) 0

/-- The formula of the default table (R90). -/
def zetaFormula (i : Nat) : Int := centered (17 ^ brv7 i * 65536)

end Sys2Proof.Machine
end

