-- ==== Sys2Proof/Machine/Bus.lean ====
section
/-! DEFINITION. The host bus: the address map, the checks of an access in their order, reads, writes and the issue of
a command (spec/20_memory.md R30 to R41, spec/60_exceptions.md R172 to R174). -/

namespace Sys2Proof.Machine

/-- What an aligned offset of the window names (R31); in the three tables `k` is the word's number. -/
inductive Region where
  | id
  | config
  | status
  | cmd
  | irqEn
  | sa
  | sb
  | sr
  | poly (p : PolyIdx) (k : Fin 128)
  | buffer (k : Fin 96)
  | rom (k : Fin 64)
  | reserved
  deriving DecidableEq, Repr

/-- The address map (R31, R36, R37, R38). -/
def regionOf (off : Offset) : Region :=
  if off.toNat = 0x0000 then .id
  else if off.toNat = 0x0004 then .config
  else if off.toNat = 0x0008 then .status
  else if off.toNat = 0x000C then .cmd
  else if off.toNat = 0x0010 then .irqEn
  else if off.toNat = 0x0014 then .sa
  else if off.toNat = 0x0018 then .sb
  else if off.toNat = 0x001C then .sr
  else if h : 0x1000 ≤ off.toNat ∧ off.toNat < 0x3000 then
    .poly ⟨(off.toNat - 0x1000) / 0x200, by omega⟩ ⟨(off.toNat - 0x1000) % 0x200 / 4, by omega⟩
  else if h : 0x3000 ≤ off.toNat ∧ off.toNat < 0x3180 then .buffer ⟨(off.toNat - 0x3000) / 4, by omega⟩
  else if h : 0x4000 ≤ off.toNat ∧ off.toNat < 0x4100 then .rom ⟨(off.toNat - 0x4000) / 4, by omega⟩
  else .reserved

/-- The offset is reserved, or in the slot of a register the engine does not have (R39). -/
def Region.absent (npoly : Nat) : Region → Bool
  | .poly p _ => decide (npoly ≤ p.val)
  | .reserved => true
  | _ => false

/-- A write is refused (R35, R38). -/
def Region.readOnly : Region → Bool
  | .id => true
  | .config => true
  | .sr => true
  | .rom _ => true
  | _ => false

/-- A read is refused while BUSY = 1 (R40). -/
def Region.readGated : Region → Bool
  | .sa => true
  | .sb => true
  | .sr => true
  | .poly _ _ => true
  | .buffer _ => true
  | _ => false

/-- A write is refused while BUSY = 1 (R40). -/
def Region.writeGated : Region → Bool
  | .cmd => true
  | r => r.readGated

/-- Two 16-bit items in one word, the one at the lower offset in bits 15:0 (R34). -/
def wordOfHalves (lo hi : Coeff) : Word := hi ++ lo

/-- The low half of a word (R34). -/
def lowHalf (v : Word) : Coeff := v.extractLsb' 0 16

/-- The high half of a word (R34). -/
def highHalf (v : Word) : Coeff := v.extractLsb' 16 16

/-- The four bytes of a word, lowest offset first (R34). -/
def bytesOfWord (v : Word) : List Byte :=
  [v.extractLsb' 0 8, v.extractLsb' 8 8, v.extractLsb' 16 8, v.extractLsb' 24 8]

/-- The word of the first four bytes of a list (R34). -/
def wordOfByteList (bs : List Byte) : Word :=
  wordOfBytes (bs.getD 0 0) (bs.getD 1 0) (bs.getD 2 0) (bs.getD 3 0)

/-- The constant of the ID register, "KPE1" (R18). -/
def idWord : Word := 0x4B504531

/-- The CONFIG register: NPOLY in bits 7:0, DV in bits 15:8 (R19). -/
def configWord (b : Build) : Word := BitVec.ofNat 32 (b.npoly + b.dv.bits * 256)

/-- The word a permitted read returns; an unwritten element gives free bits (R14 to R19, R36 to R38, R27). -/
def State.readWord (s : State) : Region → Word
  | .id => idWord
  | .config => configWord s.build
  | .status => s.statusWord
  | .cmd => 0
  | .irqEn => s.irqEnWord
  | .sa => s.sa
  | .sb => s.sb
  | .sr => s.sr
  | .poly p k =>
    wordOfHalves ((s.elem p (2 * k.val)).valueOr (Config.freeCoeff s.freeCount))
      ((s.elem p (2 * k.val + 1)).valueOr (Config.freeCoeff (s.freeCount + 1)))
  | .buffer k => wordOfByteList (s.bufValues (4 * k.val) 4)
  | .rom k => wordOfHalves (toCoeff (zetas (2 * k.val))) (toCoeff (zetas (2 * k.val + 1)))
  | .reserved => 0

/-- What a permitted read leaves behind: nothing, but for the record of a read of an unwritten element (R27, R41). -/
def State.afterRead (s : State) : Region → State
  | .poly p k => s.noteRead 2 ((s.elem p (2 * k.val)).isWritten && (s.elem p (2 * k.val + 1)).isWritten)
  | .buffer k => s.noteRead 4 (s.bufWritten (4 * k.val) 4)
  | _ => s

/-- Issuing a command word while BUSY = 0: it is decoded, then accepted or rejected (R57, R172). -/
def State.issue (s : State) (w : Word) : State :=
  match decode s.build.npoly w with
  | .ok i => s.accept i
  | .error e => s.raiseCmdError e

/-- The effect of a permitted write (R14 to R17, R36, R37). -/
def State.writeWord (s : State) (r : Region) (v : Word) : State :=
  match r with
  | .status => s.acknowledge v
  | .cmd => s.issue v
  | .irqEn => s.writeIrqEn v
  | .sa => { s with sa := v }
  | .sb => { s with sb := v }
  | .poly p k => s.setCoeffs p k (lowHalf v) (highHalf v)
  | .buffer k => s.setBytes (4 * k.val) (bytesOfWord v)
  | _ => s

/-- The access is exactly 32 bits wide and its offset a multiple of 4 (R32, R33). -/
def wellFormedAccess (off : Offset) (width : Width) : Bool :=
  decide (width = .bits32) && decide (off.toNat % 4 = 0)

/-- A host read at an offset of the window, the checks in the order of R173. -/
def State.hostRead (s : State) (off : Offset) (width : Width) : State :=
  if !wellFormedAccess off width then s.raiseBusError
  else if (regionOf off).absent s.build.npoly then s.raiseBusError
  else if s.busy && (regionOf off).readGated then s.raiseBusError
  else (s.afterRead (regionOf off)).respond (.data (s.readWord (regionOf off)))

/-- A host write at an offset of the window, the checks in the order of R173; a CMD write refused because BUSY = 1
sets OVR (R40, R174). -/
def State.hostWrite (s : State) (off : Offset) (width : Width) (v : Word) : State :=
  if !wellFormedAccess off width then s.raiseBusError
  else if (regionOf off).absent s.build.npoly then s.raiseBusError
  else if (regionOf off).readOnly then s.raiseBusError
  else if s.busy && (regionOf off).writeGated then
    if regionOf off = .cmd then s.setOvr.raiseBusError else s.raiseBusError
  else (s.writeWord (regionOf off) v).respond .ok

/-- A host access at a bus address: at `BASE + off` it is an access at offset `off`; the engine does not answer any
other address (R30; notes/assumptions/12.md). -/
def State.hostAccess (s : State) (addr : Nat) (a : Access) : State :=
  if s.build.base ≤ addr ∧ addr < s.build.base + 0x8000 then
    match a with
    | .read width => s.hostRead (BitVec.ofNat 15 (addr - s.build.base)) width
    | .write width v => s.hostWrite (BitVec.ofNat 15 (addr - s.build.base)) width v
  else s

end Sys2Proof.Machine
end

