-- ==== Sys2Proof/Machine/Basemul.lean ====
section
/-! DEFINITION. Base multiplication (spec/42_basemul.md R110, R111). -/

namespace Sys2Proof.Machine

/-- `basemul`: the product of `a0 + a1 x` and `b0 + b1 x` modulo `x^2 - zeta` (R110). -/
def basemulPair (a0 a1 b0 b1 zeta : Int) : Int × Int :=
  let r0 := fqmul a1 b1
  let r0 := fqmul r0 zeta
  let r0 := s16 (r0 + fqmul a0 b0)
  let r1 := s16 (fqmul a0 b1 + fqmul a1 b0)
  (r0, r1)

/-- The twiddle of pair `m` of 128: block `m / 2` uses `ZETAS[64 + m / 2]` for its first pair and its negation for
its second (R111). -/
def pairZeta (m : Nat) : Int :=
  if m % 2 = 0 then zetas (64 + m / 2) else -zetas (64 + m / 2)

/-- The result of BASEMUL: pair `m` is coefficients `2m` and `2m + 1` (R111). -/
def basemulFn (a b : Poly) : Poly :=
  tabulate 256 fun i =>
    let m := i / 2
    let r := basemulPair (coeffAt a (2 * m)) (coeffAt a (2 * m + 1)) (coeffAt b (2 * m)) (coeffAt b (2 * m + 1))
      (pairZeta m)
    if i % 2 = 0 then toCoeff r.1 else toCoeff r.2

/-- BASEMUL: the pointwise product of two NTT-domain polynomials (R111). -/
def execBasemul (rd rs1 rs2 : PolyIdx) (s : State) : Result := runBinary basemulFn rd rs1 rs2 s

end Sys2Proof.Machine
end

