-- ==== Sys2Proof/Machine/Codec.lean ====
section
/-! DEFINITION. Serialization, compression and message coding (spec/44_codec.md R141 to R152). -/

namespace Sys2Proof.Machine

/-- Byte `j` of a list of bytes as a number; commands use only indexes of the list. -/
def byteAt (bs : List Byte) (j : Nat) : Nat := (bs.getD j 0).toNat

/-- The three bytes of two normalized coefficients; a byte keeps the low 8 bits (R141). -/
def packPair (t0 t1 : Nat) : List Byte :=
  [BitVec.ofNat 8 t0, BitVec.ofNat 8 ((t0 >>> 8) ||| (t1 <<< 4)), BitVec.ofNat 8 (t1 >>> 4)]

/-- The 384 bytes of TOBYTES (R141). -/
def toBytesFn (a : Poly) : List Byte :=
  (List.range 128).flatMap fun i =>
    packPair (normalizeCoeff (coeffAt a (2 * i))) (normalizeCoeff (coeffAt a (2 * i + 1)))

/-- The 256 coefficients of FROMBYTES, not reduced (R142). -/
def fromBytesFn (bs : List Byte) : Poly :=
  tabulate 256 fun n =>
    let i := n / 2
    if n % 2 = 0 then BitVec.ofNat 16 ((byteAt bs (3 * i) ||| (byteAt bs (3 * i + 1) <<< 8)) &&& 0xFFF)
    else BitVec.ofNat 16 (((byteAt bs (3 * i + 1) >>> 4) ||| (byteAt bs (3 * i + 2) <<< 4)) &&& 0xFFF)

/-- `compress_coeff` (R144). -/
def compressCoeff (a : Int) (d : Nat) : Nat := (((normalizeCoeff a <<< d) + 1664) / 3329) &&& (2 ^ d - 1)

/-- `decompress_coeff` (R145). -/
def decompressCoeff (t d : Nat) : Nat := (t * 3329 + 2 ^ (d - 1)) >>> d

/-- The number W of group `g` of eight compressed values, value `j` at bits `d * j` up (R146). -/
def packGroup (d : Nat) (t : Nat → Nat) (g : Nat) : Nat :=
  (List.range 8).foldl (fun w j => w + (t (8 * g + j) <<< (d * j))) 0

/-- The `32 * d` bytes of COMPRESS (R146, R147). -/
def compressFn (d : Nat) (a : Poly) : List Byte :=
  (List.range 32).flatMap fun g =>
    (List.range d).map fun k =>
      BitVec.ofNat 8 (packGroup d (fun j => compressCoeff (coeffAt a j) d) g >>> (8 * k))

/-- The number W of the `d` bytes of group `g` (R148). -/
def unpackGroup (d : Nat) (bs : List Byte) (g : Nat) : Nat :=
  (List.range d).foldl (fun w k => w + (byteAt bs (d * g + k) <<< (8 * k))) 0

/-- The 256 coefficients of DECOMPRESS (R148). -/
def decompressFn (d : Nat) (bs : List Byte) : Poly :=
  tabulate 256 fun n =>
    BitVec.ofNat 16 (decompressCoeff ((unpackGroup d bs (n / 8) >>> (d * (n % 8))) &&& (2 ^ d - 1)) d)

/-- The 256 coefficients of FROMMSG: bit `j` of byte `i` is coefficient `8i + j`, 0 or 1665 (R151). -/
def fromMsgFn (bs : List Byte) : Poly :=
  tabulate 256 fun n => BitVec.ofNat 16 (((byteAt bs (n / 8) >>> (n % 8)) &&& 1) * 1665)

/-- The message bit of a coefficient (R152). -/
def msgBit (a : Int) : Nat := (((normalizeCoeff a <<< 1) + 1664) / 3329) &&& 1

/-- The 32 bytes of TOMSG (R152). -/
def toMsgFn (a : Poly) : List Byte :=
  (List.range 32).map fun i =>
    BitVec.ofNat 8 ((List.range 8).foldl (fun m j => m ||| (msgBit (coeffAt a (8 * i + j)) <<< j)) 0)

/-- TOBYTES: BUF[0..383] from P[rs1] (R141). -/
def execTobytes (rs1 : PolyIdx) (s : State) : Result := runStore toBytesFn rs1 s

/-- FROMBYTES: P[rd] from BUF[0..383] (R142). -/
def execFrombytes (rd : PolyIdx) (s : State) : Result := runLoad 384 fromBytesFn rd s

/-- COMPRESS: BUF[0..32*DV-1] from P[rs1] (R147). -/
def execCompress (rs1 : PolyIdx) (s : State) : Result := runStore (compressFn s.build.dv.bits) rs1 s

/-- DECOMPRESS: P[rd] from BUF[0..32*DV-1] (R148). -/
def execDecompress (rd : PolyIdx) (s : State) : Result :=
  runLoad (32 * s.build.dv.bits) (decompressFn s.build.dv.bits) rd s

/-- FROMMSG: P[rd] from BUF[0..31] (R151). -/
def execFrommsg (rd : PolyIdx) (s : State) : Result := runLoad 32 fromMsgFn rd s

/-- TOMSG: BUF[0..31] from P[rs1] (R152). -/
def execTomsg (rs1 : PolyIdx) (s : State) : Result := runStore toMsgFn rs1 s

end Sys2Proof.Machine
end

