-- ==== Sys2Proof/Machine/Ntt.lean ====
section
/-! DEFINITION. The forward and inverse transform and their commands (spec/41_ntt.md R92 to R96). One layer is
written as the value of every coefficient after it: inside a layer each coefficient belongs to exactly one butterfly,
so the order of the butterflies does not matter, and the group with start `2 * len * g` draws the twiddle the loop
counter k has there. The loops of the spec's pseudocode themselves are `nttLoop` and `invnttLoop` of NttLoop.lean
(notes/assumptions/5.md). -/

namespace Sys2Proof.Machine

/-- One layer of Cooley-Tukey butterflies at stride `len`: `(a, b)` becomes `(a + t, a - t)` with
`t = fqmul(zeta, b)`; the layer's first twiddle is `ZETAS[128 / len]` (R92). -/
def nttLayer (len : Nat) (r : Poly) : Poly :=
  tabulate 256 fun i =>
    let zeta := zetas (128 / len + i / (2 * len))
    if i % (2 * len) < len then toCoeff (coeffAt r i + fqmul zeta (coeffAt r (i + len)))
    else toCoeff (coeffAt r (i - len) - fqmul zeta (coeffAt r i))

/-- `ntt_fn`: seven layers, strides 128 down to 2 (R92). -/
def nttFn (r : Poly) : Poly :=
  nttLayer 2 (nttLayer 4 (nttLayer 8 (nttLayer 16 (nttLayer 32 (nttLayer 64 (nttLayer 128 r))))))

/-- One layer of Gentleman-Sande butterflies at stride `len`: `(a, b)` becomes `(barrett(a + b), fqmul(zeta, b - a))`;
the layer's first twiddle is `ZETAS[2 * (128 / len) - 1]` and they are taken downwards (R95). -/
def invLayer (len : Nat) (r : Poly) : Poly :=
  tabulate 256 fun i =>
    let zeta := zetas (2 * (128 / len) - 1 - i / (2 * len))
    if i % (2 * len) < len then toCoeff (barrettReduce (s16 (coeffAt r i + coeffAt r (i + len))))
    else toCoeff (fqmul zeta (s16 (coeffAt r i - coeffAt r (i - len))))

/-- The final scaling of every coefficient by INVNTT_F = 1441 (R95). -/
def invScale (r : Poly) : Poly :=
  tabulate 256 fun i => toCoeff (fqmul (coeffAt r i) 1441)

/-- `invntt_fn`: seven layers, strides 2 up to 128, then the scaling (R95). -/
def invnttFn (r : Poly) : Poly :=
  invScale
    (invLayer 128 (invLayer 64 (invLayer 32 (invLayer 16 (invLayer 8 (invLayer 4 (invLayer 2 r)))))))

/-- `barrett_reduce` of every coefficient (R94, R122). -/
def reducePoly (r : Poly) : Poly :=
  tabulate 256 fun i => toCoeff (barrettReduce (coeffAt r i))

/-- NTT: the forward transform, no reduction (R93). -/
def execNtt (rd rs1 : PolyIdx) (s : State) : Result := runUnary nttFn rd rs1 s

/-- POLY_NTT: the forward transform, then Barrett reduction of every coefficient (R94). -/
def execPolyNtt (rd rs1 : PolyIdx) (s : State) : Result :=
  runUnary (fun a => reducePoly (nttFn a)) rd rs1 s

/-- INVNTT: the inverse transform with scaling into the Montgomery domain (R96). -/
def execInvntt (rd rs1 : PolyIdx) (s : State) : Result := runUnary invnttFn rd rs1 s

end Sys2Proof.Machine
end

