-- ==== Sys2Proof/Machine/Reduction.lean ====
section
/-! DEFINITION. The scalar commands of the Reduction Engine (spec/40_reduction.md R78 to R81). -/

namespace Sys2Proof.Machine

/-- MONTRED: SR is `montgomery_reduce` of all of SA (R78). -/
def execMontred (s : State) : Result := runScalar (fun sa _ => montgomeryReduce (sext32 sa)) s

/-- BARRETT: SR is `barrett_reduce` of the low half of SA (R79). -/
def execBarrett (s : State) : Result := runScalar (fun sa _ => barrettReduce (sext16 sa)) s

/-- FQMUL: SR is `fqmul` of the low halves of SA and SB (R80). -/
def execFqmul (s : State) : Result := runScalar (fun sa sb => fqmul (sext16 sa) (sext16 sb)) s

/-- FROMMONT_S: SR is `frommont` of all of SA (R81). -/
def execFrommontS (s : State) : Result := runScalar (fun sa _ => frommontFn (sext32 sa)) s

end Sys2Proof.Machine
end

