-- ==== Sys2Proof/Machine/Ring.lean ====
section
/-! DEFINITION. The polynomial ring operations (spec/43_ring.md R120 to R123). -/

namespace Sys2Proof.Machine

/-- The coefficient-wise sum, wrapping to 16 bits (R120). -/
def addFn (a b : Poly) : Poly := tabulate 256 fun i => toCoeff (coeffAt a i + coeffAt b i)

/-- The coefficient-wise difference `a - b`, wrapping to 16 bits (R121). -/
def subFn (a b : Poly) : Poly := tabulate 256 fun i => toCoeff (coeffAt a i - coeffAt b i)

/-- `frommont` of every coefficient (R123). -/
def frommontPoly (a : Poly) : Poly := tabulate 256 fun i => toCoeff (frommontFn (coeffAt a i))

/-- ADD (R120). -/
def execAdd (rd rs1 rs2 : PolyIdx) (s : State) : Result := runBinary addFn rd rs1 rs2 s

/-- SUB: RS1 is the minuend, RS2 the subtrahend (R121). -/
def execSub (rd rs1 rs2 : PolyIdx) (s : State) : Result := runBinary subFn rd rs1 rs2 s

/-- REDUCE: Barrett reduction of every coefficient (R122). -/
def execReduce (rd rs1 : PolyIdx) (s : State) : Result := runUnary reducePoly rd rs1 s

/-- FROMMONT: Montgomery conversion of every coefficient (R123). -/
def execFrommont (rd rs1 : PolyIdx) (s : State) : Result := runUnary frommontPoly rd rs1 s

end Sys2Proof.Machine
end

