-- ==== Sys2Proof/Machine/Dispatch.lean ====
section
/-! DEFINITION. The meaning of every command: its effect and its completion (spec/30_encoding.md R54,
spec/60_exceptions.md R172). -/

namespace Sys2Proof.Machine

def exec (i : Instr) (s : State) : Host.Outcome State Fault Refusal :=
  match i with
  | .montred => Sys2Proof.Machine.execMontred s
  | .barrett => Sys2Proof.Machine.execBarrett s
  | .fqmul => Sys2Proof.Machine.execFqmul s
  | .frommontS => Sys2Proof.Machine.execFrommontS s
  | .ntt rd rs1 => Sys2Proof.Machine.execNtt rd rs1 s
  | .polyNtt rd rs1 => Sys2Proof.Machine.execPolyNtt rd rs1 s
  | .invntt rd rs1 => Sys2Proof.Machine.execInvntt rd rs1 s
  | .basemul rd rs1 rs2 => Sys2Proof.Machine.execBasemul rd rs1 rs2 s
  | .add rd rs1 rs2 => Sys2Proof.Machine.execAdd rd rs1 rs2 s
  | .sub rd rs1 rs2 => Sys2Proof.Machine.execSub rd rs1 rs2 s
  | .reduce rd rs1 => Sys2Proof.Machine.execReduce rd rs1 s
  | .frommont rd rs1 => Sys2Proof.Machine.execFrommont rd rs1 s
  | .tobytes rs1 => Sys2Proof.Machine.execTobytes rs1 s
  | .frombytes rd => Sys2Proof.Machine.execFrombytes rd s
  | .compress rs1 => Sys2Proof.Machine.execCompress rs1 s
  | .decompress rd => Sys2Proof.Machine.execDecompress rd s
  | .frommsg rd => Sys2Proof.Machine.execFrommsg rd s
  | .tomsg rs1 => Sys2Proof.Machine.execTomsg rs1 s

end Sys2Proof.Machine
end

