-- ==== Sys2Proof/Machine/Step.lean ====
section
/-! DEFINITION. One step of the whole machine: the next event is a host access, the engine's completion step or a
reset (spec/10_state.md R12, spec/70_reset_and_hazards.md R190, R196). -/

namespace Sys2Proof.Machine

/-- The engine's turn: it completes the pending command in one step; with none pending it takes no step and every
piece of state is held (R12, R24, R185, R192). -/
def engineStep (s : State) : Host.Outcome State Fault Refusal :=
  match s.pending with
  | none => .next s
  | some i => exec i s

/-- One step. The order of the two agents is that of `inputs`; when no event is left the engine's completion step is
taken if it is enabled (weak fairness, R12, R196; notes/assumptions/14.md). -/
def step (s : State) : Host.Outcome State Fault Refusal :=
  match s.inputs with
  | [] => engineStep s
  | .host addr a :: rest => .next (State.hostAccess { s with inputs := rest } addr a)
  | .engine :: rest => engineStep { s with inputs := rest }
  | .reset :: rest => .next (State.resetEvent { s with inputs := rest })

/-- The state in which the command word `w` has just been written to CMD while no command was pending, and the
engine's completion step comes next: the engine fetches nothing, a command arrives as data (R17, R22, R172). The
very next `step` runs the command (notes/assumptions/8.md). -/
def State.withFetchWord (s : State) (nbits w : Nat) : State :=
  { State.issue { s with pending := none } (BitVec.ofNat 32 (w % 2 ^ nbits)) with inputs := .engine :: s.inputs }

end Sys2Proof.Machine
end

