-- ==== Sys2Proof/Machine/NttLoop.lean ====
section
/-! DEFINITION. The loops of the spec's pseudocode for the two transforms, statement by statement
(spec/41_ntt.md R92, R95): what `nttFn` and `invnttFn` of Ntt.lean are stated equal to. -/

namespace Sys2Proof.Machine

/-- `r[i] <- v`, the wrap to 16 bits being `s16` (R7). -/
def setCoeff (r : Poly) (i : Nat) (v : Int) : Poly :=
  if h : i < 256 then r.set i (toCoeff v) else r

/-- The body of the forward inner loop at `j` (R92). -/
def nttButterfly (len : Nat) (zeta : Int) (r : Poly) (j : Nat) : Poly :=
  let t := fqmul zeta (coeffAt r (j + len))
  let r' := setCoeff r (j + len) (coeffAt r j - t)
  setCoeff r' j (coeffAt r' j + t)

/-- The body of the inverse inner loop at `j` (R95). -/
def invButterfly (len : Nat) (zeta : Int) (r : Poly) (j : Nat) : Poly :=
  let t := coeffAt r j
  let r' := setCoeff r j (barrettReduce (s16 (t + coeffAt r (j + len))))
  setCoeff r' (j + len) (fqmul zeta (s16 (coeffAt r' (j + len) - t)))

/-- `for j in start .. start + len - 1`, with the group's one twiddle (R92, R95). -/
def groupLoop (body : Nat → Int → Poly → Nat → Poly) (len start : Nat) (zeta : Int) (r : Poly) : Poly :=
  (List.range len).foldl (fun r d => body len zeta r (start + d)) r

/-- `while start < 256` of the forward transform: the groups in increasing start, the twiddle counter `k` rising. -/
def nttGroups (len : Nat) (st : Poly × Nat) : Poly × Nat :=
  (List.range (256 / (2 * len))).foldl
    (fun st g => (groupLoop nttButterfly len (2 * len * g) (zetas st.2) st.1, st.2 + 1)) st

/-- `while start < 256` of the inverse transform: the twiddle counter `k` falling. -/
def invGroups (len : Nat) (st : Poly × Nat) : Poly × Nat :=
  (List.range (256 / (2 * len))).foldl
    (fun st g => (groupLoop invButterfly len (2 * len * g) (zetas st.2) st.1, st.2 - 1)) st

/-- `ntt_fn` as R92 writes it: `k = 1`, then the seven strides. -/
def nttLoop (r : Poly) : Poly :=
  ([128, 64, 32, 16, 8, 4, 2].foldl (fun st len => nttGroups len st) (r, 1)).1

/-- `invntt_fn` as R95 writes it: `k = 127`, the seven strides, then the scaling. -/
def invnttLoop (r : Poly) : Poly :=
  (List.range 256).foldl (fun r j => setCoeff r j (fqmul (coeffAt r j) 1441))
    ([2, 4, 8, 16, 32, 64, 128].foldl (fun st len => invGroups len st) (r, 127)).1

end Sys2Proof.Machine
end

