-- ==== Sys2Proof/Safety.lean ====
section
/-! DEFINITION. What the statements are said in: the invariant of the machine, what a command may change, the values
it may read, and when a run is over and valid (spec/20_memory.md R45, spec/60_exceptions.md R172,
spec/70_reset_and_hazards.md R199). -/

namespace Sys2Proof.Machine

/-! ### The invariant -/

/-- A pending command names only registers that exist (R24, R57). -/
def State.pendingWf (s : State) : Bool :=
  match s.pending with
  | none => true
  | some i => i.wf s.build.npoly

/-- The invariant every step keeps: the pending command is one decoding accepts, BUF is in its canonical form and
inside its 384 bytes, and the registers the engine does not have hold nothing (R10, R13, R57). -/
def State.Inv (s : State) : Prop :=
  s.pendingWf = true ∧ s.buf.wf = true ∧
    ∀ p : PolyIdx, s.build.npoly ≤ p.val → ∀ i : Nat, s.elem p i = .unwritten

/-! ### What a command reads -/

/-- `a` is what a command may read from register `p`: every written coefficient has its stored value (R27). -/
def State.Reads (s : State) (p : PolyIdx) (a : Poly) : Prop :=
  ∀ (i : Nat) (h : i < 256) (c : Coeff), s.elem p i = .holds c → a[i] = c

/-- `bs` is what a command may read from `BUF[0..n-1]`: every written byte has its stored value (R27). -/
def State.ReadsBuf (s : State) (n : Nat) (bs : List Byte) : Prop :=
  bs.length = n ∧ ∀ (j : Nat) (b : Byte), j < n → s.buf.read j = some b → bs[j]? = some b

/-- Every coefficient of register `p` is written. -/
def State.AllWritten (s : State) (p : PolyIdx) : Prop :=
  ∀ i : Nat, i < 256 → (s.elem p i).isWritten = true

/-- Every byte of `BUF[0..n-1]` is written. -/
def State.BufAllWritten (s : State) (n : Nat) : Prop :=
  ∀ j : Nat, j < n → (s.buf.read j).isSome = true

/-! ### What a command changes -/

/-- The command is complete, and everything no command writes is as before: the build, SA, SB, ERR with ERRCODE, OVR,
IRQ_EN, the events still to come and the responses received (R14, R23, R45, R172). -/
def State.Completes (s t : State) : Prop :=
  t.pending = none ∧ t.done = true ∧ t.build = s.build ∧ t.sa = s.sa ∧ t.sb = s.sb ∧ t.error = s.error ∧
    t.ovr = s.ovr ∧ t.doneIe = s.doneIe ∧ t.errIe = s.errIe ∧ t.inputs = s.inputs ∧ t.responses = s.responses

/-- The frame of a command whose destination is register `rd`: SR, every byte of BUF and every other register are as
before (R45). -/
def State.OnlyReg (rd : PolyIdx) (s t : State) : Prop :=
  s.Completes t ∧ t.sr = s.sr ∧ (∀ j : Nat, t.buf.read j = s.buf.read j) ∧
    ∀ (p : PolyIdx) (i : Nat), p ≠ rd → t.elem p i = s.elem p i

/-- The frame of a command whose destination is `BUF[0..n-1]`: SR, every register and every other byte are as
before (R45). -/
def State.OnlyBuf (n : Nat) (s t : State) : Prop :=
  s.Completes t ∧ t.sr = s.sr ∧ (∀ (p : PolyIdx) (i : Nat), t.elem p i = s.elem p i) ∧
    ∀ j : Nat, n ≤ j → t.buf.read j = s.buf.read j

/-- The frame of a scalar command, whose destination is SR: every register and every byte are as before, and nothing
unwritten is read (R14, R45). -/
def State.OnlySr (s t : State) : Prop :=
  s.Completes t ∧ (∀ (p : PolyIdx) (i : Nat), t.elem p i = s.elem p i) ∧
    (∀ j : Nat, t.buf.read j = s.buf.read j) ∧ t.freeCount = s.freeCount ∧ t.unwrittenRead = s.unwrittenRead

/-! ### The end of a run -/

/-- The event is a bus operation of the host. -/
def Input.isHost : Input → Bool
  | .host _ _ => true
  | .engine => false
  | .reset => false

/-- The host has performed its last bus operation: no access of it is left among the events to come. -/
def State.hostDone (s : State) : Bool := s.inputs.all fun e => !e.isHost

/-- A run is over when the host has performed its last bus operation and PENDING is none (R199). Engine turns and
resets may still be to come: they belong to no run. -/
def State.runOver (s : State) : Prop := s.hostDone = true ∧ s.pending = none

/-- The run from `s` ends in `t` after `k` steps: `t` is the first state on the way in which the run is over. The
observation of the finished run is that of `t` (R199). -/
def State.EndsRun (s : State) (k : Nat) (t : State) : Prop :=
  core.run k s = .next t ∧ t.runOver ∧ ∀ (j : Nat) (u : State), j < k → core.run j s = .next u → ¬u.runOver

/-- A run is valid while no model fault is recorded (R170, R199). -/
def State.valid (s : State) : Prop := s.unwrittenRead = false

/-- A finished run: over, and without a recorded model fault (R199). -/
def State.final (s : State) : Prop := s.runOver ∧ s.valid

/-- What is observed of a finished run: P and BUF (the written elements), SA, SB, SR, STATUS, IRQ_EN and what the
host's accesses returned (R199). -/
structure Observation where
  polys : Vector PolyReg 16
  buf : Memory
  sa : Word
  sb : Word
  sr : Word
  status : Word
  irqEn : Word
  responses : List Response
  deriving DecidableEq, Repr

/-- The observation of a state (R199). -/
def State.observation (s : State) : Observation :=
  { polys := s.polys
    buf := s.buf
    sa := s.sa
    sb := s.sb
    sr := s.sr
    status := s.statusWord
    irqEn := s.irqEnWord
    responses := s.responses }

end Sys2Proof.Machine
end

