-- ==== Sys2Proof/Certificates/Slice0/Obligations.lean ====
section
/-! DEFINITION. The statements for the provers, each with the rule of the spec it formalises, and the few shapes they
are written in. -/

namespace Sys2Proof.Machine

/-! ### Shapes -/

/-- A row of the class table of R55: match, mask, and which of RD, RS1, RS2 the class uses. -/
structure ClassRow where
  value : Word
  mask : Word
  usesRd : Bool
  usesRs1 : Bool
  usesRs2 : Bool
  deriving DecidableEq, Repr

/-- The eighteen rows of R54 with the match and mask of R55. -/
def classTable : List ClassRow :=
  ([0x10, 0x11, 0x12, 0x13].map fun op => ⟨op, 0xFFFFFFFF, false, false, false⟩) ++
  ([0x20, 0x21, 0x22, 0x42, 0x43].map fun op => ⟨op, 0xFFFF00FF, true, true, false⟩) ++
  ([0x30, 0x40, 0x41].map fun op => ⟨op, 0xFFF000FF, true, true, true⟩) ++
  ([0x50, 0x52, 0x55].map fun op => ⟨op, 0xFFFF0FFF, false, true, false⟩) ++
  ([0x51, 0x53, 0x54].map fun op => ⟨op, 0xFFFFF0FF, true, false, false⟩)

/-- Every field the row uses names a register below NPOLY (R57). -/
def ClassRow.regsExist (row : ClassRow) (npoly : Nat) (w : Word) : Prop :=
  (row.usesRd = true → (w.extractLsb' 8 4).toNat < npoly) ∧
    (row.usesRs1 = true → (w.extractLsb' 12 4).toNat < npoly) ∧
    (row.usesRs2 = true → (w.extractLsb' 16 4).toNat < npoly)

/-- The state after rejecting a word: STATUS alone changes (R172). -/
def State.rejected (s : State) (e : CmdError) : State := { s with done := true, error := some e }

/-- The state after a refused access: the host has BusError and nothing else changes (R174). -/
def State.refusedAccess (s : State) : State := { s with responses := s.responses ++ [.busError] }

/-- Nothing unwritten was read: no model fault is recorded and no free value drawn (R27). -/
def State.ReadsClean (s t : State) : Prop := t.unwrittenRead = s.unwrittenRead ∧ t.freeCount = s.freeCount

/-- What a scalar command's rule says: it completes in every state with SR the given value and nothing else changed
but the completion; its word; a non-zero bit above its opcode is rejected with 0x02; the rule's own values. -/
def ScalarRule (i : Instr) (op : Nat) (result : Word → Word → Word) (values : List (Word × Word × Word)) : Prop :=
  (∀ s : State, exec i s = .next { s with sr := result s.sa s.sb, pending := none, done := true }) ∧
    encode i = BitVec.ofNat 32 op ∧
    (∀ (npoly : Nat) (w : Word), (w.extractLsb' 0 8).toNat = op → w.extractLsb' 8 24 ≠ 0 →
      decode npoly w = .error .reservedField) ∧
    ∀ v ∈ values, result v.1 v.2.1 = v.2.2

/-- What a unary command's rule says: whenever both registers exist it completes, coefficient `i` of `P[rd]` is
`f a i` for the polynomial `a` it reads from `P[rs1]`, nothing else changes, and no model fault is recorded when
`P[rs1]` is fully written. `rd` may be `rs1`. -/
def UnaryRule (cmd : PolyIdx → PolyIdx → Instr) (f : Poly → Nat → Int) : Prop :=
  ∀ (s : State) (rd rs1 : PolyIdx), rd.val < s.build.npoly → rs1.val < s.build.npoly →
    ∃ (a : Poly) (t : State), s.Reads rs1 a ∧ exec (cmd rd rs1) s = .next t ∧ s.OnlyReg rd t ∧
      (∀ i : Nat, i < 256 → ∃ c : Coeff, t.elem rd i = .holds c ∧ c.toInt = f a i) ∧
      (s.AllWritten rs1 → s.ReadsClean t)

/-- The same for a binary command, with `a` read from `P[rs1]` and `b` from `P[rs2]`; any of the three registers may
be the same. -/
def BinaryRule (cmd : PolyIdx → PolyIdx → PolyIdx → Instr) (f : Poly → Poly → Nat → Int) : Prop :=
  ∀ (s : State) (rd rs1 rs2 : PolyIdx), rd.val < s.build.npoly → rs1.val < s.build.npoly →
    rs2.val < s.build.npoly →
    ∃ (a b : Poly) (t : State), s.Reads rs1 a ∧ s.Reads rs2 b ∧ exec (cmd rd rs1 rs2) s = .next t ∧
      s.OnlyReg rd t ∧
      (∀ i : Nat, i < 256 → ∃ c : Coeff, t.elem rd i = .holds c ∧ c.toInt = f a b i) ∧
      (s.AllWritten rs1 → s.AllWritten rs2 → s.ReadsClean t)

/-- The same for a store-to-buffer command: it writes `BUF[0..n-1]`, byte `j` being `f a j` (`n` and `f` may depend
on the build's DV), and every other byte and every register stays. -/
def StoreRule (cmd : PolyIdx → Instr) (n : Nat → Nat) (f : Nat → Poly → Nat → Nat) : Prop :=
  ∀ (s : State) (rs1 : PolyIdx), rs1.val < s.build.npoly →
    ∃ (a : Poly) (t : State), s.Reads rs1 a ∧ exec (cmd rs1) s = .next t ∧
      s.OnlyBuf (n s.build.dv.bits) t ∧
      (∀ j : Nat, j < n s.build.dv.bits →
        ∃ b : Byte, t.buf.read j = some b ∧ b.toNat = f s.build.dv.bits a j) ∧
      (s.AllWritten rs1 → s.ReadsClean t)

/-- The same for a load-from-buffer command: it reads `BUF[0..n-1]` and no other byte. -/
def LoadRule (cmd : PolyIdx → Instr) (n : Nat → Nat) (f : Nat → List Byte → Nat → Int) : Prop :=
  ∀ (s : State) (rd : PolyIdx), rd.val < s.build.npoly →
    ∃ (bs : List Byte) (t : State), s.ReadsBuf (n s.build.dv.bits) bs ∧ exec (cmd rd) s = .next t ∧
      s.OnlyReg rd t ∧
      (∀ i : Nat, i < 256 → ∃ c : Coeff, t.elem rd i = .holds c ∧ c.toInt = f s.build.dv.bits bs i) ∧
      (s.BufAllWritten (n s.build.dv.bits) → s.ReadsClean t)

/-- `a` is congruent to `b` modulo q. -/
def CongQ (a b : Int) : Prop := (3329 : Int) ∣ a - b

/-- Every coefficient of the polynomial has magnitude at most `B`. -/
def BoundedBy (B : Int) (r : Poly) : Prop := ∀ i : Nat, i < 256 → -B ≤ coeffAt r i ∧ coeffAt r i ≤ B

/-- Register `p` is fully written and holds the polynomial `a`. -/
def State.Holds (s : State) (p : PolyIdx) (a : Poly) : Prop :=
  ∀ (i : Nat) (h : i < 256), s.elem p i = .holds a[i]

/-- The distance modulo q, `min((x - u) mod q, (u - x) mod q)` (R150). -/
def circularDistance (x u : Int) : Int := min ((x - u) % 3329) ((u - x) % 3329)

/-- The source registers of a command (R54). -/
def sourceRegs : Instr → List PolyIdx
  | .ntt _ rs1 | .polyNtt _ rs1 | .invntt _ rs1 | .reduce _ rs1 | .frommont _ rs1 => [rs1]
  | .basemul _ rs1 rs2 | .add _ rs1 rs2 | .sub _ rs1 rs2 => [rs1, rs2]
  | .tobytes rs1 | .compress rs1 | .tomsg rs1 => [rs1]
  | _ => []

/-- How many bytes of BUF a command reads on a build of width `dv` (R13). -/
def sourceBytes (dv : Nat) : Instr → Nat
  | .frombytes _ => 384
  | .decompress _ => 32 * dv
  | .frommsg _ => 32
  | _ => 0

/-- The commands that use a register or BUF, all but the four scalar ones. -/
def isPolynomialCommand : Instr → Bool
  | .montred | .barrett | .fqmul | .frommontS => false
  | _ => true

/-- One forward layer without any wrap, on integers (R92, R99). -/
def exactNttLayer (len : Nat) (r : Nat → Int) (i : Nat) : Int :=
  if i % (2 * len) < len then r i + fqmul (zetas (128 / len + i / (2 * len))) (r (i + len))
  else r (i - len) - fqmul (zetas (128 / len + i / (2 * len))) (r i)

/-- The forward transform without any wrap (R92, R99). -/
def exactNtt (r : Nat → Int) : Nat → Int :=
  exactNttLayer 2 (exactNttLayer 4 (exactNttLayer 8 (exactNttLayer 16 (exactNttLayer 32
    (exactNttLayer 64 (exactNttLayer 128 r))))))

/-- One inverse layer without any wrap of its sums and differences (R95, R99). -/
def exactInvLayer (len : Nat) (r : Nat → Int) (i : Nat) : Int :=
  if i % (2 * len) < len then barrettReduce (r i + r (i + len))
  else fqmul (zetas (2 * (128 / len) - 1 - i / (2 * len))) (r i - r (i - len))

/-- The inverse transform without any wrap of its sums and differences, before the scaling (R95, R99). -/
def exactInv (r : Nat → Int) : Nat → Int :=
  exactInvLayer 128 (exactInvLayer 64 (exactInvLayer 32 (exactInvLayer 16 (exactInvLayer 8
    (exactInvLayer 4 (exactInvLayer 2 r))))))

/-- The root of slot `i`, `17^(2 brv7(i) + 1) mod q` (R97). -/
def gammaOf (i : Nat) : Nat := 17 ^ (2 * brv7 i + 1) % 3329

/-- POLY_NTT as a function: the transform, then the reduction (R94). -/
def polyNttFn (a : Poly) : Poly := reducePoly (nttFn a)

/-- The polynomial 1, x^0 (R98). -/
def polyOne : Poly := tabulate 256 fun i => if i = 0 then 1 else 0

/-- Coefficient `k` of the product modulo x^256 + 1 (R9, R112). -/
def negacyclicCoeff (a b : Poly) (k : Nat) : Int :=
  ∑ i ∈ Finset.range 256,
    if i ≤ k then coeffAt a i * coeffAt b (k - i) else -(coeffAt a i * coeffAt b (256 + k - i))

/-- The window of R31 without its reserved ranges and without CMD, on the offsets R40 gates. -/
def gatedOffset (off : Nat) : Prop :=
  off = 0x14 ∨ off = 0x18 ∨ off = 0x1C ∨ (0x1000 ≤ off ∧ off < 0x3000) ∨ (0x3000 ≤ off ∧ off < 0x3180)

end Sys2Proof.Machine

open Sys2Proof Sys2Proof.Machine

/-! ### Encoding -/

/-- Decoding the word of a well-formed command gives it back, with every register field at every value (R52, R57). -/
def Obligations.DecodeOfEncodeIsTheCommand : Prop :=
  ∀ (npoly : Nat) (i : Instr), i.wf npoly = true → decode npoly (encode i) = .ok i

/-- Each accepted word is the word of its command, so no two words mean the same and no bit is dropped
(R52, R55, R57). -/
def Obligations.EncodeOfDecodeIsTheWord : Prop :=
  ∀ (npoly : Nat) (w : Word) (i : Instr), decode npoly w = .ok i → encode i = w

/-- Words written out from R52 and R54 decode to the commands they stand for. -/
def Obligations.SpelledWordsDecode : Prop :=
  decode 8 0x00032430 = .ok (.basemul 4 2 3) ∧ decode 8 0x00000010 = .ok .montred ∧
    decode 8 0x00001321 = .ok (.polyNtt 3 1) ∧ decode 8 0x00023440 = .ok (.add 4 3 2) ∧
    decode 8 0x00003055 = .ok (.tomsg 3) ∧ decode 8 0x00000253 = .ok (.decompress 2) ∧
    decode 16 0x0000F043 = .ok (.frommont 0 15)

/-- R55: a word is accepted exactly when it matches a row under its mask and every register it uses exists. -/
def Obligations.AcceptedWordsMatchATableRow : Prop :=
  ∀ (npoly : Nat) (w : Word),
    (∃ i, decode npoly w = .ok i) ↔
      ∃ row ∈ classTable, w &&& row.mask = row.value ∧ row.regsExist npoly w

/-- R58: the 238 opcodes outside the table are rejected with ERRCODE 0x01, with no effect besides STATUS; no other word
is rejected so. -/
def Obligations.UnassignedOpcodesAreIllegal : Prop :=
  ((List.range 256).filter fun op => !(classTable.any fun row => row.value.toNat == op)).length = 238 ∧
    ∀ (s : State) (w : Word),
      ((∀ row ∈ classTable, row.value.toNat ≠ (w.extractLsb' 0 8).toNat) →
        decode s.build.npoly w = .error .illegalOpcode ∧ s.issue w = s.rejected .illegalOpcode ∧
          (s.issue w).statusWord.extractLsb' 8 8 = 0x01) ∧
      (decode s.build.npoly w = .error .illegalOpcode →
        ∀ row ∈ classTable, row.value.toNat ≠ (w.extractLsb' 0 8).toNat)

/-- R56 and R57: with an assigned opcode, a non-zero reserved bit or unused field is rejected with ERRCODE 0x02, else a
register index of NPOLY or more in a used field with ERRCODE 0x03, else the word is accepted; a rejected word never
executes. -/
def Obligations.FieldChecksFollowTheirOrder : Prop :=
  ∀ (s : State) (w : Word), ∀ row ∈ classTable, row.value.toNat = (w.extractLsb' 0 8).toNat →
    (w &&& row.mask ≠ row.value →
      decode s.build.npoly w = .error .reservedField ∧ s.issue w = s.rejected .reservedField ∧
        (s.issue w).statusWord.extractLsb' 8 8 = 0x02) ∧
    (w &&& row.mask = row.value → ¬row.regsExist s.build.npoly w →
      decode s.build.npoly w = .error .polyIndex ∧ s.issue w = s.rejected .polyIndex ∧
        (s.issue w).statusWord.extractLsb' 8 8 = 0x03) ∧
    (w &&& row.mask = row.value → row.regsExist s.build.npoly w →
      ∃ i, decode s.build.npoly w = .ok i ∧ s.issue w = { s with pending := some i, done := false, error := none })

/-! ### Issue, STATUS, interrupt -/

/-- R172: a CMD write while BUSY = 0 accepts or rejects; a completed command sets DONE, ends BUSY and leaves ERR,
ERRCODE and OVR; what STATUS reads then. -/
def Obligations.CmdWriteAcceptsOrRejects : Prop :=
  ∀ s : State,
    (∀ (w : Word) (i : Instr), s.busy = false → decode s.build.npoly w = .ok i →
      s.hostWrite 0x00C .bits32 w =
        { s with pending := some i, done := false, error := none, responses := s.responses ++ [.ok] }) ∧
    (∀ (w : Word) (e : CmdError), s.busy = false → decode s.build.npoly w = .error e →
      s.hostWrite 0x00C .bits32 w =
        { s with done := true, error := some e, responses := s.responses ++ [.ok] } ∧
      (s.hostWrite 0x00C .bits32 w).statusWord.extractLsb' 0 3 = 6 ∧
      ((s.hostWrite 0x00C .bits32 w).statusWord.extractLsb' 8 8).toNat = e.code) ∧
    (∀ (i : Instr) (t : State), exec i s = .next t →
      t.pending = none ∧ t.busy = false ∧ t.done = true ∧ t.error = s.error ∧ t.ovr = s.ovr ∧
      (s.error = none → t.statusWord.extractLsb' 0 3 = 2 ∧ t.statusWord.extractLsb' 8 8 = 0))

/-- R177: the acknowledgement clears DONE, ERR with ERRCODE, and OVR, each where the written bit is 1, at any time;
an accepted command clears DONE, ERR and ERRCODE but never OVR; a second rejection overwrites ERRCODE. -/
def Obligations.AcknowledgeClearsWrittenBits : Prop :=
  ∀ (s : State) (v : Word),
    s.hostWrite 0x008 .bits32 v =
      { s with
        done := if v.getLsbD 1 then false else s.done
        error := if v.getLsbD 2 then none else s.error
        ovr := if v.getLsbD 3 then false else s.ovr
        responses := s.responses ++ [.ok] } ∧
    (∀ i, decode s.build.npoly v = .ok i →
      (s.issue v).done = false ∧ (s.issue v).err = false ∧ (s.issue v).errcode = 0 ∧ (s.issue v).ovr = s.ovr) ∧
    (∀ e e', decode s.build.npoly v = .error e → s.error = some e' →
      (s.issue v).err = true ∧ (s.issue v).errcode = e.code)

/-- A read of STATUS returns BUSY, DONE, ERR, OVR and ERRCODE at their bits and 0 in the reserved ones, in every
state; BUSY is 1 exactly when PENDING holds a command, and ERRCODE is 0x00 when ERR is 0, else 0x01 for
ILLEGAL_OPCODE, 0x02 for RESERVED_FIELD and 0x03 for POLY_INDEX (R15, R24, R171). -/
def Obligations.StatusReadsItsFields : Prop :=
  ∀ s : State, ∃ w : Word,
    s.hostRead 0x008 .bits32 = { s with responses := s.responses ++ [.data w] } ∧
    w.getLsbD 0 = s.pending.isSome ∧ w.getLsbD 1 = s.done ∧ w.getLsbD 2 = s.error.isSome ∧
    w.getLsbD 3 = s.ovr ∧ w.extractLsb' 4 4 = 0 ∧ w.extractLsb' 16 16 = 0 ∧
    (s.error = none → w.extractLsb' 8 8 = 0x00) ∧
    (s.error = some .illegalOpcode → w.extractLsb' 8 8 = 0x01) ∧
    (s.error = some .reservedField → w.extractLsb' 8 8 = 0x02) ∧
    (s.error = some .polyIndex → w.extractLsb' 8 8 = 0x03)

/-- R16 and R175: IRQ_EN keeps the low two bits of a write and reads them back, is 0 after reset, and the interrupt
output is DONE under DONE_IE or ERR or OVR under ERR_IE. -/
def Obligations.IrqFollowsEnabledStatus : Prop :=
  (∀ b : Build, (State.resetOf b).irqEnWord = 0 ∧ (State.resetOf b).irq = false) ∧
  ∀ (s : State) (v : Word), ∃ t : State,
    s.hostWrite 0x010 .bits32 v = t ∧
    t = { s with doneIe := v.getLsbD 0, errIe := v.getLsbD 1, responses := s.responses ++ [.ok] } ∧
    t.hostRead 0x010 .bits32 = { t with responses := t.responses ++ [.data (v &&& 3)] } ∧
    (t.irq = true ↔
      (s.done = true ∧ v.getLsbD 0 = true) ∨ ((s.error ≠ none ∨ s.ovr = true) ∧ v.getLsbD 1 = true))

/-! ### The host window -/

/-- A host access to BASE + off is an access at offset off (R30). That an access to any other address gets no response
and changes nothing is the model's reading of R30, which says nothing of those addresses (DEDUCED,
notes/assumptions/12.md). -/
def Obligations.WindowStartsAtBase : Prop :=
  ∀ (s : State) (off : Offset) (width : Width) (v : Word),
    s.hostAccess (s.build.base + off.toNat) (.read width) = s.hostRead off width ∧
    s.hostAccess (s.build.base + off.toNat) (.write width v) = s.hostWrite off width v ∧
    ∀ (addr : Nat) (a : Access), addr < s.build.base ∨ s.build.base + 0x7FFF < addr → s.hostAccess addr a = s

/-- R32 and R33: an access of another width than 32 bits or at a misaligned offset is refused and changes nothing
(not even OVR, whatever the offset). -/
def Obligations.NarrowOrMisalignedIsRefused : Prop :=
  ∀ (s : State) (off : Offset) (width : Width) (v : Word), width ≠ .bits32 ∨ off.extractLsb' 0 2 ≠ 0 →
    s.hostRead off width = s.refusedAccess ∧ s.hostWrite off width v = s.refusedAccess

/-- R39: a reserved offset, or a slot p >= NPOLY of the polynomial window, is refused for reads and writes alike and
changes nothing. So is a write to ID, CONFIG, SR or the ROM window (R35, R38). -/
def Obligations.ReservedAndReadOnlyOffsetsAreRefused : Prop :=
  ∀ (s : State) (off : Offset) (width : Width) (v : Word),
    ((0x020 ≤ off.toNat ∧ off.toNat ≤ 0x0FFF) ∨ (0x3180 ≤ off.toNat ∧ off.toNat ≤ 0x3FFF) ∨
        0x4100 ≤ off.toNat ∨
        (0x1000 ≤ off.toNat ∧ off.toNat ≤ 0x2FFF ∧ s.build.npoly ≤ (off.toNat - 0x1000) / 0x200) →
      s.hostRead off width = s.refusedAccess ∧ s.hostWrite off width v = s.refusedAccess) ∧
    (off = 0x000 ∨ off = 0x004 ∨ off = 0x01C ∨ (0x4000 ≤ off.toNat ∧ off.toNat ≤ 0x40FF) →
      s.hostWrite off width v = s.refusedAccess)

/-- R40: while BUSY = 1 the gated accesses are refused and change nothing, a CMD write sets OVR and is discarded, and
every other access behaves as when BUSY = 0. -/
def Obligations.BusyGatesTheData : Prop :=
  ∀ s : State, s.busy = true →
    (∀ (off : Offset) (width : Width) (v : Word), gatedOffset off.toNat →
      s.hostRead off width = s.refusedAccess ∧ s.hostWrite off width v = s.refusedAccess) ∧
    (∀ v : Word, s.hostWrite 0x00C .bits32 v = { s.refusedAccess with ovr := true }) ∧
    (∀ (off : Offset) (width : Width), off = 0x000 ∨ off = 0x004 ∨ off = 0x00C ∨ off = 0x010 ∨
        (0x4000 ≤ off.toNat ∧ off.toNat ≤ 0x40FF) →
      s.hostRead off width =
        { State.hostRead { s with pending := none } off width with pending := s.pending }) ∧
    (∀ (off : Offset) (width : Width) (v : Word), off = 0x000 ∨ off = 0x004 ∨ off = 0x008 ∨ off = 0x010 →
      s.hostWrite off width v =
        { State.hostWrite { s with pending := none } off width v with pending := s.pending }) ∧
    s.hostRead 0x008 .bits32 = { s with responses := s.responses ++ [.data s.statusWord] }

/-- R36: the polynomial window. A write sets the two coefficients of the word and nothing else; a read of two written
coefficients returns them with the higher one in the upper half; a read of a word with an unwritten one is recorded
as a model fault (notes/assumptions/1.md); a slot p >= NPOLY is refused. -/
def Obligations.PolynomialWindow : Prop :=
  ∀ (s : State) (p : PolyIdx) (k : Fin 128) (v : Word), s.busy = false →
    let off : Offset := BitVec.ofNat 15 (0x1000 + 0x200 * p.val + 4 * k.val)
    (s.build.npoly ≤ p.val →
      s.hostRead off .bits32 = s.refusedAccess ∧ s.hostWrite off .bits32 v = s.refusedAccess) ∧
    (p.val < s.build.npoly →
      (∀ (q : PolyIdx) (i : Nat), (s.hostWrite off .bits32 v).elem q i =
        if q = p ∧ i = 2 * k.val then .holds (v.extractLsb' 0 16)
        else if q = p ∧ i = 2 * k.val + 1 then .holds (v.extractLsb' 16 16) else s.elem q i) ∧
      { s.hostWrite off .bits32 v with polys := s.polys } = { s with responses := s.responses ++ [.ok] } ∧
      (∀ lo hi : Coeff, s.elem p (2 * k.val) = .holds lo → s.elem p (2 * k.val + 1) = .holds hi →
        s.hostRead off .bits32 = { s with responses := s.responses ++ [.data (hi ++ lo)] }) ∧
      (s.elem p (2 * k.val) = .unwritten ∨ s.elem p (2 * k.val + 1) = .unwritten →
        (s.hostRead off .bits32).unwrittenRead = true))

/-- R37: the buffer window, four bytes a word, the lowest index in bits 7:0. -/
def Obligations.BufferWindow : Prop :=
  ∀ (s : State) (k : Fin 96) (v : Word), s.busy = false →
    let off : Offset := BitVec.ofNat 15 (0x3000 + 4 * k.val)
    let j := 4 * k.val
    (∀ m : Nat, (s.hostWrite off .bits32 v).buf.read m =
      if m = j then some (v.extractLsb' 0 8) else if m = j + 1 then some (v.extractLsb' 8 8)
      else if m = j + 2 then some (v.extractLsb' 16 8) else if m = j + 3 then some (v.extractLsb' 24 8)
      else s.buf.read m) ∧
    { s.hostWrite off .bits32 v with buf := s.buf } = { s with responses := s.responses ++ [.ok] } ∧
    (∀ b0 b1 b2 b3 : Byte, s.buf.read j = some b0 → s.buf.read (j + 1) = some b1 →
      s.buf.read (j + 2) = some b2 → s.buf.read (j + 3) = some b3 →
      s.hostRead off .bits32 = { s with responses := s.responses ++ [.data (b3 ++ b2 ++ b1 ++ b0)] }) ∧
    (s.buf.read j = none ∨ s.buf.read (j + 1) = none ∨ s.buf.read (j + 2) = none ∨ s.buf.read (j + 3) = none →
      (s.hostRead off .bits32).unwrittenRead = true)

/-- R38: the ROM window reads two twiddles a word, also while BUSY = 1, and refuses writes. -/
def Obligations.RomWindow : Prop :=
  ∀ (s : State) (k : Fin 64) (v : Word),
    let off : Offset := BitVec.ofNat 15 (0x4000 + 4 * k.val)
    (∃ lo hi : Coeff, lo.toInt = zetas (2 * k.val) ∧ hi.toInt = zetas (2 * k.val + 1) ∧
      s.hostRead off .bits32 = { s with responses := s.responses ++ [.data (hi ++ lo)] }) ∧
    s.hostWrite off .bits32 v = s.refusedAccess

/-- R18 and R19: ID is constant and CONFIG reads NPOLY, DV and 0, in every state; so does a read of CMD return 0 and
change nothing (R17, R35). While BUSY = 0 the host reads SR, and SA and SB hold all 32 bits it writes and read them
back (R14, R35). -/
def Obligations.RegisterWindow : Prop :=
  ∀ s : State,
    (∃ w : Word,
      s.hostRead 0x000 .bits32 = { s with responses := s.responses ++ [.data 0x4B504531] } ∧
      s.hostRead 0x004 .bits32 = { s with responses := s.responses ++ [.data w] } ∧
      (w.extractLsb' 0 8).toNat = s.build.npoly ∧ 1 ≤ s.build.npoly ∧ s.build.npoly ≤ 16 ∧
      (w.extractLsb' 8 8).toNat = s.build.dv.bits ∧ (s.build.dv.bits = 4 ∨ s.build.dv.bits = 5) ∧
      w.extractLsb' 16 16 = 0) ∧
    s.hostRead 0x00C .bits32 = { s with responses := s.responses ++ [.data 0] } ∧
    (s.busy = false → ∀ v : Word,
      s.hostWrite 0x014 .bits32 v = { s with sa := v, responses := s.responses ++ [.ok] } ∧
      s.hostWrite 0x018 .bits32 v = { s with sb := v, responses := s.responses ++ [.ok] } ∧
      s.hostRead 0x014 .bits32 = { s with responses := s.responses ++ [.data s.sa] } ∧
      s.hostRead 0x018 .bits32 = { s with responses := s.responses ++ [.data s.sb] } ∧
      s.hostRead 0x01C .bits32 = { s with responses := s.responses ++ [.data s.sr] })

/-- Every read leaves all of the engine's state as it was, and when it draws no free value a second read at once
returns the same (R35, R41). -/
def Obligations.ReadsHaveNoSideEffect : Prop :=
  ∀ (s : State) (off : Offset) (width : Width), ∃ r : Response,
    { s.hostRead off width with freeCount := s.freeCount, unwrittenRead := s.unwrittenRead } =
      { s with responses := s.responses ++ [r] } ∧
    ((s.hostRead off width).freeCount = s.freeCount →
      ((s.hostRead off width).hostRead off width).responses = s.responses ++ [r, r])

/-! ### The reduction primitives and the scalar commands -/

/-- R78: MONTRED. -/
def Obligations.MontredRule : Prop :=
  ScalarRule .montred 0x10 (fun sa _ => u32 (montgomeryReduce sa.toInt))
    [(0, 0, 0), (0x80000000, 0, 0xFFFF8000), (0x7FFFFFF6, 0, 0xFFFF8667), (0x00010000, 0, 1),
      (0xFFAD3E55, 0, 0x000000A0)] ∧
    CongQ (160 * 2285 + 5423531) 0

/-- R79: BARRETT. -/
def Obligations.BarrettRule : Prop :=
  ScalarRule .barrett 0x11 (fun sa _ => u32 (barrettReduce (sa.extractLsb' 0 16).toInt))
    [(0x8000, 0, 522), (0x7FFF, 0, 0xFFFFFDF5), (1665, 0, 0xFFFFF980), (3329, 0, 0), (0x12340D01, 0, 0),
      (0x0D02, 0, 1)]

/-- R80: FQMUL. -/
def Obligations.FqmulRule : Prop :=
  ScalarRule .fqmul 0x12
    (fun sa sb => u32 (fqmul (sa.extractLsb' 0 16).toInt (sb.extractLsb' 0 16).toInt))
    [(0, 12345, 0), (12345, 0, 0), (0x8000, 0x8000, 16384), (0x7FFF, 0x7FFF, 16552), (3328, 32767, 1833),
      (2285, 2285, 0xFFFFFBEC)] ∧
    ∀ x : Int, fqmul 0 x = 0 ∧ fqmul x 0 = 0

/-- R81: FROMMONT_S. -/
def Obligations.FrommontSRule : Prop :=
  ScalarRule .frommontS 0x13 (fun sa _ => u32 (frommontFn sa.toInt))
    [(0, 0, 0), (80624, 0, 2309), (0x7FFFFFFF, 0, 0xFFFF8414), (1, 0, 0xFFFFFBEC)]

/-- R72: the properties of `montgomery_reduce`, in the safe range, in the range where no wrap takes effect (the 32-bit
difference is exact, and so is its upper half), and outside it. -/
def Obligations.MontgomeryReduceProperties : Prop :=
  (∀ a : Int, -109084672 < a → a < 109084672 →
    -3328 ≤ montgomeryReduce a ∧ montgomeryReduce a ≤ 3328 ∧ CongQ (montgomeryReduce a * 65536) a ∧
      CongQ (montgomeryReduce a) (a * 169)) ∧
  (∀ a : Int, -2038402305 ≤ a → a ≤ 2038398975 →
    s32 (a - s16 (a * 62209) * 3329) = a - s16 (a * 62209) * 3329 ∧
      montgomeryReduce a * 65536 = a - s16 (a * 62209) * 3329 ∧ CongQ (montgomeryReduce a * 65536) a) ∧
  montgomeryReduce (2 ^ 30) = 16384 ∧
  montgomeryReduce 2038398976 = -32768 ∧ montgomeryReduce 2147483638 = -31129 ∧
  ¬CongQ (-31129) (2147483638 * 169) ∧
  montgomeryReduce 0 = 0 ∧ montgomeryReduce (2 ^ 16) = 1 ∧ montgomeryReduce 1 = 169

/-- R74: `barrett_reduce` of every 16-bit value is its centered representative. -/
def Obligations.BarrettReduceIsCentered : Prop :=
  (∀ a : Int, -32768 ≤ a → a ≤ 32767 →
    barrettReduce a = centered a ∧ -1664 ≤ barrettReduce a ∧ barrettReduce a ≤ 1664 ∧
      CongQ (barrettReduce a) a) ∧
  barrettReduce 1664 = 1664 ∧ barrettReduce 1665 = -1664 ∧ barrettReduce (-1665) = 1664 ∧
  barrettReduce 32767 = -523 ∧ barrettReduce (-32768) = 522

/-- R75: `fqmul` of every pair of 16-bit values is congruent to a b R^-1 and fits 16 bits; it is in [-3328, 3328]
when |a b| < 2^15 q, so whenever one operand has magnitude at most 3328. -/
def Obligations.FqmulProperties : Prop :=
  ∀ a b : Int, -32768 ≤ a → a ≤ 32767 → -32768 ≤ b → b ≤ 32767 →
    CongQ (fqmul a b) (a * b * 169) ∧ -32768 ≤ fqmul a b ∧ fqmul a b ≤ 32767 ∧
    (-109084672 < a * b → a * b < 109084672 → -3328 ≤ fqmul a b ∧ fqmul a b ≤ 3328) ∧
    (-3328 ≤ a → a ≤ 3328 → -109084672 < a * b ∧ a * b < 109084672)

/-- R77: `frommont` in its safe range, and the values outside it. -/
def Obligations.FrommontProperties : Prop :=
  (∀ r : Int, -80624 ≤ r → r ≤ 80624 →
    -3328 ≤ frommontFn r ∧ frommontFn r ≤ 3328 ∧ CongQ (frommontFn r) (r * 2285)) ∧
  frommontFn 1 = -1044 ∧ frommontFn 2285 = 1353 ∧ frommontFn 0 = 0 ∧
  frommontFn (2 ^ 31 - 1) = -31724 ∧ CongQ ((2 ^ 31 - 1) * 2285) 526

/-! ### The transform -/

/-- The ROM is the table of the formula of R90, 128 entries, each in [-1664, 1664] (R90, R91). -/
def Obligations.TwiddleTableIsTheFormula : Prop :=
  zetaTable.length = 128 ∧
    ∀ i : Fin 128, zetas i.val = zetaFormula i.val ∧ -1664 ≤ zetas i.val ∧ zetas i.val ≤ 1664

/-- The layers of `nttFn` compute what the loop of R92 computes: what the pointwise form of the model rests on
(DEDUCED, notes/assumptions/5.md). -/
def Obligations.NttIsTheLoopOfTheSpec : Prop := ∀ r : Poly, nttFn r = nttLoop r

/-- The layers of `invnttFn` compute what the loop of R95 computes: what the pointwise form of the model rests on
(DEDUCED, notes/assumptions/5.md). -/
def Obligations.InvnttIsTheLoopOfTheSpec : Prop := ∀ r : Poly, invnttFn r = invnttLoop r

/-- NTT, POLY_NTT and INVNTT complete with the transform of what they read, and with its frame; every output of
POLY_NTT is in [-1664, 1664] and every output of INVNTT in [-3328, 3328], for every input, wrapped or not
(R93, R94, R96). -/
def Obligations.TransformCommands : Prop :=
  UnaryRule .ntt (fun a i => coeffAt (nttFn a) i) ∧
    UnaryRule .polyNtt (fun a i => barrettReduce (coeffAt (nttFn a) i)) ∧
    UnaryRule .invntt (fun a i => coeffAt (invnttFn a) i) ∧
    ∀ a : Poly, BoundedBy 1664 (polyNttFn a) ∧ BoundedBy 3328 (invnttFn a)

/-- R99: no wrap takes effect in NTT for inputs of magnitude at most B <= 9471, and every output then has magnitude
at most B + 23296; none takes effect in INVNTT for inputs of magnitude at most 16383. -/
def Obligations.TransformsDoNotWrapInBounds : Prop :=
  (∀ (B : Int) (a : Poly), B ≤ 9471 → BoundedBy B a →
    BoundedBy (B + 23296) (nttFn a) ∧
      ∀ i : Nat, i < 256 → coeffAt (nttFn a) i = exactNtt (coeffAt a) i) ∧
  (∀ a : Poly, BoundedBy 16383 a →
    ∀ i : Nat, i < 256 → coeffAt (invnttFn a) i = fqmul (exactInv (coeffAt a) i) 1441)

/-- R97: for inputs of magnitude at most 9471 the output pair i of NTT is the residue of the input polynomial modulo
x^2 - gamma_i over Z_q. -/
def Obligations.NttPairsAreResidues : Prop :=
  (List.range 8).map gammaOf = [17, 3312, 2761, 568, 583, 2746, 2649, 680] ∧
  ∀ a : Poly, BoundedBy 9471 a → ∀ i : Nat, i < 128 →
    (Polynomial.X ^ 2 - Polynomial.C ((gammaOf i : ℕ) : ZMod 3329)) ∣
      (∑ j ∈ Finset.range 256, Polynomial.C ((coeffAt a j : ℤ) : ZMod 3329) * Polynomial.X ^ j) -
        (Polynomial.C ((coeffAt (nttFn a) (2 * i) : ℤ) : ZMod 3329) +
          Polynomial.C ((coeffAt (nttFn a) (2 * i + 1) : ℤ) : ZMod 3329) * Polynomial.X)

/-- R98: the round trips. -/
def Obligations.TransformRoundTrips : Prop :=
  ∀ a : Poly, BoundedBy 9471 a → ∀ i : Nat, i < 256 →
    CongQ (coeffAt (invnttFn (polyNttFn a)) i) (2285 * coeffAt a i) ∧
    (BoundedBy 16383 (nttFn a) → CongQ (coeffAt (invnttFn (nttFn a)) i) (2285 * coeffAt a i)) ∧
    CongQ (coeffAt (frommontPoly (invnttFn (polyNttFn a))) i) (1353 * coeffAt a i) ∧
    CongQ (coeffAt (invnttFn (basemulFn (polyNttFn a) (polyNttFn polyOne))) i) (coeffAt a i)

/-! ### Base multiplication and ring operations -/

/-- BASEMUL completes with block i of four coefficients as R111 writes it, and with its frame. -/
def Obligations.BasemulCommand : Prop :=
  ∀ (s : State) (rd rs1 rs2 : PolyIdx), rd.val < s.build.npoly → rs1.val < s.build.npoly →
    rs2.val < s.build.npoly →
    ∃ (a b r : Poly) (t : State), s.Reads rs1 a ∧ s.Reads rs2 b ∧
      exec (.basemul rd rs1 rs2) s = .next t ∧ s.OnlyReg rd t ∧ t.Holds rd r ∧
      (s.AllWritten rs1 → s.AllWritten rs2 → s.ReadsClean t) ∧
      ∀ i : Nat, i < 64 →
        (coeffAt r (4 * i), coeffAt r (4 * i + 1)) =
          basemulPair (coeffAt a (4 * i)) (coeffAt a (4 * i + 1)) (coeffAt b (4 * i)) (coeffAt b (4 * i + 1))
            (zetas (64 + i)) ∧
        (coeffAt r (4 * i + 2), coeffAt r (4 * i + 3)) =
          basemulPair (coeffAt a (4 * i + 2)) (coeffAt a (4 * i + 3)) (coeffAt b (4 * i + 2))
            (coeffAt b (4 * i + 3)) (-zetas (64 + i))

/-- When one operand of BASEMUL has magnitude at most 3328, every output has magnitude at most 6656 and each output
pair is R^-1 times the product of the operands' pairs modulo x^2 - gamma (R112, R113). -/
def Obligations.BasemulPairsAreProducts : Prop :=
  ∀ a b : Poly, BoundedBy 3328 a ∨ BoundedBy 3328 b →
    BoundedBy 6656 (basemulFn a b) ∧
    ∀ i : Nat, i < 128 →
      CongQ (coeffAt (basemulFn a b) (2 * i))
        (169 * (coeffAt a (2 * i) * coeffAt b (2 * i) +
          gammaOf i * coeffAt a (2 * i + 1) * coeffAt b (2 * i + 1))) ∧
      CongQ (coeffAt (basemulFn a b) (2 * i + 1))
        (169 * (coeffAt a (2 * i) * coeffAt b (2 * i + 1) + coeffAt a (2 * i + 1) * coeffAt b (2 * i)))

/-- The engine multiplies polynomials: INVNTT of BASEMUL of the two POLY_NTT is the product modulo x^256 + 1 and q,
for coefficients of magnitude at most 9471 (R112). -/
def Obligations.TransformProductIsNegacyclic : Prop :=
  ∀ a b : Poly, BoundedBy 9471 a → BoundedBy 9471 b → ∀ k : Nat, k < 256 →
    CongQ (coeffAt (invnttFn (basemulFn (polyNttFn a) (polyNttFn b))) k) (negacyclicCoeff a b k)

/-- ADD and SUB complete with the wrapped sum and the wrapped difference rs1 - rs2 of what they read, and with their
frame (R120, R121). -/
def Obligations.AddAndSubCommands : Prop :=
  BinaryRule .add (fun a b i => s16 (coeffAt a i + coeffAt b i)) ∧
    BinaryRule .sub (fun a b i => s16 (coeffAt a i - coeffAt b i))

/-- A sum of polynomials in any order of ADD and SUB does not wrap while the sum of their largest magnitudes is at most
32767: each term is added or, where its sign is `false`, subtracted. Ten polynomials of magnitude 3328 can wrap
(R124). -/
def Obligations.AccumulationDoesNotWrap : Prop :=
  (∀ (terms : List (Bool × Int × Poly)) (start : Poly) (B : Int), BoundedBy B start →
    (∀ t ∈ terms, BoundedBy t.2.1 t.2.2) → B + (terms.map fun t => t.2.1).sum ≤ 32767 →
    ∀ i : Nat, i < 256 →
      coeffAt (terms.foldl (fun r t => if t.1 = true then addFn r t.2.2 else subFn r t.2.2) start) i =
        coeffAt start i + (terms.map fun t => if t.1 = true then coeffAt t.2.2 i else -coeffAt t.2.2 i).sum) ∧
  ∃ a : Poly, BoundedBy 3328 a ∧
    coeffAt ((List.replicate 9 a).foldl addFn a) 0 ≠ 10 * coeffAt a 0

/-- REDUCE completes with the centered representative of every coefficient it reads, and FROMMONT with `frommont` of
it, which is congruent to 2285 times it and in [-3328, 3328] (R122, R123). -/
def Obligations.ReduceAndFrommontCommands : Prop :=
  UnaryRule .reduce (fun a i => centered (coeffAt a i)) ∧
    UnaryRule .frommont (fun a i => frommontFn (coeffAt a i)) ∧
    ∀ (a : Poly) (i : Nat), CongQ (frommontFn (coeffAt a i)) (2285 * coeffAt a i) ∧
      -3328 ≤ frommontFn (coeffAt a i) ∧ frommontFn (coeffAt a i) ≤ 3328

/-! ### The codec -/

/-- R140: `normalize` of every 16-bit coefficient is the 16-bit pattern of `a + ((a >> 15) & q)`; it is in [0, q)
exactly when a is in [-q, q), a itself for a >= 0, and the values the rule names. -/
def Obligations.NormalizeRule : Prop :=
  (∀ a : Coeff, normalizeCoeff a.toInt = (a + (a.sshiftRight 15 &&& 3329)).toNat ∧
    (normalizeCoeff a.toInt < 3329 ↔ -3329 ≤ a.toInt ∧ a.toInt < 3329) ∧
    (0 ≤ a.toInt → (normalizeCoeff a.toInt : Int) = a.toInt) ∧
    (a.toInt < -3329 → (normalizeCoeff a.toInt : Int) = a.toInt + 3329 + 65536)) ∧
  normalizeCoeff (-1) = 3328 ∧ normalizeCoeff (-3329) = 0 ∧ normalizeCoeff 3329 = 3329 ∧
  normalizeCoeff (-3330) = 65535 ∧ normalizeCoeff (-32768) = 36097

/-- R144 and R145: the compressed value of a normalized coefficient of [0, q) on every interval the rule gives, of any
16-bit coefficient by the formula, and the values it expands to. -/
def Obligations.CompressionRules : Prop :=
  (∀ a : Int, -32768 ≤ a → a ≤ 32767 →
    compressCoeff a 4 = ((normalizeCoeff a * 16 + 1664) / 3329) % 16 ∧
    compressCoeff a 5 = ((normalizeCoeff a * 32 + 1664) / 3329) % 32) ∧
  (∀ u : Nat, u < 3329 →
    compressCoeff u 4 = (if u ≤ 104 ∨ 3225 ≤ u then 0 else (u - 105) / 208 + 1) ∧
    compressCoeff u 5 = (if u ≤ 52 ∨ 3277 ≤ u then 0 else (u - 53) / 104 + 1)) ∧
  (∀ d t : Nat, decompressCoeff t d = (t * 3329 + 2 ^ (d - 1)) / 2 ^ d) ∧
  ((List.range 16).map fun t => decompressCoeff t 4) =
    [0, 208, 416, 624, 832, 1040, 1248, 1456, 1665, 1873, 2081, 2289, 2497, 2705, 2913, 3121] ∧
  ((List.range 32).map fun t => decompressCoeff t 5) =
    [0, 104, 208, 312, 416, 520, 624, 728, 832, 936, 1040, 1144, 1248, 1352, 1456, 1560] ++
      [1665, 1769, 1873, 1977, 2081, 2185, 2289, 2393, 2497, 2601, 2705, 2809, 2913, 3017, 3121, 3225]

/-- TOBYTES completes with three bytes for each pair of normalized coefficients as R141 writes them, and FROMBYTES
with the 12-bit fields of BUF as R142 writes them. -/
def Obligations.TobytesAndFrombytesCommands : Prop :=
  StoreRule .tobytes (fun _ => 384) (fun _ a j =>
    let t0 := normalizeCoeff (coeffAt a (2 * (j / 3)))
    let t1 := normalizeCoeff (coeffAt a (2 * (j / 3) + 1))
    if j % 3 = 0 then t0 &&& 0xFF
    else if j % 3 = 1 then ((t0 >>> 8) ||| (t1 <<< 4)) &&& 0xFF
    else (t1 >>> 4) &&& 0xFF) ∧
  LoadRule .frombytes (fun _ => 384) (fun _ bs n =>
    if n % 2 = 0 then ((byteAt bs (3 * (n / 2)) ||| (byteAt bs (3 * (n / 2) + 1) <<< 8)) &&& 0xFFF : Nat)
    else (((byteAt bs (3 * (n / 2) + 1) >>> 4) ||| (byteAt bs (3 * (n / 2) + 2) <<< 4)) &&& 0xFFF : Nat))

/-- COMPRESS completes with the compressed values as one bit stream: stream bit m of BUF is bit m mod DV of value
m / DV, and BUF from 32 DV on stays (R146, R147). -/
def Obligations.CompressCommand : Prop :=
  ∀ (s : State) (rs1 : PolyIdx), rs1.val < s.build.npoly →
    ∃ (a : Poly) (t : State), s.Reads rs1 a ∧ exec (.compress rs1) s = .next t ∧
      s.OnlyBuf (32 * s.build.dv.bits) t ∧ (s.AllWritten rs1 → s.ReadsClean t) ∧
      ∀ m : Nat, m < 256 * s.build.dv.bits →
        ∃ b : Byte, t.buf.read (m / 8) = some b ∧
          b.getLsbD (m % 8) =
            (compressCoeff (coeffAt a (m / s.build.dv.bits)) s.build.dv.bits).testBit (m % s.build.dv.bits)

/-- DECOMPRESS completes with coefficient j expanded from the DV bits of the stream that start at bit DV j
(R146, R148). -/
def Obligations.DecompressCommand : Prop :=
  ∀ (s : State) (rd : PolyIdx), rd.val < s.build.npoly →
    ∃ (bs : List Byte) (t : State), s.ReadsBuf (32 * s.build.dv.bits) bs ∧
      exec (.decompress rd) s = .next t ∧ s.OnlyReg rd t ∧
      (s.BufAllWritten (32 * s.build.dv.bits) → s.ReadsClean t) ∧
      ∀ j : Nat, j < 256 → ∃ (c : Coeff) (v : Nat), t.elem rd j = .holds c ∧
        v < 2 ^ s.build.dv.bits ∧ c.toInt = ((v * 3329 + 2 ^ (s.build.dv.bits - 1)) / 2 ^ s.build.dv.bits : Nat) ∧
        ∀ b : Nat, b < s.build.dv.bits →
          v.testBit b =
            (bs.getD ((s.build.dv.bits * j + b) / 8) 0).getLsbD ((s.build.dv.bits * j + b) % 8)

/-- FROMMSG completes with 1665 for each message bit that is 1 and 0 for each that is 0, bit j of byte i being
coefficient 8 i + j; TOMSG completes with that bit the message bit of the coefficient, which for a coefficient that
normalizes into [0, q) is 1 exactly from 833 to 2496 (R151, R152). -/
def Obligations.FrommsgAndTomsgCommands : Prop :=
  LoadRule .frommsg (fun _ => 32)
    (fun _ bs n => if (bs.getD (n / 8) 0).getLsbD (n % 8) then 1665 else 0) ∧
  (∀ (s : State) (rs1 : PolyIdx), rs1.val < s.build.npoly →
    ∃ (a : Poly) (t : State), s.Reads rs1 a ∧ exec (.tomsg rs1) s = .next t ∧ s.OnlyBuf 32 t ∧
      (s.AllWritten rs1 → s.ReadsClean t) ∧
      ∀ i j : Nat, i < 32 → j < 8 →
        ∃ b : Byte, t.buf.read i = some b ∧
          (b.getLsbD j).toNat = ((normalizeCoeff (coeffAt a (8 * i + j)) * 2 + 1664) / 3329) % 2) ∧
  ∀ c : Int, -3329 ≤ c → c < 3329 → (msgBit c = 1 ↔ 833 ≤ normalizeCoeff c ∧ normalizeCoeff c ≤ 2496)

/-- R143: TOBYTES then FROMBYTES returns the register exactly for coefficients in [0, 4095], and adds q to one in
[-q, 0). -/
def Obligations.BytesRoundTrip : Prop :=
  ∀ (s : State) (p r : PolyIdx) (a : Poly), p.val < s.build.npoly → r.val < s.build.npoly → s.Holds p a →
    (∀ i : Nat, i < 256 → -3329 ≤ coeffAt a i ∧ coeffAt a i ≤ 4095) →
    ∃ t u : State, exec (.tobytes p) s = .next t ∧ exec (.frombytes r) t = .next u ∧
      ∀ i : Nat, i < 256 → ∃ c : Coeff, u.elem r i = .holds c ∧
        c.toInt = if coeffAt a i < 0 then coeffAt a i + 3329 else coeffAt a i

/-- COMPRESS then DECOMPRESS moves no coefficient of [0, q) by more than 104 (DV = 4) or 52 (DV = 5) modulo q
(R147, R148, R150). -/
def Obligations.CompressionErrorIsBounded : Prop :=
  ∀ (s : State) (p r : PolyIdx) (a : Poly), p.val < s.build.npoly → r.val < s.build.npoly → s.Holds p a →
    (∀ i : Nat, i < 256 → 0 ≤ coeffAt a i ∧ coeffAt a i < 3329) →
    ∃ t u : State, exec (.compress p) s = .next t ∧ exec (.decompress r) t = .next u ∧
      ∀ i : Nat, i < 256 → ∃ c : Coeff, u.elem r i = .holds c ∧
        circularDistance c.toInt (coeffAt a i) ≤ if s.build.dv = .four then 104 else 52

/-- R153: FROMMSG then TOMSG returns the 32 message bytes, also after a change of every coefficient by an amount in
[-832, 831]. -/
def Obligations.MessageRoundTrip : Prop :=
  ∀ (s : State) (p : PolyIdx), p.val < s.build.npoly → s.BufAllWritten 32 →
    ∃ t : State, exec (.frommsg p) s = .next t ∧
      (∃ u : State, exec (.tomsg p) t = .next u ∧ ∀ j : Nat, j < 32 → u.buf.read j = s.buf.read j) ∧
      ∀ (noisy : Poly) (v : State),
        (∀ (i : Nat) (h : i < 256), ∃ (c : Coeff) (e : Int), t.elem p i = .holds c ∧ -832 ≤ e ∧ e ≤ 831 ∧
          (noisy[i]).toInt = c.toInt + e) →
        v.Holds p noisy → v.build = s.build →
        ∃ u : State, exec (.tomsg p) v = .next u ∧ ∀ j : Nat, j < 32 → u.buf.read j = s.buf.read j

/-! ### Commands as a whole -/

/-- A command that names a register the engine does not have stops with absentRegister (R10). The stop is the
model's: R57 rejects such a word, so none is ever pending (notes/assumptions/6.md). -/
def Obligations.AbsentRegisterStops : Prop :=
  ∀ (s : State) (i : Instr), i.wf s.build.npoly = false → exec i s = .fault .absentRegister

/-- A completed command has recorded a model fault exactly when one was recorded before or it read an unwritten
element (R27, R170). No step clears the record, neither a host access nor a reset, so a run that recorded a model
fault is never final (R199). That the run goes on with free values and the record outlives a reset is the model's
choice (notes/assumptions/1.md). -/
def Obligations.UnwrittenSourceIsRecorded : Prop :=
  (∀ (s t : State) (i : Instr), exec i s = .next t →
    (t.unwrittenRead = true ↔
      s.unwrittenRead = true ∨ (∃ p ∈ sourceRegs i, ¬s.AllWritten p) ∨
        ¬s.BufAllWritten (sourceBytes s.build.dv.bits i))) ∧
  (∀ s t : State, step s = .next t → s.unwrittenRead = true → t.unwrittenRead = true) ∧
  ∀ (k : Nat) (s t : State), core.run k s = .next t → ¬s.valid → ¬t.final

/-- R14: no polynomial command reads or writes SA, SB or SR; BARRETT and FQMUL read low halves only; the scalar
commands write SR only. -/
def Obligations.ScalarRegistersAreSeparate : Prop :=
  (∀ (s t : State) (i : Instr) (sa sb sr : Word), isPolynomialCommand i = true → exec i s = .next t →
    exec i { s with sa := sa, sb := sb, sr := sr } = .next { t with sa := sa, sb := sb, sr := sr }) ∧
  (∀ (s : State) (x y : Word), x.extractLsb' 0 16 = s.sa.extractLsb' 0 16 →
    y.extractLsb' 0 16 = s.sb.extractLsb' 0 16 →
    (∃ t, exec .barrett s = .next t ∧ exec .barrett { s with sa := x, sb := y } = .next { t with sa := x, sb := y }) ∧
    (∃ t, exec .fqmul s = .next t ∧ exec .fqmul { s with sa := x, sb := y } = .next { t with sa := x, sb := y })) ∧
  (∀ (s : State) (y : Word),
    (∃ t, exec .montred s = .next t ∧ exec .montred { s with sb := y } = .next { t with sb := y }) ∧
    (∃ t, exec .frommontS s = .next t ∧ exec .frommontS { s with sb := y } = .next { t with sb := y })) ∧
  ∀ (s t : State) (i : Instr), isPolynomialCommand i = false → exec i s = .next t → s.OnlySr t

/-! ### The machine -/

/-- A step runs the decoded command: with a command pending, the engine's turn is exec of it, and so is the step
after the last event; with none pending an engine's turn uses up the event and changes nothing else, and a step with
no event left leaves the state as it is (R185, R192); a word placed as the next command runs as it decodes
(R12, R17, R24). The list of events is the model's (notes/assumptions/2.md, 14.md). -/
def Obligations.StepRunsThePendingCommand : Prop :=
  (∀ (s : State) (i : Instr), s.pending = some i → s.inputs = [] → step s = exec i s) ∧
  (∀ (s : State) (i : Instr) (rest : List Input), s.pending = some i → s.inputs = .engine :: rest →
    step s = exec i { s with inputs := rest }) ∧
  (∀ (s : State) (rest : List Input), s.pending = none → s.inputs = .engine :: rest →
    step s = .next { s with inputs := rest }) ∧
  (∀ s : State, s.pending = none → s.inputs = [] → step s = .next s) ∧
  ∀ (s : State) (w : Nat) (i : Instr), w < 2 ^ 32 → decode s.build.npoly (BitVec.ofNat 32 w) = .ok i →
    step (s.withFetchWord 32 w) = exec i { s with pending := some i, done := false, error := none }

/-- A host access is one step, and a command issued and given its turn runs in two (R12, R42). -/
def Obligations.HostAccessIsOneStep : Prop :=
  (∀ (s : State) (addr : Nat) (a : Access) (rest : List Input), s.inputs = .host addr a :: rest →
    step s = .next (State.hostAccess { s with inputs := rest } addr a)) ∧
  ∀ (s : State) (w : Word) (i : Instr) (rest : List Input), s.busy = false →
    decode s.build.npoly w = .ok i →
    s.inputs = .host (s.build.base + 0x00C) (.write .bits32 w) :: .engine :: rest →
    core.run 2 s = exec i { s with pending := some i, done := false, error := none, inputs := rest,
                                   responses := s.responses ++ [.ok] }

/-- Every step keeps the invariant: the pending command is well formed, BUF is canonical and within its 384 bytes, and
the registers from NPOLY on hold nothing; and no step changes NPOLY, DV or BASE (R10, R13, R19, R57). -/
def Obligations.StepKeepsTheInvariant : Prop :=
  ∀ s t : State, s.Inv → step s = .next t → t.Inv ∧ t.build = s.build

/-- The invariant holds after reset, on every build (R26). -/
def Obligations.ResetMeetsTheInvariant : Prop := ∀ b : Build, (State.resetOf b).Inv

/-- From every state of the invariant a step answers a next state, every run ends, and none ends with a command pending.
It ends at the latest one step after the listed events, where the engine is idle for good. A command accepted on the way
need not have been executed: a reset listed before the engine's turn abandons it (R191). In every state in which the run
is over it is final unless a model fault is recorded, its observation reads BUSY = 0 and begins with the responses
received before, it stays over, no response is added, and only a reset still to come can change what is observed
(R12, R170, R185, R196, R199). The list of events and the step that completes a pending command when no event is left are
the model's (notes/assumptions/2.md, 14.md). -/
def Obligations.NoRunStopsOrEndsWithACommandPending : Prop :=
  ∀ s : State, s.Inv →
    (∃ t : State, step s = .next t) ∧
    (∃ t : State, core.run (s.inputs.length + 1) s = .next t ∧ t.inputs = [] ∧ t.runOver ∧
      ∀ m : Nat, core.run m t = .next t) ∧
    (∃ (k : Nat) (t : State), k ≤ s.inputs.length + 1 ∧ s.EndsRun k t) ∧
    ∀ (k : Nat) (t : State), core.run k s = .next t → t.runOver →
      t.pending = none ∧ (t.final ↔ t.unwrittenRead = false) ∧ t.observation.status.getLsbD 0 = false ∧
      s.responses <+: t.observation.responses ∧
      ∀ m : Nat, ∃ u : State, core.run m t = .next u ∧ u.runOver ∧
        u.observation.responses = t.observation.responses ∧
        (Input.reset ∉ t.inputs → u.observation = t.observation)

/-- While a command is pending no host access changes or shows P, BUF, SA, SB, SR or PENDING: the only words it gets
do not depend on them (R40, R42). -/
def Obligations.PendingCommandIsAtomic : Prop :=
  ∀ (s : State) (addr : Nat) (a : Access) (polys : Vector PolyReg 16) (buf : Memory) (sa sb sr : Word),
    s.busy = true →
    (s.hostAccess addr a).polys = s.polys ∧ (s.hostAccess addr a).buf = s.buf ∧
    (s.hostAccess addr a).sa = s.sa ∧ (s.hostAccess addr a).sb = s.sb ∧ (s.hostAccess addr a).sr = s.sr ∧
    (s.hostAccess addr a).pending = s.pending ∧
    (State.hostAccess { s with polys := polys, buf := buf, sa := sa, sb := sb, sr := sr } addr a).responses =
      (s.hostAccess addr a).responses

/-- R26, R190 and R191: the state after reset on every build, and the reset step, which leaves the engine in it at any
time, also with a command pending. -/
def Obligations.ResetSetsEveryRegister : Prop :=
  (∀ b : Build,
    let s := State.resetOf b
    s.statusWord = 0 ∧ s.irqEnWord = 0 ∧ s.sa = 0 ∧ s.sb = 0 ∧ s.sr = 0 ∧ s.pending = none ∧ s.irq = false ∧
    (∀ (p : PolyIdx) (i : Nat), s.elem p i = .unwritten) ∧ (∀ j : Nat, s.buf.read j = none) ∧
    s.readWord .cmd = 0 ∧ s.readWord .id = 0x4B504531 ∧
    s.readWord .config = BitVec.ofNat 32 (b.npoly + 256 * b.dv.bits)) ∧
  ∀ (s : State) (rest : List Input), s.inputs = .reset :: rest →
    ∃ t : State, step s = .next t ∧ t.statusWord = 0 ∧ t.irqEnWord = 0 ∧ t.irq = false ∧ t.sa = 0 ∧ t.sb = 0 ∧
      t.sr = 0 ∧ t.pending = none ∧ (∀ (p : PolyIdx) (i : Nat), t.elem p i = .unwritten) ∧
      (∀ j : Nat, t.buf.read j = none) ∧ t.readWord .cmd = 0 ∧ t.readWord .id = 0x4B504531 ∧
      t.readWord .config = s.readWord .config ∧ (∀ k, t.readWord (.rom k) = s.readWord (.rom k)) ∧ t.build = s.build

/-- R21 and R149: an engine is built exactly for NPOLY in 1..16 and DV in 4, 5, with the parameters asked for. -/
def Obligations.OnlyLegalBuildsAreConstructed : Prop :=
  ∀ npoly dv base : Nat,
    ((1 ≤ npoly ∧ npoly ≤ 16 ∧ (dv = 4 ∨ dv = 5)) →
      ∃ b : Build, Build.make? npoly dv base = some b ∧ b.npoly = npoly ∧ b.dv.bits = dv ∧ b.base = base) ∧
    (¬(1 ≤ npoly ∧ npoly ≤ 16 ∧ (dv = 4 ∨ dv = 5)) → Build.make? npoly dv base = none)
end

