-- ==== Sys2Proof/Laws/State.lean ====
section
/-! SUPPORT. One lemma per field of State for each named update, so that no later proof unfolds a record update. -/

namespace Sys2Proof.Machine

/-! ### accept -/

section
variable (s : State) (i : Instr)

@[simp] theorem State.accept_build : (s.accept i).build = s.build := rfl
@[simp] theorem State.accept_polys : (s.accept i).polys = s.polys := rfl
@[simp] theorem State.accept_buf : (s.accept i).buf = s.buf := rfl
@[simp] theorem State.accept_sa : (s.accept i).sa = s.sa := rfl
@[simp] theorem State.accept_sb : (s.accept i).sb = s.sb := rfl
@[simp] theorem State.accept_sr : (s.accept i).sr = s.sr := rfl
@[simp] theorem State.accept_done : (s.accept i).done = false := rfl
@[simp] theorem State.accept_error : (s.accept i).error = none := rfl
@[simp] theorem State.accept_ovr : (s.accept i).ovr = s.ovr := rfl
@[simp] theorem State.accept_doneIe : (s.accept i).doneIe = s.doneIe := rfl
@[simp] theorem State.accept_errIe : (s.accept i).errIe = s.errIe := rfl
@[simp] theorem State.accept_pending : (s.accept i).pending = some i := rfl
@[simp] theorem State.accept_inputs : (s.accept i).inputs = s.inputs := rfl
@[simp] theorem State.accept_responses : (s.accept i).responses = s.responses := rfl
@[simp] theorem State.accept_freeCount : (s.accept i).freeCount = s.freeCount := rfl
@[simp] theorem State.accept_unwrittenRead : (s.accept i).unwrittenRead = s.unwrittenRead := rfl

end

/-! ### complete -/

section
variable (s : State)

@[simp] theorem State.complete_build : s.complete.build = s.build := rfl
@[simp] theorem State.complete_polys : s.complete.polys = s.polys := rfl
@[simp] theorem State.complete_buf : s.complete.buf = s.buf := rfl
@[simp] theorem State.complete_sa : s.complete.sa = s.sa := rfl
@[simp] theorem State.complete_sb : s.complete.sb = s.sb := rfl
@[simp] theorem State.complete_sr : s.complete.sr = s.sr := rfl
@[simp] theorem State.complete_done : s.complete.done = true := rfl
@[simp] theorem State.complete_error : s.complete.error = s.error := rfl
@[simp] theorem State.complete_ovr : s.complete.ovr = s.ovr := rfl
@[simp] theorem State.complete_doneIe : s.complete.doneIe = s.doneIe := rfl
@[simp] theorem State.complete_errIe : s.complete.errIe = s.errIe := rfl
@[simp] theorem State.complete_pending : s.complete.pending = none := rfl
@[simp] theorem State.complete_inputs : s.complete.inputs = s.inputs := rfl
@[simp] theorem State.complete_responses : s.complete.responses = s.responses := rfl
@[simp] theorem State.complete_freeCount : s.complete.freeCount = s.freeCount := rfl
@[simp] theorem State.complete_unwrittenRead : s.complete.unwrittenRead = s.unwrittenRead := rfl

end

/-! ### setOvr -/

section
variable (s : State)

@[simp] theorem State.setOvr_build : s.setOvr.build = s.build := rfl
@[simp] theorem State.setOvr_polys : s.setOvr.polys = s.polys := rfl
@[simp] theorem State.setOvr_buf : s.setOvr.buf = s.buf := rfl
@[simp] theorem State.setOvr_sa : s.setOvr.sa = s.sa := rfl
@[simp] theorem State.setOvr_sb : s.setOvr.sb = s.sb := rfl
@[simp] theorem State.setOvr_sr : s.setOvr.sr = s.sr := rfl
@[simp] theorem State.setOvr_done : s.setOvr.done = s.done := rfl
@[simp] theorem State.setOvr_error : s.setOvr.error = s.error := rfl
@[simp] theorem State.setOvr_ovr : s.setOvr.ovr = true := rfl
@[simp] theorem State.setOvr_doneIe : s.setOvr.doneIe = s.doneIe := rfl
@[simp] theorem State.setOvr_errIe : s.setOvr.errIe = s.errIe := rfl
@[simp] theorem State.setOvr_pending : s.setOvr.pending = s.pending := rfl
@[simp] theorem State.setOvr_inputs : s.setOvr.inputs = s.inputs := rfl
@[simp] theorem State.setOvr_responses : s.setOvr.responses = s.responses := rfl
@[simp] theorem State.setOvr_freeCount : s.setOvr.freeCount = s.freeCount := rfl
@[simp] theorem State.setOvr_unwrittenRead : s.setOvr.unwrittenRead = s.unwrittenRead := rfl

end

/-! ### writeIrqEn -/

section
variable (s : State) (v : Word)

@[simp] theorem State.writeIrqEn_build : (s.writeIrqEn v).build = s.build := rfl
@[simp] theorem State.writeIrqEn_polys : (s.writeIrqEn v).polys = s.polys := rfl
@[simp] theorem State.writeIrqEn_buf : (s.writeIrqEn v).buf = s.buf := rfl
@[simp] theorem State.writeIrqEn_sa : (s.writeIrqEn v).sa = s.sa := rfl
@[simp] theorem State.writeIrqEn_sb : (s.writeIrqEn v).sb = s.sb := rfl
@[simp] theorem State.writeIrqEn_sr : (s.writeIrqEn v).sr = s.sr := rfl
@[simp] theorem State.writeIrqEn_done : (s.writeIrqEn v).done = s.done := rfl
@[simp] theorem State.writeIrqEn_error : (s.writeIrqEn v).error = s.error := rfl
@[simp] theorem State.writeIrqEn_ovr : (s.writeIrqEn v).ovr = s.ovr := rfl
@[simp] theorem State.writeIrqEn_doneIe : (s.writeIrqEn v).doneIe = v.getLsbD 0 := rfl
@[simp] theorem State.writeIrqEn_errIe : (s.writeIrqEn v).errIe = v.getLsbD 1 := rfl
@[simp] theorem State.writeIrqEn_pending : (s.writeIrqEn v).pending = s.pending := rfl
@[simp] theorem State.writeIrqEn_inputs : (s.writeIrqEn v).inputs = s.inputs := rfl
@[simp] theorem State.writeIrqEn_responses : (s.writeIrqEn v).responses = s.responses := rfl
@[simp] theorem State.writeIrqEn_freeCount : (s.writeIrqEn v).freeCount = s.freeCount := rfl
@[simp] theorem State.writeIrqEn_unwrittenRead : (s.writeIrqEn v).unwrittenRead = s.unwrittenRead := rfl

end

/-! ### setSr -/

section
variable (s : State) (v : Word)

@[simp] theorem State.setSr_build : (s.setSr v).build = s.build := rfl
@[simp] theorem State.setSr_polys : (s.setSr v).polys = s.polys := rfl
@[simp] theorem State.setSr_buf : (s.setSr v).buf = s.buf := rfl
@[simp] theorem State.setSr_sa : (s.setSr v).sa = s.sa := rfl
@[simp] theorem State.setSr_sb : (s.setSr v).sb = s.sb := rfl
@[simp] theorem State.setSr_sr : (s.setSr v).sr = v := rfl
@[simp] theorem State.setSr_done : (s.setSr v).done = s.done := rfl
@[simp] theorem State.setSr_error : (s.setSr v).error = s.error := rfl
@[simp] theorem State.setSr_ovr : (s.setSr v).ovr = s.ovr := rfl
@[simp] theorem State.setSr_doneIe : (s.setSr v).doneIe = s.doneIe := rfl
@[simp] theorem State.setSr_errIe : (s.setSr v).errIe = s.errIe := rfl
@[simp] theorem State.setSr_pending : (s.setSr v).pending = s.pending := rfl
@[simp] theorem State.setSr_inputs : (s.setSr v).inputs = s.inputs := rfl
@[simp] theorem State.setSr_responses : (s.setSr v).responses = s.responses := rfl
@[simp] theorem State.setSr_freeCount : (s.setSr v).freeCount = s.freeCount := rfl
@[simp] theorem State.setSr_unwrittenRead : (s.setSr v).unwrittenRead = s.unwrittenRead := rfl

end

/-! ### setBytes -/

section
variable (s : State) (j : Nat) (bs : List Byte)

@[simp] theorem State.setBytes_build : (s.setBytes j bs).build = s.build := rfl
@[simp] theorem State.setBytes_polys : (s.setBytes j bs).polys = s.polys := rfl
@[simp] theorem State.setBytes_buf : (s.setBytes j bs).buf = s.buf.writeBytes j bs := rfl
@[simp] theorem State.setBytes_sa : (s.setBytes j bs).sa = s.sa := rfl
@[simp] theorem State.setBytes_sb : (s.setBytes j bs).sb = s.sb := rfl
@[simp] theorem State.setBytes_sr : (s.setBytes j bs).sr = s.sr := rfl
@[simp] theorem State.setBytes_done : (s.setBytes j bs).done = s.done := rfl
@[simp] theorem State.setBytes_error : (s.setBytes j bs).error = s.error := rfl
@[simp] theorem State.setBytes_ovr : (s.setBytes j bs).ovr = s.ovr := rfl
@[simp] theorem State.setBytes_doneIe : (s.setBytes j bs).doneIe = s.doneIe := rfl
@[simp] theorem State.setBytes_errIe : (s.setBytes j bs).errIe = s.errIe := rfl
@[simp] theorem State.setBytes_pending : (s.setBytes j bs).pending = s.pending := rfl
@[simp] theorem State.setBytes_inputs : (s.setBytes j bs).inputs = s.inputs := rfl
@[simp] theorem State.setBytes_responses : (s.setBytes j bs).responses = s.responses := rfl
@[simp] theorem State.setBytes_freeCount : (s.setBytes j bs).freeCount = s.freeCount := rfl
@[simp] theorem State.setBytes_unwrittenRead : (s.setBytes j bs).unwrittenRead = s.unwrittenRead := rfl

end

/-! ### setPoly -/

section
variable (s : State) (p : PolyIdx) (r : Poly)

@[simp] theorem State.setPoly_build : (s.setPoly p r).build = s.build := rfl
@[simp] theorem State.setPoly_buf : (s.setPoly p r).buf = s.buf := rfl
@[simp] theorem State.setPoly_sa : (s.setPoly p r).sa = s.sa := rfl
@[simp] theorem State.setPoly_sb : (s.setPoly p r).sb = s.sb := rfl
@[simp] theorem State.setPoly_sr : (s.setPoly p r).sr = s.sr := rfl
@[simp] theorem State.setPoly_done : (s.setPoly p r).done = s.done := rfl
@[simp] theorem State.setPoly_error : (s.setPoly p r).error = s.error := rfl
@[simp] theorem State.setPoly_ovr : (s.setPoly p r).ovr = s.ovr := rfl
@[simp] theorem State.setPoly_doneIe : (s.setPoly p r).doneIe = s.doneIe := rfl
@[simp] theorem State.setPoly_errIe : (s.setPoly p r).errIe = s.errIe := rfl
@[simp] theorem State.setPoly_pending : (s.setPoly p r).pending = s.pending := rfl
@[simp] theorem State.setPoly_inputs : (s.setPoly p r).inputs = s.inputs := rfl
@[simp] theorem State.setPoly_responses : (s.setPoly p r).responses = s.responses := rfl
@[simp] theorem State.setPoly_freeCount : (s.setPoly p r).freeCount = s.freeCount := rfl
@[simp] theorem State.setPoly_unwrittenRead : (s.setPoly p r).unwrittenRead = s.unwrittenRead := rfl

end

/-! ### setCoeffs -/

section
variable (s : State) (p : PolyIdx) (k : Fin 128) (lo hi : Coeff)

@[simp] theorem State.setCoeffs_build : (s.setCoeffs p k lo hi).build = s.build := rfl
@[simp] theorem State.setCoeffs_buf : (s.setCoeffs p k lo hi).buf = s.buf := rfl
@[simp] theorem State.setCoeffs_sa : (s.setCoeffs p k lo hi).sa = s.sa := rfl
@[simp] theorem State.setCoeffs_sb : (s.setCoeffs p k lo hi).sb = s.sb := rfl
@[simp] theorem State.setCoeffs_sr : (s.setCoeffs p k lo hi).sr = s.sr := rfl
@[simp] theorem State.setCoeffs_done : (s.setCoeffs p k lo hi).done = s.done := rfl
@[simp] theorem State.setCoeffs_error : (s.setCoeffs p k lo hi).error = s.error := rfl
@[simp] theorem State.setCoeffs_ovr : (s.setCoeffs p k lo hi).ovr = s.ovr := rfl
@[simp] theorem State.setCoeffs_doneIe : (s.setCoeffs p k lo hi).doneIe = s.doneIe := rfl
@[simp] theorem State.setCoeffs_errIe : (s.setCoeffs p k lo hi).errIe = s.errIe := rfl
@[simp] theorem State.setCoeffs_pending : (s.setCoeffs p k lo hi).pending = s.pending := rfl
@[simp] theorem State.setCoeffs_inputs : (s.setCoeffs p k lo hi).inputs = s.inputs := rfl
@[simp] theorem State.setCoeffs_responses : (s.setCoeffs p k lo hi).responses = s.responses := rfl
@[simp] theorem State.setCoeffs_freeCount : (s.setCoeffs p k lo hi).freeCount = s.freeCount := rfl
@[simp] theorem State.setCoeffs_unwrittenRead : (s.setCoeffs p k lo hi).unwrittenRead = s.unwrittenRead := rfl

end

/-! ### respond -/

section
variable (s : State) (r : Response)

@[simp] theorem State.respond_build : (s.respond r).build = s.build := rfl
@[simp] theorem State.respond_polys : (s.respond r).polys = s.polys := rfl
@[simp] theorem State.respond_buf : (s.respond r).buf = s.buf := rfl
@[simp] theorem State.respond_sa : (s.respond r).sa = s.sa := rfl
@[simp] theorem State.respond_sb : (s.respond r).sb = s.sb := rfl
@[simp] theorem State.respond_sr : (s.respond r).sr = s.sr := rfl
@[simp] theorem State.respond_done : (s.respond r).done = s.done := rfl
@[simp] theorem State.respond_error : (s.respond r).error = s.error := rfl
@[simp] theorem State.respond_ovr : (s.respond r).ovr = s.ovr := rfl
@[simp] theorem State.respond_doneIe : (s.respond r).doneIe = s.doneIe := rfl
@[simp] theorem State.respond_errIe : (s.respond r).errIe = s.errIe := rfl
@[simp] theorem State.respond_pending : (s.respond r).pending = s.pending := rfl
@[simp] theorem State.respond_inputs : (s.respond r).inputs = s.inputs := rfl
@[simp] theorem State.respond_responses : (s.respond r).responses = s.responses ++ [r] := rfl
@[simp] theorem State.respond_freeCount : (s.respond r).freeCount = s.freeCount := rfl
@[simp] theorem State.respond_unwrittenRead : (s.respond r).unwrittenRead = s.unwrittenRead := rfl

end

/-! ### raiseBusError -/

section
variable (s : State)

@[simp] theorem State.raiseBusError_build : s.raiseBusError.build = s.build := rfl
@[simp] theorem State.raiseBusError_polys : s.raiseBusError.polys = s.polys := rfl
@[simp] theorem State.raiseBusError_buf : s.raiseBusError.buf = s.buf := rfl
@[simp] theorem State.raiseBusError_sa : s.raiseBusError.sa = s.sa := rfl
@[simp] theorem State.raiseBusError_sb : s.raiseBusError.sb = s.sb := rfl
@[simp] theorem State.raiseBusError_sr : s.raiseBusError.sr = s.sr := rfl
@[simp] theorem State.raiseBusError_done : s.raiseBusError.done = s.done := rfl
@[simp] theorem State.raiseBusError_error : s.raiseBusError.error = s.error := rfl
@[simp] theorem State.raiseBusError_ovr : s.raiseBusError.ovr = s.ovr := rfl
@[simp] theorem State.raiseBusError_doneIe : s.raiseBusError.doneIe = s.doneIe := rfl
@[simp] theorem State.raiseBusError_errIe : s.raiseBusError.errIe = s.errIe := rfl
@[simp] theorem State.raiseBusError_pending : s.raiseBusError.pending = s.pending := rfl
@[simp] theorem State.raiseBusError_inputs : s.raiseBusError.inputs = s.inputs := rfl
@[simp] theorem State.raiseBusError_responses : s.raiseBusError.responses = s.responses ++ [.busError] := rfl
@[simp] theorem State.raiseBusError_freeCount : s.raiseBusError.freeCount = s.freeCount := rfl
@[simp] theorem State.raiseBusError_unwrittenRead : s.raiseBusError.unwrittenRead = s.unwrittenRead := rfl

end

/-! ### raiseCmdError -/

section
variable (s : State) (e : CmdError)

@[simp] theorem State.raiseCmdError_build : (s.raiseCmdError e).build = s.build := rfl
@[simp] theorem State.raiseCmdError_polys : (s.raiseCmdError e).polys = s.polys := rfl
@[simp] theorem State.raiseCmdError_buf : (s.raiseCmdError e).buf = s.buf := rfl
@[simp] theorem State.raiseCmdError_sa : (s.raiseCmdError e).sa = s.sa := rfl
@[simp] theorem State.raiseCmdError_sb : (s.raiseCmdError e).sb = s.sb := rfl
@[simp] theorem State.raiseCmdError_sr : (s.raiseCmdError e).sr = s.sr := rfl
@[simp] theorem State.raiseCmdError_done : (s.raiseCmdError e).done = true := rfl
@[simp] theorem State.raiseCmdError_error : (s.raiseCmdError e).error = some e := rfl
@[simp] theorem State.raiseCmdError_ovr : (s.raiseCmdError e).ovr = s.ovr := rfl
@[simp] theorem State.raiseCmdError_doneIe : (s.raiseCmdError e).doneIe = s.doneIe := rfl
@[simp] theorem State.raiseCmdError_errIe : (s.raiseCmdError e).errIe = s.errIe := rfl
@[simp] theorem State.raiseCmdError_pending : (s.raiseCmdError e).pending = s.pending := rfl
@[simp] theorem State.raiseCmdError_inputs : (s.raiseCmdError e).inputs = s.inputs := rfl
@[simp] theorem State.raiseCmdError_responses : (s.raiseCmdError e).responses = s.responses := rfl
@[simp] theorem State.raiseCmdError_freeCount : (s.raiseCmdError e).freeCount = s.freeCount := rfl
@[simp] theorem State.raiseCmdError_unwrittenRead : (s.raiseCmdError e).unwrittenRead = s.unwrittenRead := rfl

end

/-! ### acknowledge -/

section
variable (s : State) (v : Word)

@[simp] theorem State.acknowledge_build : (s.acknowledge v).build = s.build := rfl
@[simp] theorem State.acknowledge_polys : (s.acknowledge v).polys = s.polys := rfl
@[simp] theorem State.acknowledge_buf : (s.acknowledge v).buf = s.buf := rfl
@[simp] theorem State.acknowledge_sa : (s.acknowledge v).sa = s.sa := rfl
@[simp] theorem State.acknowledge_sb : (s.acknowledge v).sb = s.sb := rfl
@[simp] theorem State.acknowledge_sr : (s.acknowledge v).sr = s.sr := rfl
@[simp] theorem State.acknowledge_done : (s.acknowledge v).done = (s.done && !v.getLsbD 1) := rfl
@[simp] theorem State.acknowledge_error : (s.acknowledge v).error = (if v.getLsbD 2 then none else s.error) := rfl
@[simp] theorem State.acknowledge_ovr : (s.acknowledge v).ovr = (s.ovr && !v.getLsbD 3) := rfl
@[simp] theorem State.acknowledge_doneIe : (s.acknowledge v).doneIe = s.doneIe := rfl
@[simp] theorem State.acknowledge_errIe : (s.acknowledge v).errIe = s.errIe := rfl
@[simp] theorem State.acknowledge_pending : (s.acknowledge v).pending = s.pending := rfl
@[simp] theorem State.acknowledge_inputs : (s.acknowledge v).inputs = s.inputs := rfl
@[simp] theorem State.acknowledge_responses : (s.acknowledge v).responses = s.responses := rfl
@[simp] theorem State.acknowledge_freeCount : (s.acknowledge v).freeCount = s.freeCount := rfl
@[simp] theorem State.acknowledge_unwrittenRead : (s.acknowledge v).unwrittenRead = s.unwrittenRead := rfl

end

/-! ### noteRead -/

section
variable (s : State) (n : Nat) (b : Bool)

@[simp] theorem State.noteRead_build : (s.noteRead n b).build = s.build := by cases b <;> rfl
@[simp] theorem State.noteRead_polys : (s.noteRead n b).polys = s.polys := by cases b <;> rfl
@[simp] theorem State.noteRead_buf : (s.noteRead n b).buf = s.buf := by cases b <;> rfl
@[simp] theorem State.noteRead_sa : (s.noteRead n b).sa = s.sa := by cases b <;> rfl
@[simp] theorem State.noteRead_sb : (s.noteRead n b).sb = s.sb := by cases b <;> rfl
@[simp] theorem State.noteRead_sr : (s.noteRead n b).sr = s.sr := by cases b <;> rfl
@[simp] theorem State.noteRead_done : (s.noteRead n b).done = s.done := by cases b <;> rfl
@[simp] theorem State.noteRead_error : (s.noteRead n b).error = s.error := by cases b <;> rfl
@[simp] theorem State.noteRead_ovr : (s.noteRead n b).ovr = s.ovr := by cases b <;> rfl
@[simp] theorem State.noteRead_doneIe : (s.noteRead n b).doneIe = s.doneIe := by cases b <;> rfl
@[simp] theorem State.noteRead_errIe : (s.noteRead n b).errIe = s.errIe := by cases b <;> rfl
@[simp] theorem State.noteRead_pending : (s.noteRead n b).pending = s.pending := by cases b <;> rfl
@[simp] theorem State.noteRead_inputs : (s.noteRead n b).inputs = s.inputs := by cases b <;> rfl
@[simp] theorem State.noteRead_responses : (s.noteRead n b).responses = s.responses := by cases b <;> rfl
@[simp] theorem State.noteRead_freeCount :
    (s.noteRead n b).freeCount = if b then s.freeCount else s.freeCount + n := by cases b <;> rfl
@[simp] theorem State.noteRead_unwrittenRead :
    (s.noteRead n b).unwrittenRead = (s.unwrittenRead || !b) := by cases b <;> simp [State.noteRead]
@[simp] theorem State.noteRead_true : s.noteRead n true = s := rfl

end

/-! ### resetEvent -/

section
variable (s : State)

@[simp] theorem State.resetEvent_build : s.resetEvent.build = s.build := rfl
@[simp] theorem State.resetEvent_polys : s.resetEvent.polys = Vector.replicate 16 (Vector.replicate 256 .unwritten) := rfl
@[simp] theorem State.resetEvent_buf : s.resetEvent.buf = [] := rfl
@[simp] theorem State.resetEvent_sa : s.resetEvent.sa = 0 := rfl
@[simp] theorem State.resetEvent_sb : s.resetEvent.sb = 0 := rfl
@[simp] theorem State.resetEvent_sr : s.resetEvent.sr = 0 := rfl
@[simp] theorem State.resetEvent_done : s.resetEvent.done = false := rfl
@[simp] theorem State.resetEvent_error : s.resetEvent.error = none := rfl
@[simp] theorem State.resetEvent_ovr : s.resetEvent.ovr = false := rfl
@[simp] theorem State.resetEvent_doneIe : s.resetEvent.doneIe = false := rfl
@[simp] theorem State.resetEvent_errIe : s.resetEvent.errIe = false := rfl
@[simp] theorem State.resetEvent_pending : s.resetEvent.pending = none := rfl
@[simp] theorem State.resetEvent_inputs : s.resetEvent.inputs = s.inputs := rfl
@[simp] theorem State.resetEvent_responses : s.resetEvent.responses = s.responses := rfl
@[simp] theorem State.resetEvent_freeCount : s.resetEvent.freeCount = s.freeCount := rfl
@[simp] theorem State.resetEvent_unwrittenRead : s.resetEvent.unwrittenRead = s.unwrittenRead := rfl

end

/-! ### resetOf -/

section
variable (b : Build)

@[simp] theorem State.resetOf_build : (State.resetOf b).build = b := rfl
@[simp] theorem State.resetOf_polys : (State.resetOf b).polys = Vector.replicate 16 (Vector.replicate 256 .unwritten) := rfl
@[simp] theorem State.resetOf_buf : (State.resetOf b).buf = [] := rfl
@[simp] theorem State.resetOf_sa : (State.resetOf b).sa = 0 := rfl
@[simp] theorem State.resetOf_sb : (State.resetOf b).sb = 0 := rfl
@[simp] theorem State.resetOf_sr : (State.resetOf b).sr = 0 := rfl
@[simp] theorem State.resetOf_done : (State.resetOf b).done = false := rfl
@[simp] theorem State.resetOf_error : (State.resetOf b).error = none := rfl
@[simp] theorem State.resetOf_ovr : (State.resetOf b).ovr = false := rfl
@[simp] theorem State.resetOf_doneIe : (State.resetOf b).doneIe = false := rfl
@[simp] theorem State.resetOf_errIe : (State.resetOf b).errIe = false := rfl
@[simp] theorem State.resetOf_pending : (State.resetOf b).pending = none := rfl
@[simp] theorem State.resetOf_inputs : (State.resetOf b).inputs = [] := rfl
@[simp] theorem State.resetOf_responses : (State.resetOf b).responses = [] := rfl
@[simp] theorem State.resetOf_freeCount : (State.resetOf b).freeCount = 0 := rfl
@[simp] theorem State.resetOf_unwrittenRead : (State.resetOf b).unwrittenRead = false := rfl

end

end Sys2Proof.Machine
end

