-- ==== Sys2Proof/Laws/Ops.lean ====
section
/-! SUPPORT. The storage laws: a table read back, a register element after a write, a byte of BUF after a write, and
the canonical form of BUF kept by every write. -/

namespace Sys2Proof

@[simp] theorem tabulate_getElem {α : Type} (n : Nat) (f : Nat → α) (i : Nat) (h : i < n) :
    (tabulate n f)[i] = f i := by
  simp [tabulate]

theorem poly_ext {a b : Poly} (h : ∀ (i : Nat) (hi : i < 256), a[i] = b[i]) : a = b :=
  Vector.ext h

end Sys2Proof

namespace Sys2Proof.Machine

/-! ### Elements of the register file -/

theorem elem_of_lt (s : State) (p : PolyIdx) {i : Nat} (h : i < 256) : s.elem p i = s.polys[p][i] := by
  simp [State.elem, h]

@[simp] theorem elem_of_ge (s : State) (p : PolyIdx) {i : Nat} (h : 256 ≤ i) : s.elem p i = .unwritten := by
  simp [State.elem, Nat.not_lt.mpr h]

/-- Two states with the same register file have the same elements. -/
theorem elem_congr {s t : State} (h : t.polys = s.polys) (p : PolyIdx) (i : Nat) : t.elem p i = s.elem p i := by
  simp [State.elem, h]

@[simp] theorem elem_setPoly_same (s : State) (p : PolyIdx) (r : Poly) {i : Nat} (h : i < 256) :
    (s.setPoly p r).elem p i = .holds r[i] := by
  simp [State.elem, State.setPoly, h]

@[simp] theorem elem_setPoly_other (s : State) {p p' : PolyIdx} (r : Poly) (i : Nat) (hp : p' ≠ p) :
    (s.setPoly p r).elem p' i = s.elem p' i := by
  have hne : p.val ≠ p'.val := fun e => hp (Fin.ext e.symm)
  simp [State.elem, State.setPoly, hne]

theorem elem_setCoeffs (s : State) (p p' : PolyIdx) (k : Fin 128) (lo hi : Coeff) (i : Nat) :
    (s.setCoeffs p k lo hi).elem p' i =
      if p' = p ∧ i = 2 * k.val then .holds lo
      else if p' = p ∧ i = 2 * k.val + 1 then .holds hi
      else s.elem p' i := by
  have hk := k.isLt
  by_cases h : i < 256
  · by_cases hp : p' = p
    · subst hp
      by_cases h0 : i = 2 * k.val
      · simp [State.elem, State.setCoeffs, h0]
        omega
      · by_cases h1 : i = 2 * k.val + 1
        · simp [State.elem, State.setCoeffs, h1]
          omega
        · simp [State.elem, State.setCoeffs, h, h0, h1, Ne.symm h0, Ne.symm h1]
    · have hne : p.val ≠ p'.val := fun e => hp (Fin.ext e.symm)
      simp [State.elem, State.setCoeffs, hne, hp]
  · have h1 : i ≠ 2 * k.val := by omega
    have h2 : i ≠ 2 * k.val + 1 := by omega
    simp [State.elem, h, h1, h2]

@[simp] theorem elem_accept (s : State) (c : Instr) (p : PolyIdx) (i : Nat) : (s.accept c).elem p i = s.elem p i := rfl
@[simp] theorem elem_complete (s : State) (p : PolyIdx) (i : Nat) : s.complete.elem p i = s.elem p i := rfl
@[simp] theorem elem_setOvr (s : State) (p : PolyIdx) (i : Nat) : s.setOvr.elem p i = s.elem p i := rfl
@[simp] theorem elem_writeIrqEn (s : State) (v : Word) (p : PolyIdx) (i : Nat) :
    (s.writeIrqEn v).elem p i = s.elem p i := rfl
@[simp] theorem elem_setSr (s : State) (v : Word) (p : PolyIdx) (i : Nat) : (s.setSr v).elem p i = s.elem p i := rfl
@[simp] theorem elem_setBytes (s : State) (j : Nat) (bs : List Byte) (p : PolyIdx) (i : Nat) :
    (s.setBytes j bs).elem p i = s.elem p i := rfl
@[simp] theorem elem_respond (s : State) (r : Response) (p : PolyIdx) (i : Nat) :
    (s.respond r).elem p i = s.elem p i := rfl
@[simp] theorem elem_raiseBusError (s : State) (p : PolyIdx) (i : Nat) :
    s.raiseBusError.elem p i = s.elem p i := rfl
@[simp] theorem elem_raiseCmdError (s : State) (e : CmdError) (p : PolyIdx) (i : Nat) :
    (s.raiseCmdError e).elem p i = s.elem p i := rfl
@[simp] theorem elem_acknowledge (s : State) (v : Word) (p : PolyIdx) (i : Nat) :
    (s.acknowledge v).elem p i = s.elem p i := rfl
@[simp] theorem elem_noteRead (s : State) (n : Nat) (b : Bool) (p : PolyIdx) (i : Nat) :
    (s.noteRead n b).elem p i = s.elem p i := elem_congr (by simp) p i

@[simp] theorem elem_resetOf (b : Build) (p : PolyIdx) (i : Nat) : (State.resetOf b).elem p i = .unwritten := by
  by_cases h : i < 256
  · simp [State.elem, h, State.resetOf]
  · simp [State.elem, h]

@[simp] theorem elem_resetEvent (s : State) (p : PolyIdx) (i : Nat) : s.resetEvent.elem p i = .unwritten :=
  elem_resetOf s.build p i

/-- A register is fully written exactly when each of its 256 elements is. -/
theorem polyWritten_iff (s : State) (p : PolyIdx) : s.polyWritten p = true ↔ s.AllWritten p := by
  unfold State.polyWritten State.AllWritten
  rw [List.all_eq_true]
  constructor
  · intro h i hi
    rw [elem_of_lt s p hi]
    exact h _ (by simp)
  · intro h x hx
    obtain ⟨i, hi, rfl⟩ := List.getElem_of_mem hx
    have hi' : i < 256 := by simpa using hi
    simpa [elem_of_lt s p hi'] using h i hi'

/-! ### Bytes of BUF -/

namespace Memory

@[simp] theorem read_nil (j : Nat) : Memory.read [] j = none := rfl

@[simp] theorem read_write_same (m : Memory) (j : Nat) (b : Byte) : (m.write j b).read j = some b := by
  induction m with
  | nil => simp [Memory.write, Memory.read]
  | cons x rest ih =>
    obtain ⟨a, c⟩ := x
    simp only [Memory.write]
    split
    · simp [Memory.read]
    · split
      · simp [Memory.read]
      · rename_i h1 h2
        have : a ≠ j := fun e => h2 e.symm
        simp [Memory.read, this, ih]

@[simp] theorem read_write_other (m : Memory) {j k : Nat} (b : Byte) (h : k ≠ j) :
    (m.write j b).read k = m.read k := by
  induction m with
  | nil => simp [Memory.write, Memory.read, Ne.symm h]
  | cons x rest ih =>
    obtain ⟨a, c⟩ := x
    simp only [Memory.write]
    split
    · simp [Memory.read, Ne.symm h]
    · split
      · rename_i h1 h2
        have : a ≠ k := fun e => h (by omega)
        simp [Memory.read, Ne.symm h, this]
      · simp only [Memory.read, ih]

/-- The bytes after a write of a list: the list's bytes at its indexes, the old ones elsewhere. -/
theorem read_writeBytes (m : Memory) (j k : Nat) (bs : List Byte) :
    (m.writeBytes j bs).read k = if j ≤ k ∧ k < j + bs.length then bs[k - j]? else m.read k := by
  induction bs generalizing j with
  | nil => simp only [Memory.writeBytes, List.length_nil]; split <;> first | omega | rfl
  | cons b rest ih =>
    simp only [Memory.writeBytes, List.length_cons]
    by_cases hk : k = j
    · subst hk; simp
    · rw [read_write_other _ _ hk, ih]
      by_cases hr : j + 1 ≤ k ∧ k < j + 1 + rest.length
      · have h2 : j ≤ k ∧ k < j + (rest.length + 1) := by omega
        have h3 : k - j = (k - (j + 1)) + 1 := by omega
        simp [hr, h2, h3]
      · have h2 : ¬(j ≤ k ∧ k < j + (rest.length + 1)) := by omega
        rw [if_neg hr, if_neg h2]

theorem wfFrom_mono {m : Memory} {lo lo' : Nat} (h : Memory.wfFrom lo m = true) (hl : lo' ≤ lo) :
    Memory.wfFrom lo' m = true := by
  cases m with
  | nil => rfl
  | cons x rest =>
    simp only [Memory.wfFrom, Bool.and_eq_true, decide_eq_true_eq] at h ⊢
    exact ⟨⟨by omega, h.1.2⟩, h.2⟩

theorem wfFrom_write {m : Memory} {lo j : Nat} {b : Byte} (h : Memory.wfFrom lo m = true) (hl : lo ≤ j)
    (hj : j < 384) : Memory.wfFrom lo (m.write j b) = true := by
  induction m generalizing lo with
  | nil => simp [Memory.write, Memory.wfFrom, hl, hj]
  | cons x rest ih =>
    obtain ⟨a, c⟩ := x
    simp only [Memory.wfFrom, Bool.and_eq_true, decide_eq_true_eq] at h
    simp only [Memory.write]
    split
    · simp only [Memory.wfFrom, Bool.and_eq_true, decide_eq_true_eq]
      exact ⟨⟨hl, hj⟩, ⟨by omega, h.1.2⟩, h.2⟩
    · split
      · rename_i h2
        subst h2
        simp only [Memory.wfFrom, Bool.and_eq_true, decide_eq_true_eq]
        exact ⟨⟨hl, hj⟩, h.2⟩
      · simp only [Memory.wfFrom, Bool.and_eq_true, decide_eq_true_eq]
        exact ⟨h.1, ih h.2 (by omega)⟩

/-- A write inside BUF keeps the canonical form. -/
theorem wf_write {m : Memory} {j : Nat} {b : Byte} (h : m.wf = true) (hj : j < 384) : (m.write j b).wf = true :=
  wfFrom_write h (Nat.zero_le j) hj

/-- A write of bytes inside BUF keeps the canonical form. -/
theorem wf_writeBytes {m : Memory} {j : Nat} {bs : List Byte} (h : m.wf = true) (hj : j + bs.length ≤ 384) :
    (m.writeBytes j bs).wf = true := by
  induction bs generalizing j with
  | nil => exact h
  | cons b rest ih =>
    simp only [List.length_cons] at hj
    exact wf_write (ih (by omega)) (by omega)

end Memory

end Sys2Proof.Machine
end

