-- ==== Sys2Proof/Laws/Arith.lean ====
section
/-! SUPPORT. The width functions: what they are congruent to, their ranges, and that a value that fits is not
changed; a coefficient written and read back. -/

namespace Sys2Proof.Machine

theorem s16_range (x : Int) : -32768 ≤ s16 x ∧ s16 x ≤ 32767 := by unfold s16; omega

theorem s16_eq_self {x : Int} (h : -32768 ≤ x ∧ x ≤ 32767) : s16 x = x := by unfold s16; omega

theorem s16_congr (x : Int) : (65536 : Int) ∣ x - s16 x := by unfold s16; omega

theorem s32_range (x : Int) : -2147483648 ≤ s32 x ∧ s32 x ≤ 2147483647 := by unfold s32; omega

theorem s32_eq_self {x : Int} (h : -2147483648 ≤ x ∧ x ≤ 2147483647) : s32 x = x := by unfold s32; omega

theorem s32_congr (x : Int) : (4294967296 : Int) ∣ x - s32 x := by unfold s32; omega

theorem centered_range (x : Int) : -1664 ≤ centered x ∧ centered x ≤ 1664 := by unfold centered; omega

theorem centered_congr (x : Int) : (3329 : Int) ∣ x - centered x := by unfold centered; omega

/-- Storing an integer in a coefficient and reading it back wraps it to 16 bits (R6). -/
@[simp] theorem toCoeff_toInt (x : Int) : (toCoeff x).toInt = s16 x := by
  unfold toCoeff s16
  rw [BitVec.toInt_ofInt]
  simp only [Int.bmod_def]
  omega

/-- A coefficient is a 16-bit signed number (R6). -/
theorem coeff_range (c : Coeff) : -32768 ≤ c.toInt ∧ c.toInt ≤ 32767 := by
  have h1 := BitVec.le_toInt c
  have h2 := BitVec.toInt_lt (x := c)
  norm_num at h1 h2
  omega

/-- Storing the value of a coefficient gives the coefficient. -/
@[simp] theorem toCoeff_coeff (c : Coeff) : toCoeff c.toInt = c := by
  simp [toCoeff]

theorem coeffAt_of_lt (r : Poly) {i : Nat} (h : i < 256) : coeffAt r i = (r[i]).toInt := by
  simp [coeffAt, h]

theorem coeffAt_of_ge (r : Poly) {i : Nat} (h : 256 ≤ i) : coeffAt r i = 0 := by
  simp [coeffAt, Nat.not_lt.mpr h]

theorem coeffAt_range (r : Poly) (i : Nat) : -32768 ≤ coeffAt r i ∧ coeffAt r i ≤ 32767 := by
  by_cases h : i < 256
  · rw [coeffAt_of_lt r h]; exact coeff_range _
  · rw [coeffAt_of_ge r (by omega)]; omega

/-- Coefficient `i` of a table of stored integers (R7). -/
@[simp] theorem coeffAt_tabulate (f : Nat → Coeff) {i : Nat} (h : i < 256) :
    coeffAt (tabulate 256 f) i = (f i).toInt := by
  simp [coeffAt, h]

/-- Two polynomials with the same coefficients are equal. -/
theorem poly_ext_coeffAt {a b : Poly} (h : ∀ i : Nat, i < 256 → coeffAt a i = coeffAt b i) : a = b := by
  refine poly_ext fun i hi => ?_
  have := h i hi
  rw [coeffAt_of_lt a hi, coeffAt_of_lt b hi] at this
  exact BitVec.eq_of_toInt_eq this

theorem normalize_lt (a : Int) : normalizeCoeff a < 65536 := by unfold normalizeCoeff; omega

/-- A coefficient in [-q, q) normalizes into [0, q) (R140). -/
theorem normalize_of_range {a : Int} (h : -3329 ≤ a ∧ a < 3329) :
    (normalizeCoeff a : Int) = if a < 0 then a + 3329 else a := by
  unfold normalizeCoeff
  split <;> omega

end Sys2Proof.Machine
end

