-- ==== Sys2Proof/Laws/Bus.lean ====
section
/-! SUPPORT. What a host access can do, said once: the cases of a read, of a write and of the issue of a command. -/

namespace Sys2Proof.Machine

/-- A read leaves at most the record of a read of an unwritten element. -/
theorem afterRead_cases (s : State) (r : Region) : ∃ (n : Nat) (b : Bool), s.afterRead r = s.noteRead n b := by
  cases r <;> first
    | exact ⟨_, _, rfl⟩
    | exact ⟨0, true, rfl⟩

/-- Issuing a word either accepts the command it decodes to or rejects it with its code. -/
theorem issue_cases (s : State) (w : Word) :
    (∃ i, decode s.build.npoly w = .ok i ∧ s.issue w = s.accept i) ∨
      (∃ e, decode s.build.npoly w = .error e ∧ s.issue w = s.raiseCmdError e) := by
  unfold State.issue
  cases h : decode s.build.npoly w with
  | ok i => exact .inl ⟨i, rfl, rfl⟩
  | error e => exact .inr ⟨e, rfl, rfl⟩

/-- An accepted command names only registers that exist. -/
theorem decode_wf {npoly : Nat} {w : Word} {i : Instr} (h : decode npoly w = .ok i) : i.wf npoly = true := by
  unfold decode at h
  split at h
  · cases h
  · split at h
    · cases h
    · split at h
      · cases h
      · split at h
        · cases h; assumption
        · cases h

/-- The cases of a host read: refused, or the word with the record it leaves. -/
theorem hostRead_cases (s : State) (off : Offset) (width : Width) :
    s.hostRead off width = s.raiseBusError ∨
      (wellFormedAccess off width = true ∧ (regionOf off).absent s.build.npoly = false ∧
        (s.busy && (regionOf off).readGated) = false ∧
        s.hostRead off width =
          (s.afterRead (regionOf off)).respond (.data (s.readWord (regionOf off)))) := by
  unfold State.hostRead
  cases h1 : wellFormedAccess off width
  · simp
  · cases h2 : (regionOf off).absent s.build.npoly
    · cases h3 : s.busy && (regionOf off).readGated
      · simp
      · simp
    · simp

/-- The cases of a host write: refused with nothing changed, a CMD write refused with OVR set, or performed. -/
theorem hostWrite_cases (s : State) (off : Offset) (width : Width) (v : Word) :
    s.hostWrite off width v = s.raiseBusError ∨
      (s.busy = true ∧ regionOf off = .cmd ∧ s.hostWrite off width v = s.setOvr.raiseBusError) ∨
      (wellFormedAccess off width = true ∧ (regionOf off).absent s.build.npoly = false ∧
        (regionOf off).readOnly = false ∧ (s.busy && (regionOf off).writeGated) = false ∧
        s.hostWrite off width v = (s.writeWord (regionOf off) v).respond .ok) := by
  unfold State.hostWrite
  cases h1 : wellFormedAccess off width
  · simp
  · cases h2 : (regionOf off).absent s.build.npoly
    · cases h3 : (regionOf off).readOnly
      · cases h4 : s.busy && (regionOf off).writeGated
        · simp
        · by_cases h5 : regionOf off = .cmd
          · have h6 : s.busy = true := by simp_all
            simp [h5, h6]
          · simp [h5]
      · simp
    · simp

/-- A read of an offset whose checks pass. -/
theorem hostRead_ok {s : State} {off : Offset} (h1 : off.toNat % 4 = 0)
    (h2 : (regionOf off).absent s.build.npoly = false) (h3 : (s.busy && (regionOf off).readGated) = false) :
    s.hostRead off .bits32 = (s.afterRead (regionOf off)).respond (.data (s.readWord (regionOf off))) := by
  simp [State.hostRead, wellFormedAccess, h1, h2, h3]

/-- A write at an offset whose checks pass. -/
theorem hostWrite_ok {s : State} {off : Offset} {v : Word} (h1 : off.toNat % 4 = 0)
    (h2 : (regionOf off).absent s.build.npoly = false) (h3 : (regionOf off).readOnly = false)
    (h4 : (s.busy && (regionOf off).writeGated) = false) :
    s.hostWrite off .bits32 v = (s.writeWord (regionOf off) v).respond .ok := by
  simp [State.hostWrite, wellFormedAccess, h1, h2, h3, h4]

/-- The polynomial window (R36). -/
theorem regionOf_poly {off : Offset} (h : 0x1000 ≤ off.toNat ∧ off.toNat < 0x3000) :
    regionOf off =
      .poly ⟨(off.toNat - 0x1000) / 0x200, by omega⟩ ⟨(off.toNat - 0x1000) % 0x200 / 4, by omega⟩ := by
  obtain ⟨h1, h2⟩ := h
  unfold regionOf
  iterate 8 rw [if_neg (by omega)]
  rw [dif_pos ⟨h1, h2⟩]

/-- The buffer window (R37). -/
theorem regionOf_buffer {off : Offset} (h : 0x3000 ≤ off.toNat ∧ off.toNat < 0x3180) :
    regionOf off = .buffer ⟨(off.toNat - 0x3000) / 4, by omega⟩ := by
  obtain ⟨h1, h2⟩ := h
  unfold regionOf
  iterate 8 rw [if_neg (by omega)]
  rw [dif_neg (by omega), dif_pos ⟨h1, h2⟩]

/-- The ROM window (R38). -/
theorem regionOf_rom {off : Offset} (h : 0x4000 ≤ off.toNat ∧ off.toNat < 0x4100) :
    regionOf off = .rom ⟨(off.toNat - 0x4000) / 4, by omega⟩ := by
  obtain ⟨h1, h2⟩ := h
  unfold regionOf
  iterate 8 rw [if_neg (by omega)]
  rw [dif_neg (by omega), dif_neg (by omega), dif_pos ⟨h1, h2⟩]

end Sys2Proof.Machine
end

