-- ==== Sys2Proof/Laws/Operands.lean ====
section
/-! SUPPORT. What the operand forms can do, said once: the values a command reads, and for each operand class when it
answers a next state, which one, and what that state leaves unchanged. -/

namespace Sys2Proof.Machine

/-! ### Reading sources -/

theorem polyValues_getElem (s : State) (p : PolyIdx) (i : Nat) (h : i < 256) :
    (s.polyValues p)[i] = (s.elem p i).valueOr (Config.freeCoeff (s.freeCount + i)) := by
  simp [State.polyValues]

/-- A command reads the stored value of every written coefficient. -/
theorem polyValues_reads (s : State) (p : PolyIdx) : s.Reads p (s.polyValues p) := by
  intro i h c hc
  rw [polyValues_getElem s p i h, hc]
  rfl

/-- A fully written register is read as one polynomial only. -/
theorem reads_unique {s : State} {p : PolyIdx} {a b : Poly} (hw : s.AllWritten p) (ha : s.Reads p a)
    (hb : s.Reads p b) : a = b := by
  refine poly_ext fun i hi => ?_
  have hi' := hw i hi
  cases he : s.elem p i with
  | unwritten => simp [he, Stored.isWritten] at hi'
  | holds c => rw [ha i hi c he, hb i hi c he]

@[simp] theorem bufValues_length (s : State) (j n : Nat) : (s.bufValues j n).length = n := by
  simp [State.bufValues]

/-- A command reads the stored value of every written byte. -/
theorem bufValues_reads (s : State) (n : Nat) : s.ReadsBuf n (s.bufValues 0 n) := by
  refine ⟨by simp, fun j b hj hb => ?_⟩
  simp [State.bufValues, hj, hb]

theorem bufWritten_iff (s : State) (n : Nat) : s.bufWritten 0 n = true ↔ s.BufAllWritten n := by
  simp [State.bufWritten, State.BufAllWritten, List.all_eq_true]

/-- The second source of a binary command is read from a state with the same elements. -/
theorem reads_noteRead {s : State} {p : PolyIdx} {a : Poly} {n : Nat} {b : Bool}
    (h : (s.noteRead n b).Reads p a) : s.Reads p a :=
  fun i hi c hc => h i hi c (by simpa using hc)

@[simp] theorem polyWritten_noteRead (s : State) (n : Nat) (b : Bool) (p : PolyIdx) :
    (s.noteRead n b).polyWritten p = s.polyWritten p := by
  simp [State.polyWritten]

@[simp] theorem hasReg_noteRead (s : State) (n : Nat) (b : Bool) (p : PolyIdx) :
    (s.noteRead n b).hasReg p = s.hasReg p := by
  simp [State.hasReg]

/-! ### The operand classes -/

/-- The scalar class always completes. -/
theorem runScalar_eq (f : Word → Word → Int) (s : State) :
    runScalar f s = .next (s.setSr (u32 (f s.sa s.sb))).complete := rfl

theorem runScalar_frame (f : Word → Word → Int) (s : State) :
    s.OnlySr (s.setSr (u32 (f s.sa s.sb))).complete := by
  simp [State.OnlySr, State.Completes]

theorem runUnary_eq {f : Poly → Poly} {rd rs1 : PolyIdx} {s : State} (h : s.hasReg rd = true)
    (h1 : s.hasReg rs1 = true) :
    runUnary f rd rs1 s =
      .next ((s.noteRead 256 (s.polyWritten rs1)).setPoly rd (f (s.polyValues rs1))).complete := by
  simp [runUnary, h, h1, State.readPoly]

theorem runBinary_eq {f : Poly → Poly → Poly} {rd rs1 rs2 : PolyIdx} {s : State} (h : s.hasReg rd = true)
    (h1 : s.hasReg rs1 = true) (h2 : s.hasReg rs2 = true) :
    runBinary f rd rs1 rs2 s =
      .next (((s.noteRead 256 (s.polyWritten rs1)).noteRead 256 (s.polyWritten rs2)).setPoly rd
        (f (s.polyValues rs1) ((s.noteRead 256 (s.polyWritten rs1)).polyValues rs2))).complete := by
  simp [runBinary, h, h1, h2, State.readPoly]

theorem runStore_eq {f : Poly → List Byte} {rs1 : PolyIdx} {s : State} (h1 : s.hasReg rs1 = true) :
    runStore f rs1 s =
      .next ((s.noteRead 256 (s.polyWritten rs1)).setBytes 0 (f (s.polyValues rs1))).complete := by
  simp [runStore, h1, State.readPoly]

theorem runLoad_eq {n : Nat} {f : List Byte → Poly} {rd : PolyIdx} {s : State} (h : s.hasReg rd = true) :
    runLoad n f rd s =
      .next ((s.noteRead n (s.bufWritten 0 n)).setPoly rd (f (s.bufValues 0 n))).complete := by
  simp [runLoad, h, State.readBytes]

theorem runUnary_fault {f : Poly → Poly} {rd rs1 : PolyIdx} {s : State}
    (h : (s.hasReg rd && s.hasReg rs1) = false) : runUnary f rd rs1 s = .fault .absentRegister := by
  simp [runUnary, h]

theorem runBinary_fault {f : Poly → Poly → Poly} {rd rs1 rs2 : PolyIdx} {s : State}
    (h : (s.hasReg rd && s.hasReg rs1 && s.hasReg rs2) = false) :
    runBinary f rd rs1 rs2 s = .fault .absentRegister := by
  simp [runBinary, h]

theorem runStore_fault {f : Poly → List Byte} {rs1 : PolyIdx} {s : State} (h : s.hasReg rs1 = false) :
    runStore f rs1 s = .fault .absentRegister := by
  simp [runStore, h]

theorem runLoad_fault {n : Nat} {f : List Byte → Poly} {rd : PolyIdx} {s : State} (h : s.hasReg rd = false) :
    runLoad n f rd s = .fault .absentRegister := by
  simp [runLoad, h]

/-! ### Frames of the written states -/

theorem setPoly_frame (s : State) (n m : Nat) (b c : Bool) (rd : PolyIdx) (r : Poly) :
    s.OnlyReg rd (((s.noteRead n b).noteRead m c).setPoly rd r).complete := by
  refine ⟨by simp [State.Completes], by simp, by simp, fun p i hp => ?_⟩
  simp [hp]

theorem setPoly_frame_one (s : State) (n : Nat) (b : Bool) (rd : PolyIdx) (r : Poly) :
    s.OnlyReg rd ((s.noteRead n b).setPoly rd r).complete := by
  simpa using setPoly_frame s n 0 b true rd r

theorem setBytes_frame (s : State) (n : Nat) (b : Bool) (bs : List Byte) :
    s.OnlyBuf bs.length ((s.noteRead n b).setBytes 0 bs).complete := by
  refine ⟨by simp [State.Completes], by simp, by simp, fun j hj => ?_⟩
  simp only [State.complete_buf, State.setBytes_buf, State.noteRead_buf, Memory.read_writeBytes]
  have : ¬(0 ≤ j ∧ j < 0 + bs.length) := by omega
  rw [if_neg this]

end Sys2Proof.Machine
end

