-- ==== Sys2Proof/Laws/PerInstr.lean ====
section
/-! SUPPORT. Per instruction: the fields of the encoded word are the fields of the command, and the reserved bits are
zero (spec/30_encoding.md R51, R52). -/

namespace Sys2Proof.Laws.EncodedFields

/-- The word of a command holds its opcode and its three fields at their places, and RES is 0. -/
def Statement (i : Instr) : Prop :=
  opField (encode i) = i.fields.1 ∧ rdField (encode i) = i.fields.2.1 ∧ rs1Field (encode i) = i.fields.2.2.1 ∧
    rs2Field (encode i) = i.fields.2.2.2 ∧ resField (encode i) = 0

/-- The fields of a word put together from fields in range. -/
theorem fields_of_sum (op : Nat) (rd rs1 rs2 : PolyIdx) (h : op < 256) :
    let w : Word := BitVec.ofNat 32 (op + rd.val * 256 + rs1.val * 4096 + rs2.val * 65536)
    opField w = op ∧ rdField w = rd ∧ rs1Field w = rs1 ∧ rs2Field w = rs2 ∧ resField w = 0 := by
  have h1 := rd.isLt
  have h2 := rs1.isLt
  have h3 := rs2.isLt
  have hw : (BitVec.ofNat 32 (op + rd.val * 256 + rs1.val * 4096 + rs2.val * 65536)).toNat =
      op + rd.val * 256 + rs1.val * 4096 + rs2.val * 65536 := by
    rw [BitVec.toNat_ofNat]
    exact Nat.mod_eq_of_lt (by omega)
  simp only [opField, rdField, rs1Field, rs2Field, resField, hw, Fin.ext_iff]
  omega

theorem montred : Statement .montred := fields_of_sum 0x10 0 0 0 (by decide)
theorem barrett : Statement .barrett := fields_of_sum 0x11 0 0 0 (by decide)
theorem fqmul : Statement .fqmul := fields_of_sum 0x12 0 0 0 (by decide)
theorem frommontS : Statement .frommontS := fields_of_sum 0x13 0 0 0 (by decide)
theorem ntt (rd rs1 : PolyIdx) : Statement (.ntt rd rs1) := fields_of_sum 0x20 rd rs1 0 (by decide)
theorem polyNtt (rd rs1 : PolyIdx) : Statement (.polyNtt rd rs1) := fields_of_sum 0x21 rd rs1 0 (by decide)
theorem invntt (rd rs1 : PolyIdx) : Statement (.invntt rd rs1) := fields_of_sum 0x22 rd rs1 0 (by decide)
theorem basemul (rd rs1 rs2 : PolyIdx) : Statement (.basemul rd rs1 rs2) :=
  fields_of_sum 0x30 rd rs1 rs2 (by decide)
theorem add (rd rs1 rs2 : PolyIdx) : Statement (.add rd rs1 rs2) := fields_of_sum 0x40 rd rs1 rs2 (by decide)
theorem sub (rd rs1 rs2 : PolyIdx) : Statement (.sub rd rs1 rs2) := fields_of_sum 0x41 rd rs1 rs2 (by decide)
theorem reduce (rd rs1 : PolyIdx) : Statement (.reduce rd rs1) := fields_of_sum 0x42 rd rs1 0 (by decide)
theorem frommont (rd rs1 : PolyIdx) : Statement (.frommont rd rs1) := fields_of_sum 0x43 rd rs1 0 (by decide)
theorem tobytes (rs1 : PolyIdx) : Statement (.tobytes rs1) := fields_of_sum 0x50 0 rs1 0 (by decide)
theorem frombytes (rd : PolyIdx) : Statement (.frombytes rd) := fields_of_sum 0x51 rd 0 0 (by decide)
theorem compress (rs1 : PolyIdx) : Statement (.compress rs1) := fields_of_sum 0x52 0 rs1 0 (by decide)
theorem decompress (rd : PolyIdx) : Statement (.decompress rd) := fields_of_sum 0x53 rd 0 0 (by decide)
theorem frommsg (rd : PolyIdx) : Statement (.frommsg rd) := fields_of_sum 0x54 rd 0 0 (by decide)
theorem tomsg (rs1 : PolyIdx) : Statement (.tomsg rs1) := fields_of_sum 0x55 0 rs1 0 (by decide)

end Sys2Proof.Laws.EncodedFields
end

