-- ==== Sys2Proof/Laws/Step.lean ====
section
/-! SUPPORT. What a command and a step can do, said once. -/

namespace Sys2Proof.Machine

/-! ### The bytes a command writes -/

/-- Groups of one length joined. -/
theorem length_flatMap_groups {α β : Type} (l : List α) (f : α → List β) (k : Nat) (h : ∀ x, (f x).length = k) :
    (l.flatMap f).length = l.length * k := by
  induction l with
  | nil => simp
  | cons x rest ih => rw [List.flatMap_cons, List.length_append, h, ih, List.length_cons, Nat.succ_mul]; omega

@[simp] theorem toBytesFn_length (a : Poly) : (toBytesFn a).length = 384 := by
  unfold toBytesFn
  rw [length_flatMap_groups _ _ 3 (fun _ => rfl), List.length_range]

@[simp] theorem compressFn_length (d : Nat) (a : Poly) : (compressFn d a).length = 32 * d := by
  unfold compressFn
  rw [length_flatMap_groups _ _ d (fun _ => by rw [List.length_map, List.length_range]), List.length_range]

@[simp] theorem toMsgFn_length (a : Poly) : (toMsgFn a).length = 32 := by
  unfold toMsgFn
  rw [List.length_map, List.length_range]

theorem DvWidth_bits_le (d : DvWidth) : d.bits ≤ 5 := by cases d <;> decide

/-! ### Commands -/

/-! ### Each command as its operand class -/

section
variable (s : State) (rd rs1 rs2 : PolyIdx)

theorem exec_montred : exec .montred s = runScalar (fun sa _ => montgomeryReduce (sext32 sa)) s := rfl
theorem exec_barrett : exec .barrett s = runScalar (fun sa _ => barrettReduce (sext16 sa)) s := rfl
theorem exec_fqmul : exec .fqmul s = runScalar (fun sa sb => fqmul (sext16 sa) (sext16 sb)) s := rfl
theorem exec_frommontS : exec .frommontS s = runScalar (fun sa _ => frommontFn (sext32 sa)) s := rfl
theorem exec_ntt : exec (.ntt rd rs1) s = runUnary nttFn rd rs1 s := rfl
theorem exec_polyNtt : exec (.polyNtt rd rs1) s = runUnary (fun a => reducePoly (nttFn a)) rd rs1 s := rfl
theorem exec_invntt : exec (.invntt rd rs1) s = runUnary invnttFn rd rs1 s := rfl
theorem exec_basemul : exec (.basemul rd rs1 rs2) s = runBinary basemulFn rd rs1 rs2 s := rfl
theorem exec_add : exec (.add rd rs1 rs2) s = runBinary addFn rd rs1 rs2 s := rfl
theorem exec_sub : exec (.sub rd rs1 rs2) s = runBinary subFn rd rs1 rs2 s := rfl
theorem exec_reduce : exec (.reduce rd rs1) s = runUnary reducePoly rd rs1 s := rfl
theorem exec_frommont : exec (.frommont rd rs1) s = runUnary frommontPoly rd rs1 s := rfl
theorem exec_tobytes : exec (.tobytes rs1) s = runStore toBytesFn rs1 s := rfl
theorem exec_frombytes : exec (.frombytes rd) s = runLoad 384 fromBytesFn rd s := rfl
theorem exec_compress : exec (.compress rs1) s = runStore (compressFn s.build.dv.bits) rs1 s := rfl
theorem exec_decompress : exec (.decompress rd) s = runLoad (32 * s.build.dv.bits) (decompressFn s.build.dv.bits) rd s := rfl
theorem exec_frommsg : exec (.frommsg rd) s = runLoad 32 fromMsgFn rd s := rfl
theorem exec_tomsg : exec (.tomsg rs1) s = runStore toMsgFn rs1 s := rfl

end

theorem runUnary_cases {f : Poly → Poly} {rd rs1 : PolyIdx} {s t : State} (h : runUnary f rd rs1 s = .next t) :
    s.hasReg rd = true ∧ ∃ (b : Bool) (r : Poly), t = ((s.noteRead 256 b).setPoly rd r).complete := by
  unfold runUnary at h
  split at h
  · rename_i hc
    cases h
    exact ⟨by simp_all, _, _, rfl⟩
  · cases h

theorem runBinary_cases {f : Poly → Poly → Poly} {rd rs1 rs2 : PolyIdx} {s t : State}
    (h : runBinary f rd rs1 rs2 s = .next t) :
    s.hasReg rd = true ∧
      ∃ (b c : Bool) (r : Poly), t = (((s.noteRead 256 b).noteRead 256 c).setPoly rd r).complete := by
  unfold runBinary at h
  split at h
  · rename_i hc
    cases h
    exact ⟨by simp_all, _, _, _, rfl⟩
  · cases h

theorem runStore_cases {f : Poly → List Byte} {rs1 : PolyIdx} {s t : State} (h : runStore f rs1 s = .next t) :
    ∃ (b : Bool) (a : Poly), t = ((s.noteRead 256 b).setBytes 0 (f a)).complete := by
  unfold runStore at h
  split at h
  · cases h
    exact ⟨_, _, rfl⟩
  · cases h

theorem runLoad_cases {n : Nat} {f : List Byte → Poly} {rd : PolyIdx} {s t : State}
    (h : runLoad n f rd s = .next t) :
    s.hasReg rd = true ∧ ∃ (b : Bool) (r : Poly), t = ((s.noteRead n b).setPoly rd r).complete := by
  unfold runLoad at h
  split at h
  · rename_i hc
    cases h
    exact ⟨hc, _, _, rfl⟩
  · cases h

/-- A command that completes writes SR, or one register that exists, or a prefix of BUF, and nothing else but the
record of a read of an unwritten element and the completion. -/
theorem exec_cases {i : Instr} {s t : State} (h : exec i s = .next t) :
    (∃ v, t = (s.setSr v).complete) ∨
      (∃ (rd : PolyIdx) (n m : Nat) (b c : Bool) (r : Poly), s.hasReg rd = true ∧
        t = (((s.noteRead n b).noteRead m c).setPoly rd r).complete) ∨
      (∃ (n : Nat) (b : Bool) (bs : List Byte), bs.length ≤ 384 ∧
        t = ((s.noteRead n b).setBytes 0 bs).complete) := by
  have scalar : ∀ {f}, runScalar f s = .next t → ∃ v, t = (s.setSr v).complete := by
    intro f h; cases h; exact ⟨_, rfl⟩
  have unary : ∀ {f rd rs1}, runUnary f rd rs1 s = .next t →
      ∃ (rd : PolyIdx) (n m : Nat) (b c : Bool) (r : Poly), s.hasReg rd = true ∧
        t = (((s.noteRead n b).noteRead m c).setPoly rd r).complete := by
    intro f rd rs1 h
    obtain ⟨hr, b, r, rfl⟩ := runUnary_cases h
    exact ⟨rd, 256, 0, b, true, r, hr, rfl⟩
  have binary : ∀ {f rd rs1 rs2}, runBinary f rd rs1 rs2 s = .next t →
      ∃ (rd : PolyIdx) (n m : Nat) (b c : Bool) (r : Poly), s.hasReg rd = true ∧
        t = (((s.noteRead n b).noteRead m c).setPoly rd r).complete := by
    intro f rd rs1 rs2 h
    obtain ⟨hr, b, c, r, rfl⟩ := runBinary_cases h
    exact ⟨rd, 256, 256, b, c, r, hr, rfl⟩
  have load : ∀ {n f rd}, runLoad n f rd s = .next t →
      ∃ (rd : PolyIdx) (n m : Nat) (b c : Bool) (r : Poly), s.hasReg rd = true ∧
        t = (((s.noteRead n b).noteRead m c).setPoly rd r).complete := by
    intro n f rd h
    obtain ⟨hr, b, r, rfl⟩ := runLoad_cases h
    exact ⟨rd, n, 0, b, true, r, hr, rfl⟩
  have store : ∀ {f rs1}, (∀ a, (f a).length ≤ 384) → runStore f rs1 s = .next t →
      ∃ (n : Nat) (b : Bool) (bs : List Byte), bs.length ≤ 384 ∧
        t = ((s.noteRead n b).setBytes 0 bs).complete := by
    intro f rs1 hl h
    obtain ⟨b, a, rfl⟩ := runStore_cases h
    exact ⟨256, b, f a, hl a, rfl⟩
  cases i with
  | montred => rw [exec_montred] at h; exact .inl (scalar h)
  | barrett => rw [exec_barrett] at h; exact .inl (scalar h)
  | fqmul => rw [exec_fqmul] at h; exact .inl (scalar h)
  | frommontS => rw [exec_frommontS] at h; exact .inl (scalar h)
  | ntt rd rs1 => rw [exec_ntt] at h; exact .inr (.inl (unary h))
  | polyNtt rd rs1 => rw [exec_polyNtt] at h; exact .inr (.inl (unary h))
  | invntt rd rs1 => rw [exec_invntt] at h; exact .inr (.inl (unary h))
  | basemul rd rs1 rs2 => rw [exec_basemul] at h; exact .inr (.inl (binary h))
  | add rd rs1 rs2 => rw [exec_add] at h; exact .inr (.inl (binary h))
  | sub rd rs1 rs2 => rw [exec_sub] at h; exact .inr (.inl (binary h))
  | reduce rd rs1 => rw [exec_reduce] at h; exact .inr (.inl (unary h))
  | frommont rd rs1 => rw [exec_frommont] at h; exact .inr (.inl (unary h))
  | tobytes rs1 => rw [exec_tobytes] at h; exact .inr (.inr (store (by simp) h))
  | frombytes rd => rw [exec_frombytes] at h; exact .inr (.inl (load h))
  | compress rs1 =>
    rw [exec_compress] at h
    exact .inr (.inr (store (fun a => by have := DvWidth_bits_le s.build.dv; simp; omega) h))
  | decompress rd => rw [exec_decompress] at h; exact .inr (.inl (load h))
  | frommsg rd => rw [exec_frommsg] at h; exact .inr (.inl (load h))
  | tomsg rs1 => rw [exec_tomsg] at h; exact .inr (.inr (store (by simp) h))

/-! ### Steps -/

/-- The cases of a step that answers a next state: nothing happens, the pending command runs, a host access, or a
reset. -/
theorem step_cases {s t : State} (h : step s = .next t) :
    (s.inputs = [] ∧ engineStep s = .next t) ∨
      (∃ rest, s.inputs = .engine :: rest ∧ engineStep { s with inputs := rest } = .next t) ∨
      (∃ addr a rest, s.inputs = .host addr a :: rest ∧
        t = State.hostAccess { s with inputs := rest } addr a) ∨
      (∃ rest, s.inputs = .reset :: rest ∧ t = State.resetEvent { s with inputs := rest }) := by
  unfold step at h
  split at h
  · rename_i hi
    exact .inl ⟨hi, h⟩
  · rename_i addr a rest hi
    cases h
    exact .inr (.inr (.inl ⟨addr, a, rest, hi, rfl⟩))
  · rename_i rest hi
    exact .inr (.inl ⟨rest, hi, h⟩)
  · rename_i rest hi
    cases h
    exact .inr (.inr (.inr ⟨rest, hi, rfl⟩))

/-! ### Runs -/

theorem run_zero (s : State) : core.run 0 s = .next s := rfl

/-- A run of any machine takes a first step that answers a next state. -/
theorem run_next {M : Host.Core} {s t : M.State} (k : Nat) (h : M.step s = .next t) :
    M.run (k + 1) s = M.run k t := by
  simp only [Host.Core.run, h]

/-- A run of any machine that answers a next state takes a first step that does. -/
theorem run_next_cases {M : Host.Core} {s t : M.State} {k : Nat} (h : M.run (k + 1) s = .next t) :
    ∃ u : M.State, M.step s = .next u ∧ M.run k u = .next t := by
  simp only [Host.Core.run] at h
  split at h
  · exact ⟨_, ‹_›, h⟩
  · cases h
  · cases h

/-- The same of this machine, in its own names. -/
theorem run_succ {s t : State} (k : Nat) (h : step s = .next t) : core.run (k + 1) s = core.run k t :=
  run_next (M := core) k h

theorem run_succ_cases {s t : State} {k : Nat} (h : core.run (k + 1) s = .next t) :
    ∃ u : State, step s = .next u ∧ core.run k u = .next t := run_next_cases (M := core) h

/-- Once a run is over, a step that goes on leaves it over and adds no response. -/
theorem runOver_step {s t : State} (ho : s.runOver) (h : step s = .next t) :
    t.runOver ∧ t.responses = s.responses := by
  obtain ⟨hd, hp⟩ := ho
  unfold step at h
  split at h
  · simp only [engineStep, hp] at h
    cases h
    exact ⟨⟨hd, hp⟩, rfl⟩
  · rename_i hi
    simp [State.hostDone, hi, Input.isHost] at hd
  · rename_i rest hi
    simp only [engineStep, hp] at h
    cases h
    refine ⟨⟨?_, rfl⟩, rfl⟩
    simpa [State.hostDone, hi, Input.isHost] using hd
  · rename_i rest hi
    cases h
    refine ⟨⟨?_, rfl⟩, rfl⟩
    simpa [State.hostDone, hi, Input.isHost, State.resetEvent] using hd

/-! ### The engine and the host -/

/-- The engine's turn: with no command pending nothing happens, else the command runs. -/
theorem engineStep_cases {s t : State} (h : engineStep s = .next t) :
    (s.pending = none ∧ t = s) ∨ ∃ i, s.pending = some i ∧ exec i s = .next t := by
  unfold engineStep at h
  split at h
  · rename_i hp
    cases h
    exact .inl ⟨hp, rfl⟩
  · rename_i i hp
    exact .inr ⟨i, hp, h⟩

/-- A host access is outside the window and changes nothing, or a read or a write at an offset. -/
theorem hostAccess_cases (s : State) (addr : Nat) (a : Access) :
    s.hostAccess addr a = s ∨
      (∃ width, a = .read width ∧
        s.hostAccess addr a = s.hostRead (BitVec.ofNat 15 (addr - s.build.base)) width) ∨
      (∃ width v, a = .write width v ∧
        s.hostAccess addr a = s.hostWrite (BitVec.ofNat 15 (addr - s.build.base)) width v) := by
  unfold State.hostAccess
  split
  · cases a with
    | read width => exact .inr (.inl ⟨width, rfl, rfl⟩)
    | write width v => exact .inr (.inr ⟨width, v, rfl, rfl⟩)
  · exact .inl rfl

end Sys2Proof.Machine
end

