-- ==== Sys2Proof/Tests/Slice0.lean ====
section
/-! SUPPORT. The model's own tests: ill-formed terms refused, words written out from the spec's encoding, one command
at a time on values of spec/95_test_vectors.md or of the rules' own examples, and for each statement with hypotheses a
state and operands that meet them. -/

namespace Sys2Proof.Tests

open Sys2Proof Sys2Proof.Machine

/-! ### Ill-formed terms -/

/-- Each register field of each class is checked (R57). -/
theorem test_wf_refuses_absent_registers :
    Instr.wf 8 (.ntt 8 0) = false ∧ Instr.wf 8 (.ntt 0 8) = false ∧ Instr.wf 8 (.polyNtt 8 0) = false ∧
    Instr.wf 8 (.invntt 0 15) = false ∧ Instr.wf 8 (.basemul 8 0 0) = false ∧ Instr.wf 8 (.basemul 0 8 0) = false ∧
    Instr.wf 8 (.basemul 0 0 8) = false ∧ Instr.wf 1 (.add 0 0 1) = false ∧ Instr.wf 1 (.sub 1 0 0) = false ∧
    Instr.wf 8 (.reduce 0 8) = false ∧ Instr.wf 8 (.frommont 8 0) = false ∧ Instr.wf 8 (.tobytes 8) = false ∧
    Instr.wf 8 (.frombytes 8) = false ∧ Instr.wf 8 (.compress 9) = false ∧ Instr.wf 8 (.decompress 10) = false ∧
    Instr.wf 8 (.frommsg 8) = false ∧ Instr.wf 15 (.tomsg 15) = false := by decide

/-- The last register that exists is accepted, and a scalar command names none. -/
theorem test_wf_accepts_existing_registers :
    Instr.wf 8 (.basemul 7 7 7) = true ∧ Instr.wf 16 (.add 15 15 15) = true ∧ Instr.wf 1 (.tomsg 0) = true ∧
    Instr.wf 1 .montred = true := by decide

/-- No engine has NPOLY outside 1..16 or DV outside 4, 5 (R21, R149). -/
theorem test_build_refuses_illegal_parameters :
    Build.make? 0 4 0 = none ∧ Build.make? 17 4 0 = none ∧ Build.make? 8 3 0 = none ∧ Build.make? 8 6 0 = none ∧
    Build.make? 8 4 0 = some Config.build ∧ (Build.make? 16 5 0).isSome = true ∧
    (Build.make? 1 4 7).isSome = true := by decide

/-! ### Decoding -/

/-- A command word from its fields' bits as R51 draws them: RES, RS2, RS1, RD, OP. -/
def wordOf (res : BitVec 12) (rs2 rs1 rd : BitVec 4) (op : BitVec 8) : Word := res ++ rs2 ++ rs1 ++ rd ++ op

/-- The four scalar commands (R54). -/
theorem test_decode_scalar :
    decode 8 (wordOf 0 0b0000#4 0b0000#4 0b0000#4 0b00010000#8) = .ok .montred ∧
    decode 8 (wordOf 0 0b0000#4 0b0000#4 0b0000#4 0b00010001#8) = .ok .barrett ∧
    decode 8 (wordOf 0 0b0000#4 0b0000#4 0b0000#4 0b00010010#8) = .ok .fqmul ∧
    decode 8 (wordOf 0 0b0000#4 0b0000#4 0b0000#4 0b00010011#8) = .ok .frommontS := by decide

/-- The five unary commands (R54, R60). -/
theorem test_decode_unary :
    decode 16 (wordOf 0 0b0000#4 0b0110#4 0b1001#4 0b00100000#8) = .ok (.ntt 9 6) ∧
    decode 16 (wordOf 0 0b0000#4 0b0001#4 0b0011#4 0b00100001#8) = .ok (.polyNtt 3 1) ∧
    decode 16 (wordOf 0 0b0000#4 0b0100#4 0b0101#4 0b00100010#8) = .ok (.invntt 5 4) ∧
    decode 16 (wordOf 0 0b0000#4 0b1100#4 0b0010#4 0b01000010#8) = .ok (.reduce 2 12) ∧
    decode 16 (wordOf 0 0b0000#4 0b1111#4 0b0000#4 0b01000011#8) = .ok (.frommont 0 15) := by decide

/-- The three binary commands (R54, R60). -/
theorem test_decode_binary :
    decode 16 (wordOf 0 0b0011#4 0b0010#4 0b0100#4 0b00110000#8) = .ok (.basemul 4 2 3) ∧
    decode 16 (wordOf 0 0b0010#4 0b0011#4 0b0100#4 0b01000000#8) = .ok (.add 4 3 2) ∧
    decode 16 (wordOf 0 0b1110#4 0b0111#4 0b1011#4 0b01000001#8) = .ok (.sub 11 7 14) := by decide

/-- The six codec commands (R54, R60). -/
theorem test_decode_codec :
    decode 16 (wordOf 0 0b0000#4 0b1010#4 0b0000#4 0b01010000#8) = .ok (.tobytes 10) ∧
    decode 16 (wordOf 0 0b0000#4 0b0000#4 0b1010#4 0b01010001#8) = .ok (.frombytes 10) ∧
    decode 16 (wordOf 0 0b0000#4 0b0101#4 0b0000#4 0b01010010#8) = .ok (.compress 5) ∧
    decode 16 (wordOf 0 0b0000#4 0b0000#4 0b0010#4 0b01010011#8) = .ok (.decompress 2) ∧
    decode 16 (wordOf 0 0b0000#4 0b0000#4 0b1101#4 0b01010100#8) = .ok (.frommsg 13) ∧
    decode 16 (wordOf 0 0b0000#4 0b0011#4 0b0000#4 0b01010101#8) = .ok (.tomsg 3) := by decide

/-- Table V11, the refused words, NPOLY = 8 and 16. -/
theorem test_decode_rejects :
    decode 8 0x00000000 = .error .illegalOpcode ∧ decode 8 0x000000FF = .error .illegalOpcode ∧
    decode 8 0x00000044 = .error .illegalOpcode ∧ decode 16 0xFFFFFFFF = .error .illegalOpcode ∧
    decode 8 0x00F00020 = .error .reservedField ∧ decode 8 0x00000110 = .error .reservedField ∧
    decode 8 0x00010012 = .error .reservedField ∧ decode 8 0x00100012 = .error .reservedField ∧
    decode 8 0x00008020 = .error .polyIndex ∧ decode 16 0x00008020 = .ok (.ntt 0 8) ∧
    decode 8 0x00320030 = .error .reservedField ∧ decode 8 0x00088030 = .error .polyIndex ∧
    decode 8 0x0000F043 = .error .polyIndex ∧ decode 8 0x00000150 = .error .reservedField ∧
    decode 8 0x00001051 = .error .reservedField := by decide

/-- The encoder writes the words of the spec's own examples (R52, Programs 2 and 3). -/
theorem test_encode :
    encode (.basemul 4 2 3) = 0x00032430 ∧ encode (.polyNtt 2 0) = 0x00000221 ∧
    encode (.invntt 7 6) = 0x00006722 ∧ encode (.tomsg 4) = 0x00004055 ∧ encode (.frommsg 3) = 0x00000354 ∧
    encode .fqmul = 0x00000012 := by decide

/-- The same decoder on bytes, lowest offset first (R34), and the host's question. -/
theorem test_decode_bytes :
    decodeBytes 8 [0x30, 0x24, 0x03, 0x00] = some (.ok (.basemul 4 2 3)) ∧ decodeBytes 8 [0x30, 0x24, 0x03] = none ∧
    decodeTableWord 32 0x00023440 = some (.add 4 3 2) ∧ decodeTableWord 32 0x00008020 = none := by decide

/-! ### Commands, one step each -/

/-- The polynomial of the listed coefficients, 0 elsewhere. -/
def polyOf (l : List Int) : Poly := tabulate 256 fun i => toCoeff (l.getD i 0)

/-- The ramp of table V5. -/
def ramp : Poly := tabulate 256 fun i => toCoeff i

/-- One value at every index. -/
def allOf (x : Int) : Poly := tabulate 256 fun _ => toCoeff x

/-- After reset, with p0 and p1 written. -/
def withPolys (a b : Poly) : State := (State.reset.setPoly 0 a).setPoly 1 b

/-- After reset, with `BUF[0..n-1]` the listed bytes and 0 after them. -/
def withBuf (n : Nat) (l : List Byte) : State :=
  State.reset.setBytes 0 ((List.range n).map fun j => l.getD j 0)

/-- After reset, with SA and SB. -/
def withScalars (a b : Word) : State := { State.reset with sa := a, sb := b }

/-- The engine of DV = 5 in place of the one of `s`. -/
def onFive (s : State) : State := { s with build := { s.build with dv := .five } }

/-- SR after the command. -/
def srAfter : Result → Option Word
  | .next t => some t.sr
  | _ => none

/-- The listed coefficients of a register after the command. -/
def coeffsAfter (o : Result) (p : PolyIdx) (is : List Nat) : Option (List (Option Int)) :=
  match o with
  | .next t => some (is.map fun i => match t.elem p i with | .unwritten => none | .holds c => some c.toInt)
  | _ => none

/-- The listed bytes of BUF after the command. -/
def bytesAfter (o : Result) (js : List Nat) : Option (List (Option Byte)) :=
  match o with
  | .next t => some (js.map t.buf.read)
  | _ => none

/-- Table V1. -/
theorem test_montred :
    srAfter (exec .montred (withScalars 0xFFAD3E55 0)) = some 0x000000A0 ∧
    srAfter (exec .montred (withScalars 0x7FFFFFF6 0)) = some 0xFFFF8667 ∧
    srAfter (exec .montred (withScalars 0x06808000 0)) = some 0x00000D01 := by decide

/-- Table V2; the upper half of SA is ignored. -/
theorem test_barrett :
    srAfter (exec .barrett (withScalars 0x00007FFF 0)) = some 0xFFFFFDF5 ∧
    srAfter (exec .barrett (withScalars 0x00010005 0)) = some 0x00000005 ∧
    srAfter (exec .barrett (withScalars 0x0000F97F 0)) = some 0x00000680 := by decide

/-- Table V3. -/
theorem test_fqmul :
    srAfter (exec .fqmul (withScalars 0x0000F300 0x00000D00)) = some 0xFFFFFF57 ∧
    srAfter (exec .fqmul (withScalars 0x00017FFF 0x00007FFF)) = some 0x000040A8 ∧
    srAfter (exec .fqmul (withScalars 1000 2285)) = some 1000 := by decide

/-- Table V4. -/
theorem test_frommontS :
    srAfter (exec .frommontS (withScalars 80625 0)) = some 0x000004F1 ∧
    srAfter (exec .frommontS (withScalars 0x7FFFFFFF 0)) = some 0xFFFF8414 ∧
    srAfter (exec .frommontS (withScalars 0xFFFFFFFF 0)) = some 0x00000414 := by decide

/-- Table V5, NTT of the ramp. -/
theorem test_ntt : coeffsAfter (exec (.ntt 2 0) (withPolys ramp ramp)) 2 [1] = some [some (-484)] := by
  decide +kernel

/-- Table V5, POLY_NTT of the ramp, in place. -/
theorem test_polyNtt : coeffsAfter (exec (.polyNtt 0 0) (withPolys ramp ramp)) 0 [4] = some [some (-1464)] := by
  decide +kernel

/-- Table V5, INVNTT of the ramp. -/
theorem test_invntt : coeffsAfter (exec (.invntt 2 1) (withPolys ramp ramp)) 2 [1] = some [some (-472)] := by
  decide +kernel

/-- Table V6: the square of POLY_NTT(x), whose every pair is (0, 1); the conjugate twiddle in each second pair. -/
theorem test_basemul :
    coeffsAfter (exec (.basemul 2 0 0) (withPolys (tabulate 256 fun i => toCoeff (i % 2 : Nat)) ramp)) 2
      [0, 1, 2, 3, 4, 6, 8] =
      some [some (-456), some 0, some 456, some 0, some 549, some (-549), some (-1343)] := by decide +kernel

/-- Table V7, ADD. -/
theorem test_add :
    coeffsAfter (exec (.add 0 0 1) (withPolys (polyOf [32767, -32768, 1, 3328]) (polyOf [1, -1, -1, 3328]))) 0
      [0, 1, 2, 3] = some [some (-32768), some 32767, some 0, some 6656] := by decide +kernel

/-- Table V7, SUB: the first source is the minuend. -/
theorem test_sub :
    coeffsAfter (exec (.sub 1 0 1) (withPolys (polyOf [-32768, 32767, 0, 5]) (polyOf [1, -1, 3329, 7]))) 1
      [0, 1, 2, 3] = some [some 32767, some (-32768), some (-3329), some (-2)] := by decide +kernel

/-- Table V7, REDUCE. -/
theorem test_reduce :
    coeffsAfter (exec (.reduce 3 0) (withPolys (polyOf [32767, -32768, 3329, -3329, 1664, 1665, 6656, -6656]) ramp))
      3 [0, 1, 2, 3, 4, 5, 6, 7] =
      some [some (-523), some 522, some 0, some 0, some 1664, some (-1664), some (-2), some 2] := by decide +kernel

/-- Table V7, FROMMONT. -/
theorem test_frommont :
    coeffsAfter (exec (.frommont 3 0) (withPolys (polyOf [1, -1, 32767, -32768, 2285, 169, 0, 3328]) ramp))
      3 [0, 1, 2, 3, 4, 5, 6, 7] =
      some [some (-1044), some 1044, some 56, some 988, some 1353, some 1, some 0, some 1044] := by decide +kernel

/-- Table V8, TOBYTES. -/
theorem test_tobytes :
    bytesAfter (exec (.tobytes 0) (withPolys (polyOf [1, 2, 0xABC, 0x123, -1, 0]) ramp)) [0, 1, 2, 3, 4, 5, 6, 7, 8] =
      some [some 0x01, some 0x20, some 0x00, some 0xBC, some 0x3A, some 0x12, some 0x00, some 0x0D, some 0x00] := by
  decide +kernel

/-- Table V8, TOBYTES of values that normalize to 4096 or more. -/
theorem test_tobytes_wide :
    bytesAfter (exec (.tobytes 0) (withPolys (polyOf [4096, 0, -3330, 0]) ramp)) [0, 1, 2, 3, 4, 5] =
      some [some 0x00, some 0x10, some 0x00, some 0xFF, some 0xFF, some 0x00] := by decide +kernel

/-- Table V8, FROMBYTES. -/
theorem test_frombytes :
    coeffsAfter (exec (.frombytes 2) (withBuf 384 [0xBC, 0x3A, 0x12, 0x01, 0xD0, 0xFF])) 2 [0, 1, 2, 3] =
      some [some 2748, some 291, some 1, some 4093] := by decide +kernel

/-- The polynomial of table V9. -/
def polyV9 : Poly := polyOf [1664, 3328, 1, 208, 416, 624, 832, 1040]

/-- Table V9, COMPRESS on the engine of DV = 4; the byte after the stream stays unwritten. -/
theorem test_compress_four :
    bytesAfter (exec (.compress 0) (withPolys polyV9 ramp)) [0, 1, 2, 3, 127, 128] =
      some [some 0x08, some 0x10, some 0x32, some 0x54, some 0x00, none] := by decide +kernel

/-- Table V9, COMPRESS on the engine of DV = 5. -/
theorem test_compress_five :
    bytesAfter (exec (.compress 0) (onFive (withPolys polyV9 ramp))) [0, 1, 2, 3, 4, 159, 160] =
      some [some 0x10, some 0x00, some 0x41, some 0x0C, some 0x52, some 0x00, none] := by decide +kernel

/-- Table V9, DECOMPRESS on the engine of DV = 4. -/
theorem test_decompress_four :
    coeffsAfter (exec (.decompress 2) (withBuf 128 [0x08, 0x10, 0x32, 0x54])) 2 [0, 1, 2, 3, 4, 5, 6, 7] =
      some [some 1665, some 0, some 0, some 208, some 416, some 624, some 832, some 1040] := by decide +kernel

/-- Table V9, DECOMPRESS on the engine of DV = 5. -/
theorem test_decompress_five :
    coeffsAfter (exec (.decompress 2) (onFive (withBuf 160 [0x10, 0x00, 0x41, 0x0C, 0x52]))) 2
      [0, 1, 2, 3, 4, 5, 6, 7] =
      some [some 1665, some 0, some 0, some 208, some 416, some 624, some 832, some 1040] := by decide +kernel

/-- Table V10, FROMMSG. -/
theorem test_frommsg :
    coeffsAfter (exec (.frommsg 3) (withBuf 32 [0x01, 0x80])) 3 [0, 1, 7, 8, 14, 15, 16] =
      some [some 1665, some 0, some 0, some 0, some 0, some 1665, some 0] := by decide +kernel

/-- Table V10, TOMSG. -/
theorem test_tomsg :
    bytesAfter (exec (.tomsg 0) (withPolys (polyOf [833, 832, 2496, 2497, -833, -1664, -2496, -2497, 3330, 0, 0, 208,
      416, 624, 832, 1040]) ramp)) [0, 1, 31, 32] = some [some 0x75, some 0x80, some 0x00, none] := by decide +kernel

/-- Table V10, single values. -/
theorem test_tomsg_bits :
    [0, 832, 833, 1664, 1665, 2496, 2497, 3328, 4161, 4162, 32767, -32768, -4000, -1].map msgBit =
      [0, 0, 1, 1, 1, 1, 0, 0, 0, 1, 0, 0, 1, 0] := by decide

/-! ### Host accesses, one step each -/

/-- What the host gets from a read of `off` in the state. -/
def readAt (s : State) (off : Offset) : List Response := (s.hostRead off .bits32).responses

/-- Table V12, the reads right after reset. -/
theorem test_window_after_reset :
    readAt State.reset 0x000 = [.data 0x4B504531] ∧ readAt State.reset 0x004 = [.data 0x00000408] ∧
    readAt State.reset 0x008 = [.data 0] ∧ readAt State.reset 0x00C = [.data 0] ∧
    readAt State.reset 0x010 = [.data 0] ∧ readAt State.reset 0x014 = [.data 0] ∧
    readAt State.reset 0x018 = [.data 0] ∧ readAt State.reset 0x01C = [.data 0] ∧
    readAt State.reset 0x4000 = [.data 0xFD0AFBEC] ∧ readAt State.reset 0x40FC = [.data 0x065C05F2] := by
  decide +kernel

/-- Table V12, the refused accesses. -/
theorem test_window_refusals :
    readAt State.reset 0x002 = [.busError] ∧ readAt State.reset 0x2000 = [.busError] ∧
    readAt State.reset 0x0020 = [.busError] ∧
    State.reset.hostWrite 0x4000 .bits32 0 = State.reset.refusedAccess ∧
    State.reset.hostWrite 0x01C .bits32 5 = State.reset.refusedAccess ∧
    State.reset.hostWrite 0x014 .bits16 5 = State.reset.refusedAccess := by decide +kernel

/-- Table V12: a read of an unwritten word is recorded as a model fault. -/
theorem test_unwritten_read_is_recorded :
    (State.reset.hostRead 0x1000 .bits32).unwrittenRead = true ∧
    ((State.reset.setCoeffs 0 0 1 2).hostRead 0x1000 .bits32).unwrittenRead = false ∧
    readAt (State.reset.setCoeffs 0 0 1 (-2)) 0x1000 = [.data 0xFFFE0001] := by decide +kernel

/-- Program 3: four bytes of the buffer window in one word. -/
theorem test_buffer_word : readAt (withBuf 4 [0x80, 0x06, 0xD0, 0x01]) 0x3000 = [.data 0x01D00680] := by
  decide +kernel

/-- Program 4: rejections, their code, and the acknowledgement. -/
theorem test_rejections :
    (State.reset.hostWrite 0x00C .bits32 0xFFFFFFFF).statusWord = 0x00000106 ∧
    ((State.reset.hostWrite 0x00C .bits32 0xFFFFFFFF).hostWrite 0x00C .bits32 0x00008020).statusWord = 0x00000306 ∧
    (((State.reset.hostWrite 0x00C .bits32 0xFFFFFFFF).hostWrite 0x008 .bits32 0x00000004).statusWord
      = 0x00000002) := by decide +kernel

/-- Program 4: the engine with `ntt p1, p0` pending and both interrupts enabled. -/
def busyState : State := { withPolys ramp ramp with pending := some (.ntt 1 0), doneIe := true, errIe := true }

/-- Program 4: a CMD write and a data read while BUSY = 1. -/
theorem test_busy_hazard :
    busyState.statusWord = 0x00000001 ∧ busyState.irq = false ∧
    (busyState.hostWrite 0x00C .bits32 0x00000120).statusWord = 0x00000009 ∧
    (busyState.hostWrite 0x00C .bits32 0x00000120).irq = true ∧
    readAt busyState 0x1000 = [.busError] ∧ readAt busyState 0x4000 = [.data 0xFD0AFBEC] ∧
    (busyState.hostWrite 0x00C .bits8 0).ovr = false := by decide +kernel

/-- A reset with a command pending (R190, R191). -/
theorem test_reset_abandons_command :
    busyState.resetEvent.pending = none ∧ busyState.resetEvent.elem 0 0 = .unwritten ∧
    busyState.resetEvent.irq = false := by decide +kernel

/-- A run ends at the host's last access with nothing pending, so a reset listed after it is not in the observation
(R199). -/
theorem test_trailing_reset_is_after_the_run :
    let s : State := { withScalars 5 0 with inputs := [.host 0x014 (.read .bits32), .engine, .reset] }
    ¬s.runOver ∧ ∃ t, core.run 1 s = .next t ∧ t.runOver ∧ t.observation.sa = 5 ∧
      t.observation.responses = [.data 5] :=
  ⟨fun h => absurd h.1 (by decide), _, rfl, ⟨rfl, rfl⟩, rfl, rfl⟩

/-! ### States and operands that meet the hypotheses of the statements -/

/-- The bytes of BUF in `full`. -/
def fullBytes : List Byte := List.replicate 384 0xA5

theorem fullBytes_length : fullBytes.length = 384 := List.length_replicate

/-- An engine in which p0, p1, p7 and all of BUF are written and nothing is pending. -/
def full : State :=
  (((State.reset.setPoly 0 ramp).setPoly 1 (allOf 1664)).setPoly 7 (allOf (-1))).setBytes 0 fullBytes

theorem onFive_buf (s : State) : (onFive s).buf = s.buf := rfl

theorem full_pending : full.pending = none := by simp [full, State.reset, State.resetOf]

theorem full_npoly : full.build.npoly = 8 := by simp [full, State.reset, Config.build, Build.npoly]

theorem full_written (p : PolyIdx) (h : p = 0 ∨ p = 1 ∨ p = 7) : full.AllWritten p := by
  intro i hi
  rcases h with rfl | rfl | rfl <;> simp [full, hi, Stored.isWritten]

theorem full_holds : full.Holds 1 (allOf 1664) := by
  intro i hi
  simp [full, hi]

theorem full_read (j : Nat) (h : j < 384) : full.buf.read j = some 0xA5 := by
  simp [full, Memory.read_writeBytes, fullBytes_length, h]
  simp [fullBytes, -List.reduceReplicate]

theorem full_bytes (n : Nat) (h : n ≤ 384) : full.BufAllWritten n := by
  intro j hj
  rw [full_read j (by omega)]
  rfl

theorem allOf_bounded (x B : Int) (h : -B ≤ x ∧ x ≤ B) (hx : -32768 ≤ x ∧ x ≤ 32767) : BoundedBy B (allOf x) := by
  intro i hi
  rw [allOf, coeffAt_tabulate _ hi, toCoeff_toInt, s16_eq_self hx]
  exact h

theorem witness_DecodeOfEncodeIsTheCommand :
    Instr.wf 8 (.basemul 7 7 0) = true ∧ Instr.wf 16 (.sub 15 15 15) = true := by decide

theorem witness_EncodeOfDecodeIsTheWord :
    decode 16 0x000FFF30 = .ok (.basemul 15 15 15) ∧ decode 1 0x00000055 = .ok (.tomsg 0) := by decide

theorem witness_UnassignedOpcodesAreIllegal :
    (∀ row ∈ classTable, row.value.toNat ≠ ((0xFFFFFF56 : Word).extractLsb' 0 8).toNat) ∧
    (∀ row ∈ classTable, row.value.toNat ≠ ((0x0000000F : Word).extractLsb' 0 8).toNat) ∧
    decode State.reset.build.npoly 0x00000014 = .error .illegalOpcode := by decide

theorem witness_FieldChecksFollowTheirOrder :
    ∃ row ∈ classTable, row.value.toNat = ((0x00000020 : Word).extractLsb' 0 8).toNat ∧
      (0x80000020 : Word) &&& row.mask ≠ row.value ∧ (0x00010020 : Word) &&& row.mask ≠ row.value ∧
      ((0x00008020 : Word) &&& row.mask = row.value ∧ ¬row.regsExist 8 0x00008020) ∧
      ((0x00007720 : Word) &&& row.mask = row.value ∧ row.regsExist 8 0x00007720) := by
  refine ⟨⟨0x20, 0xFFFF00FF, true, true, false⟩, by decide, by decide, by decide, by decide, ⟨by decide, ?_⟩,
    by decide, ?_⟩ <;> unfold ClassRow.regsExist <;> decide

theorem witness_CmdWriteAcceptsOrRejects :
    State.reset.busy = false ∧ decode State.reset.build.npoly 0x00007720 = .ok (.ntt 7 7) ∧
    decode State.reset.build.npoly 0x00008020 = .error .polyIndex ∧ State.reset.error = none ∧
    ∃ t, exec .montred State.reset = .next t := ⟨rfl, rfl, rfl, rfl, _, rfl⟩

theorem witness_AcknowledgeClearsWrittenBits :
    let s : State := { State.reset with done := true, error := some .illegalOpcode, ovr := true }
    decode s.build.npoly 0x00000010 = .ok .montred ∧ decode s.build.npoly 0x00F00020 = .error .reservedField ∧
      s.error = some .illegalOpcode := ⟨rfl, rfl, rfl⟩

theorem witness_StatusReadsItsFields :
    State.reset.error = none ∧ (State.reset.issue 0x00000014).error = some .illegalOpcode ∧
    (State.reset.issue 0x00F00020).error = some .reservedField ∧
    (State.reset.issue 0x00008020).error = some .polyIndex := ⟨rfl, rfl, rfl, rfl⟩

theorem witness_WindowStartsAtBase :
    let s : State := State.resetOf { extraRegs := 0, dv := .five, base := 0x40000000 }
    (0x3FFFFFFF : Nat) < s.build.base ∧ s.build.base + 0x7FFF < 0x40008000 := by decide

theorem witness_NarrowOrMisalignedIsRefused :
    Width.bits64 ≠ .bits32 ∧ Width.partialWord ≠ .bits32 ∧ (0x7FFF : Offset).extractLsb' 0 2 ≠ 0 ∧
    (0x001 : Offset).extractLsb' 0 2 ≠ 0 := by decide

theorem witness_ReservedAndReadOnlyOffsetsAreRefused :
    (0x020 ≤ (0x020 : Offset).toNat ∧ (0x0FFF : Offset).toNat ≤ 0x0FFF) ∧
    (0x3180 ≤ (0x3180 : Offset).toNat ∧ (0x3FFF : Offset).toNat ≤ 0x3FFF) ∧
    0x4100 ≤ (0x4100 : Offset).toNat ∧ 0x4100 ≤ (0x7FFF : Offset).toNat ∧
    (0x1000 ≤ (0x2000 : Offset).toNat ∧ State.reset.build.npoly ≤ ((0x2000 : Offset).toNat - 0x1000) / 0x200) ∧
    ((0x2FFF : Offset).toNat ≤ 0x2FFF ∧ State.reset.build.npoly ≤ ((0x2FFF : Offset).toNat - 0x1000) / 0x200) ∧
    (0x4000 ≤ (0x4000 : Offset).toNat ∧ (0x40FF : Offset).toNat ≤ 0x40FF) := by decide

theorem witness_BusyGatesTheData :
    busyState.busy = true ∧ gatedOffset (0x14 : Offset).toNat ∧ gatedOffset (0x1C : Offset).toNat ∧
    gatedOffset (0x1000 : Offset).toNat ∧ gatedOffset (0x2FFF : Offset).toNat ∧
    gatedOffset (0x3000 : Offset).toNat ∧ gatedOffset (0x317F : Offset).toNat ∧
    (0x4000 ≤ (0x40FF : Offset).toNat ∧ (0x40FF : Offset).toNat ≤ 0x40FF) := by
  unfold gatedOffset
  refine ⟨rfl, ?_⟩
  decide

theorem witness_PolynomialWindow :
    full.busy = false ∧ full.build.npoly ≤ (8 : PolyIdx).val ∧ (7 : PolyIdx).val < full.build.npoly ∧
    full.elem 7 (2 * (127 : Fin 128).val) = .holds (-1) ∧ full.elem 7 (2 * (127 : Fin 128).val + 1) = .holds (-1) ∧
    full.elem 6 (2 * (0 : Fin 128).val) = .unwritten := by
  refine ⟨rfl, by decide, by decide, ?_, ?_, ?_⟩ <;> simp [full, State.reset, allOf, toCoeff]

theorem witness_BufferWindow :
    full.busy = false ∧ (∀ j : Nat, j < 384 → full.buf.read j = some 0xA5) ∧ State.reset.busy = false ∧
    State.reset.buf.read (4 * (95 : Fin 96).val + 3) = none := by
  exact ⟨rfl, full_read, rfl, rfl⟩

theorem witness_RegisterWindow : full.busy = false := rfl

theorem witness_ReadsHaveNoSideEffect :
    (State.reset.hostRead 0x008 .bits32).freeCount = State.reset.freeCount := rfl

/-- Words that meet the rejection clause of MontredRule, BarrettRule, FqmulRule and FrommontSRule, at both ends of the
rejected bits. -/
theorem witness_ScalarRules :
    (∀ op ∈ [0x10, 0x11, 0x12, 0x13], ((BitVec.ofNat 32 (op + 0x100) : Word).extractLsb' 0 8).toNat = op ∧
      (BitVec.ofNat 32 (op + 0x100) : Word).extractLsb' 8 24 ≠ 0) ∧
    (∀ op ∈ [0x10, 0x11, 0x12, 0x13], ((BitVec.ofNat 32 (op + 0x80000000) : Word).extractLsb' 0 8).toNat = op ∧
      (BitVec.ofNat 32 (op + 0x80000000) : Word).extractLsb' 8 24 ≠ 0) := by decide

theorem witness_MontgomeryReduceProperties :
    ((-109084672 : Int) < -109084671 ∧ (109084671 : Int) < 109084672) ∧
    ((-2038402305 : Int) ≤ -2038402305 ∧ (2038398975 : Int) ≤ 2038398975) := by decide

theorem witness_BarrettReduceIsCentered : (-32768 : Int) ≤ -32768 ∧ (32767 : Int) ≤ 32767 := by decide

theorem witness_FqmulProperties :
    (-109084672 : Int) < 3328 * -32768 ∧ (3328 : Int) * -32768 < 109084672 ∧ (-3328 : Int) ≤ 3328 ∧
    (-32768 : Int) ≤ -32768 := by decide

theorem witness_FrommontProperties : (-80624 : Int) ≤ -80624 ∧ (80624 : Int) ≤ 80624 := by decide

/-- Registers that exist and are fully written, for AddAndSubCommands and ReduceAndFrommontCommands: the last one and
the first. -/
theorem witness_PolynomialRules :
    (7 : PolyIdx).val < full.build.npoly ∧ (0 : PolyIdx).val < full.build.npoly ∧ full.AllWritten 7 ∧
    full.AllWritten 0 := ⟨by decide, by decide, full_written 7 (by simp), full_written 0 (by simp)⟩

theorem witness_TransformCommands :
    (7 : PolyIdx).val < full.build.npoly ∧ (1 : PolyIdx).val < full.build.npoly ∧ full.AllWritten 1 :=
  ⟨by decide, by decide, full_written 1 (by simp)⟩

theorem witness_TransformsDoNotWrapInBounds :
    BoundedBy 9471 (allOf 9471) ∧ (9471 : Int) ≤ 9471 ∧ BoundedBy 16383 (allOf (-16383)) :=
  ⟨allOf_bounded _ _ (by decide) (by decide), by decide, allOf_bounded _ _ (by decide) (by decide)⟩

theorem witness_NttPairsAreResidues : BoundedBy 9471 (allOf (-9471)) ∧ 127 < 128 :=
  ⟨allOf_bounded _ _ (by decide) (by decide), by decide⟩

/-- The polynomial with `x` at every multiple of `m` and 0 elsewhere. -/
def comb (m : Nat) (x : Int) : Poly := tabulate 256 fun i => toCoeff (if i % m = 0 then x else 0)

theorem comb_coeff (m : Nat) (x : Int) (hx : -32768 ≤ x ∧ x ≤ 32767) {i : Nat} (hi : i < 256) :
    coeffAt (comb m x) i = if i % m = 0 then x else 0 := by
  rw [comb, coeffAt_tabulate _ hi, toCoeff_toInt, s16_eq_self (by split <;> omega)]

theorem comb_bounded (m : Nat) (x B : Int) (h : -B ≤ x ∧ x ≤ B) (hx : -32768 ≤ x ∧ x ≤ 32767) :
    BoundedBy B (comb m x) := by
  intro i hi
  rw [comb_coeff m x hx hi]
  split <;> omega

/-- A layer halves the distance of a comb's teeth: the second coefficient of each butterfly is 0. -/
theorem nttLayer_comb (len : Nat) (hl : len ∈ [128, 64, 32, 16, 8, 4, 2]) (x : Int)
    (hx : -32768 ≤ x ∧ x ≤ 32767) : nttLayer len (comb (2 * len) x) = comb len x := by
  have f : ∀ z : Int, fqmul z 0 = 0 := by intro z; simp [fqmul, montgomeryReduce, s16, s32]
  refine poly_ext_coeffAt fun i hi => ?_
  rw [comb_coeff len x hx hi, nttLayer, coeffAt_tabulate _ hi]
  by_cases h : i % (2 * len) < len
  · have z : coeffAt (comb (2 * len) x) (i + len) = 0 := by
      by_cases hj : i + len < 256
      · rw [comb_coeff _ x hx hj, if_neg]
        fin_cases hl <;> simp_all <;> omega
      · exact coeffAt_of_ge _ (by omega)
    have e : (i % (2 * len) = 0) = (i % len = 0) := propext (by fin_cases hl <;> simp_all <;> omega)
    rw [if_pos h, z, f, comb_coeff _ x hx hi, Int.add_zero, toCoeff_toInt, s16_eq_self (by split <;> omega)]
    simp only [e]
  · have z : coeffAt (comb (2 * len) x) i = 0 := by
      rw [comb_coeff _ x hx hi, if_neg (by fin_cases hl <;> simp_all <;> omega)]
    have e : ((i - len) % (2 * len) = 0) = (i % len = 0) := propext (by fin_cases hl <;> simp_all <;> omega)
    rw [if_neg h, z, f, comb_coeff _ x hx (by omega), Int.sub_zero, toCoeff_toInt,
      s16_eq_self (by split <;> omega)]
    simp only [e]

/-- The clause on an unreduced transform is met by `9471 x^0`, whose transform is 9471 at every even index. -/
theorem witness_TransformRoundTrips :
    BoundedBy 9471 (allOf 9471) ∧ BoundedBy 9471 (comb 256 9471) ∧ nttFn (comb 256 9471) = comb 2 9471 ∧
      BoundedBy 16383 (nttFn (comb 256 9471)) := by
  have layer := fun (len : Nat) (h : len ∈ [128, 64, 32, 16, 8, 4, 2]) => nttLayer_comb len h 9471 (by decide)
  have e : nttFn (comb 256 9471) = comb 2 9471 := by
    rw [nttFn, layer 128 (by decide), layer 64 (by decide), layer 32 (by decide), layer 16 (by decide),
      layer 8 (by decide), layer 4 (by decide), layer 2 (by decide)]
  exact ⟨allOf_bounded _ _ (by decide) (by decide), comb_bounded _ _ _ (by decide) (by decide), e,
    e ▸ comb_bounded _ _ _ (by decide) (by decide)⟩

theorem witness_BasemulCommand :
    (7 : PolyIdx).val < full.build.npoly ∧ (0 : PolyIdx).val < full.build.npoly ∧
    (1 : PolyIdx).val < full.build.npoly ∧ full.AllWritten 0 ∧ full.AllWritten 1 :=
  ⟨by decide, by decide, by decide, full_written 0 (by simp), full_written 1 (by simp)⟩

theorem witness_BasemulPairsAreProducts : BoundedBy 3328 (allOf 3328) ∧ BoundedBy 3328 (allOf (-3328)) :=
  ⟨allOf_bounded _ _ (by decide) (by decide), allOf_bounded _ _ (by decide) (by decide)⟩

theorem witness_TransformProductIsNegacyclic :
    BoundedBy 9471 (allOf 9471) ∧ BoundedBy 9471 (allOf (-9471)) ∧ 255 < 256 :=
  ⟨allOf_bounded _ _ (by decide) (by decide), allOf_bounded _ _ (by decide) (by decide), by decide⟩

theorem witness_AccumulationDoesNotWrap :
    let terms : List (Bool × Int × Poly) := List.replicate 8 (true, 3328, allOf 3328)
    BoundedBy 3328 (allOf 3328) ∧ (∀ t ∈ terms, BoundedBy t.2.1 t.2.2) ∧
      (3328 : Int) + (terms.map fun t => t.2.1).sum ≤ 32767 := by
  have b : BoundedBy 3328 (allOf 3328) := allOf_bounded _ _ (by decide) (by decide)
  refine ⟨b, fun t ht => ?_, by simp⟩
  rw [List.eq_of_mem_replicate ht]
  exact b

theorem witness_NormalizeRule :
    (0 : Int) ≤ (0x7FFF : Coeff).toInt ∧ (0 : Int) ≤ (0 : Coeff).toInt ∧ (0xF2FE : Coeff).toInt < -3329 ∧
    (0x8000 : Coeff).toInt < -3329 := by decide

theorem witness_CompressionRules :
    (-32768 : Int) ≤ -32768 ∧ (32767 : Int) ≤ 32767 ∧ 3328 < 3329 ∧ (0 : Nat) < 3329 := by decide

/-- For TobytesAndFrombytesCommands, CompressCommand, DecompressCommand and FrommsgAndTomsgCommands, on both builds: a
register that exists and is written, written bytes, and the ends of the range of the message bit. -/
theorem witness_CodecCommands :
    (7 : PolyIdx).val < full.build.npoly ∧ full.AllWritten 7 ∧ full.BufAllWritten 384 ∧
    (onFive full).BufAllWritten (32 * 5) ∧ (onFive full).build.dv.bits = 5 ∧
    (-3329 : Int) ≤ -3329 ∧ (3328 : Int) < 3329 := by
  refine ⟨by decide, full_written 7 (by simp), full_bytes 384 (by decide), fun j hj => ?_, rfl, by decide, by decide⟩
  rw [onFive_buf]
  exact full_bytes 160 (by decide) j hj

theorem witness_BytesRoundTrip :
    let s : State := (full.setPoly 0 (allOf (-3329))).setPoly 1 (allOf 4095)
    s.Holds 0 (allOf (-3329)) ∧ s.Holds 1 (allOf 4095) ∧
      (∀ i : Nat, i < 256 → -3329 ≤ coeffAt (allOf (-3329)) i ∧ coeffAt (allOf (-3329)) i ≤ 4095) ∧
      (∀ i : Nat, i < 256 → -3329 ≤ coeffAt (allOf 4095) i ∧ coeffAt (allOf 4095) i ≤ 4095) ∧
      (0 : PolyIdx).val < s.build.npoly ∧ (7 : PolyIdx).val < s.build.npoly := by
  refine ⟨fun i h => by simp [h], fun i h => by simp [h], fun i hi => ?_, fun i hi => ?_, by decide, by decide⟩
  · rw [allOf, coeffAt_tabulate _ hi]; decide
  · rw [allOf, coeffAt_tabulate _ hi]; decide

theorem witness_CompressionErrorIsBounded :
    full.Holds 1 (allOf 1664) ∧ (onFive full).Holds 1 (allOf 1664) ∧
      (∀ i : Nat, i < 256 → 0 ≤ coeffAt (allOf 1664) i ∧ coeffAt (allOf 1664) i < 3329) ∧
      (∀ i : Nat, i < 256 → 0 ≤ coeffAt (allOf 3328) i ∧ coeffAt (allOf 3328) i < 3329) ∧
      (1 : PolyIdx).val < full.build.npoly ∧ (7 : PolyIdx).val < full.build.npoly := by
  refine ⟨full_holds, full_holds, fun i hi => ?_, fun i hi => ?_, by decide, by decide⟩
  · rw [allOf, coeffAt_tabulate _ hi]; decide
  · rw [allOf, coeffAt_tabulate _ hi]; decide

/-- The message of `full`, all bytes A5, and both ends of the noise the rule allows on every coefficient. -/
theorem witness_MessageRoundTrip :
    (2 : PolyIdx).val < full.build.npoly ∧ full.BufAllWritten 32 ∧
      ∃ t : State, exec (.frommsg 2) full = .next t ∧ ∀ e : Int, e = -832 ∨ e = 831 →
        ∃ (noisy : Poly) (v : State),
          (∀ (i : Nat) (h : i < 256), ∃ (c : Coeff) (e : Int), t.elem 2 i = .holds c ∧ -832 ≤ e ∧ e ≤ 831 ∧
            (noisy[i]).toInt = c.toInt + e) ∧ v.Holds 2 noisy ∧ v.build = full.build := by
  refine ⟨by decide, full_bytes 32 (by decide), _, (exec_frommsg full 2).trans (runLoad_eq rfl), fun e he => ?_⟩
  refine ⟨tabulate 256 fun i => toCoeff (coeffAt (fromMsgFn (full.bufValues 0 32)) i + e),
    full.setPoly 2 (tabulate 256 fun i => toCoeff (coeffAt (fromMsgFn (full.bufValues 0 32)) i + e)),
    fun i h => ⟨(fromMsgFn (full.bufValues 0 32))[i], e, by simp [h], by omega, by omega, ?_⟩,
    fun i h => by simp [h], rfl⟩
  have r : 0 ≤ coeffAt (fromMsgFn (full.bufValues 0 32)) i ∧ coeffAt (fromMsgFn (full.bufValues 0 32)) i ≤ 1665 := by
    rw [fromMsgFn, coeffAt_tabulate _ h]
    have h2 := Nat.mod_two_eq_zero_or_one (byteAt (full.bufValues 0 32) (i / 8) >>> (i % 8))
    rw [Nat.and_one_is_mod]
    rcases h2 with h2 | h2 <;> rw [h2] <;> decide
  rw [tabulate_getElem _ _ _ h, toCoeff_toInt, s16_eq_self (by omega), coeffAt_of_lt _ h]

theorem witness_AbsentRegisterStops :
    Instr.wf full.build.npoly (.ntt 8 0) = false ∧ Instr.wf full.build.npoly (.add 0 0 15) = false := by decide

/-- Both sides of the record: a command on written sources, and one on an unwritten register and unwritten bytes; and a
state with a fault recorded, whose reset step goes on. -/
theorem witness_UnwrittenSourceIsRecorded :
    (∃ t, exec (.add 2 0 1) full = .next t) ∧ (∃ t, exec (.ntt 2 6) full = .next t) ∧ ¬full.AllWritten 6 ∧
    (∃ t, exec (.frommsg 2) State.reset = .next t) ∧ ¬State.reset.BufAllWritten 32 ∧
    (let s : State := { State.reset with unwrittenRead := true, inputs := [.reset] }
     s.unwrittenRead = true ∧ ¬s.valid ∧ (∃ t, step s = .next t) ∧ ∃ t, core.run 1 s = .next t) := by
  refine ⟨⟨_, (exec_add full 2 0 1).trans (runBinary_eq rfl rfl rfl)⟩,
    ⟨_, (exec_ntt full 2 6).trans (runUnary_eq rfl rfl)⟩, fun h => ?_,
    ⟨_, (exec_frommsg State.reset 2).trans (runLoad_eq rfl)⟩, fun h => ?_, rfl, by simp [State.valid],
    ⟨_, rfl⟩, ⟨_, rfl⟩⟩
  · have := h 0 (by decide)
    simp [full, State.reset, Stored.isWritten] at this
  · have := h 31 (by decide)
    simp [State.reset, State.resetOf] at this

theorem witness_ScalarRegistersAreSeparate :
    (isPolynomialCommand (.add 2 0 1) = true ∧ ∃ t, exec (.add 2 0 1) full = .next t) ∧
    (0xFFFF0005 : Word).extractLsb' 0 16 = (withScalars 0x00000005 0).sa.extractLsb' 0 16 ∧
    (0x80007FFF : Word).extractLsb' 0 16 = (withScalars 0 0x00007FFF).sb.extractLsb' 0 16 ∧
    (isPolynomialCommand .montred = false ∧ ∃ t, exec .montred full = .next t) :=
  ⟨⟨rfl, _, (exec_add full 2 0 1).trans (runBinary_eq rfl rfl rfl)⟩, by decide, by decide, rfl, _, rfl⟩

theorem witness_StepRunsThePendingCommand :
    (busyState.pending = some (.ntt 1 0) ∧ busyState.inputs = []) ∧
    (let s : State := { busyState with inputs := [.engine] }; s.pending = some (.ntt 1 0) ∧ s.inputs = .engine :: []) ∧
    (let s : State := { full with inputs := [.engine] }; s.pending = none ∧ s.inputs = .engine :: []) ∧
    (State.reset.pending = none ∧ State.reset.inputs = []) ∧
    0x00000120 < 2 ^ 32 ∧ decode full.build.npoly (BitVec.ofNat 32 0x00000120) = .ok (.ntt 1 0) := by
  refine ⟨⟨rfl, rfl⟩, ⟨rfl, rfl⟩, ⟨rfl, rfl⟩, ⟨rfl, rfl⟩, by decide, rfl⟩

theorem witness_HostAccessIsOneStep :
    let s : State := { full with inputs := [.host 0x00C (.write .bits32 0x00000120), .engine, .host 0x1200 (.read .bits32)] }
    s.busy = false ∧ decode s.build.npoly 0x00000120 = .ok (.ntt 1 0) ∧
      s.inputs = .host (s.build.base + 0x00C) (.write .bits32 0x00000120) :: .engine ::
        [.host 0x1200 (.read .bits32)] := ⟨rfl, rfl, rfl⟩

/-- The invariant reads PENDING, BUF, P and the build only. -/
theorem inv_congr {s t : State} (h : s.Inv) (hp : t.pendingWf = true) (hb : t.buf = s.buf)
    (hc : t.build = s.build) (hr : t.polys = s.polys) : t.Inv := by
  refine ⟨hp, by rw [hb]; exact h.2.1, fun p hn i => ?_⟩
  rw [elem_congr hr]
  exact h.2.2 p (by rw [← hc]; exact hn) i

theorem full_inv : full.Inv := by
  have hb : full.buf = Memory.writeBytes [] 0 fullBytes := by simp [full, State.reset, State.resetOf]
  refine ⟨by rw [State.pendingWf, full_pending], ?_, fun p hp i => ?_⟩
  · rw [hb]
    exact Memory.wf_writeBytes rfl (by rw [fullBytes_length])
  have h8 : 8 ≤ p.val := by rwa [full_npoly] at hp
  have h0 : p ≠ 0 := by rintro rfl; omega
  have h1 : p ≠ 1 := by rintro rfl; simp at h8
  have h7 : p ≠ 7 := by rintro rfl; simp at h8
  simp [full, h0, h1, h7, State.reset]

theorem pendingWf_none {s : State} (h : s.pending = none) : s.pendingWf = true := by rw [State.pendingWf, h]

theorem pendingWf_some {s : State} {i : Instr} (h : s.pending = some i) (hw : i.wf s.build.npoly = true) :
    s.pendingWf = true := by rw [State.pendingWf, h]; exact hw

/-- An invariant state whose next step completes a command, and the step it takes. -/
theorem witness_StepKeepsTheInvariant :
    ∃ s t : State, s.pending = some (.add 7 1 0) ∧ s.Inv ∧ step s = .next t := by
  have key : ∀ s : State, s.pending = some (.add 7 1 0) → s.buf = full.buf → s.build = full.build →
      s.polys = full.polys → s.inputs = [] → ∃ t, s.Inv ∧ step s = .next t := by
    intro s hp hb hc hr hi
    have n8 : s.build.npoly = 8 := by rw [hc, full_npoly]
    have hreg : ∀ p : PolyIdx, p.val < 8 → s.hasReg p = true := by intro p h; simp [State.hasReg, n8, h]
    have run : step s = exec (.add 7 1 0) s := by rw [step, hi]; simp only [engineStep, hp]
    exact ⟨_, inv_congr full_inv (pendingWf_some hp (by rw [n8]; decide)) hb hc hr, run.trans ((exec_add s 7 1 0).trans
      (runBinary_eq (hreg 7 (by decide)) (hreg 1 (by decide)) (hreg 0 (by decide))))⟩
  have hi : full.inputs = [] := by simp [full, State.reset, State.resetOf]
  generalize full = f at key hi
  obtain ⟨t, h⟩ := key { f with pending := some (.add 7 1 0) } rfl rfl rfl rfl hi
  exact ⟨_, t, rfl, h⟩

/-- An invariant state with a program before it, and invariant states whose run is over: with a reset still to come and
with none. -/
theorem witness_NoRunStopsOrEndsWithACommandPending :
    (∃ s : State, s.Inv ∧
      s.inputs = [.host 0x00C (.write .bits32 0x00000120), .host 0x1000 (.read .bits32), .reset]) ∧
    (∃ s : State, s.Inv ∧ core.run 0 s = .next s ∧ s.runOver ∧ Input.reset ∈ s.inputs) ∧
    ∃ s : State, s.Inv ∧ core.run 0 s = .next s ∧ s.runOver ∧ s.inputs = [.engine] ∧ Input.reset ∉ s.inputs := by
  have hp := full_pending
  have hf := full_inv
  generalize full = f at hp hf
  have key : ∀ l : List Input, State.Inv { f with inputs := l } := fun l =>
    inv_congr hf (pendingWf_none hp) rfl rfl rfl
  exact ⟨⟨_, key _, rfl⟩, ⟨_, key [.reset], rfl, ⟨rfl, hp⟩, by simp⟩, _, key [.engine], rfl, ⟨rfl, hp⟩, rfl, by simp⟩

theorem witness_PendingCommandIsAtomic : busyState.busy = true := rfl

theorem witness_ResetSetsEveryRegister :
    State.inputs { busyState with inputs := [.reset, .engine] } = .reset :: [.engine] := rfl

theorem witness_OnlyLegalBuildsAreConstructed :
    (1 ≤ 16 ∧ 16 ≤ 16 ∧ (5 = 4 ∨ 5 = 5)) ∧ (1 ≤ 1 ∧ 1 ≤ 16 ∧ (4 = 4 ∨ 4 = 5)) ∧
    ¬(1 ≤ 17 ∧ 17 ≤ 16 ∧ (4 = 4 ∨ 4 = 5)) ∧ ¬(1 ≤ 0 ∧ 0 ≤ 16 ∧ (4 = 4 ∨ 4 = 5)) ∧
    ¬(1 ≤ 8 ∧ 8 ≤ 16 ∧ (6 = 4 ∨ 6 = 5)) := by decide

end Sys2Proof.Tests
end

section
/-! PROOFS. The family of the state (spec/10_state.md): the invariant, STATUS and the interrupt, the register window,
the record of a read of an unwritten element, the scalar registers, the end of a run, reset and the builds. -/

namespace Sys2Proof.Machine

/-! ### What a command or an event carries over -/

/-- What no command, no host access and no reset takes back: the build and the events still to come stay, a recorded
model fault stays recorded, and the responses received are kept. -/
structure State.Carries (s t : State) : Prop where
  build : t.build = s.build
  inputs : t.inputs = s.inputs
  record : s.unwrittenRead = true → t.unwrittenRead = true
  responses : s.responses <+: t.responses

theorem State.Carries.refl (s : State) : s.Carries s := ⟨rfl, rfl, id, List.prefix_rfl⟩

theorem State.Carries.respond {s t : State} (h : s.Carries t) (r : Response) : s.Carries (t.respond r) :=
  ⟨h.build, h.inputs, h.record, h.responses.trans (List.prefix_append _ _)⟩

theorem noteRead_carries (s : State) (n : Nat) (b : Bool) : s.Carries (s.noteRead n b) :=
  ⟨by simp, by simp, fun h => by simp [h], by simp⟩

theorem resetEvent_carries (s : State) : s.Carries s.resetEvent := ⟨rfl, rfl, id, List.prefix_rfl⟩

theorem setOvr_carries (s : State) : s.Carries s.setOvr := ⟨rfl, rfl, id, List.prefix_rfl⟩

theorem writeWord_carries (s : State) (r : Region) (v : Word) : s.Carries (s.writeWord r v) := by
  cases r with
  | cmd =>
    change s.Carries (s.issue v)
    obtain ⟨i, -, h⟩ | ⟨e, -, h⟩ := issue_cases s v
    · rw [h]; exact ⟨rfl, rfl, id, List.prefix_rfl⟩
    · rw [h]; exact ⟨rfl, rfl, id, List.prefix_rfl⟩
  | _ => exact ⟨rfl, rfl, id, List.prefix_rfl⟩

theorem hostAccess_carries (s : State) (addr : Nat) (a : Access) : s.Carries (s.hostAccess addr a) := by
  obtain h | ⟨width, -, h⟩ | ⟨width, v, -, h⟩ := hostAccess_cases s addr a <;> rw [h]
  · exact .refl s
  · obtain hr | ⟨-, -, -, hr⟩ := hostRead_cases s (BitVec.ofNat 15 (addr - s.build.base)) width <;> rw [hr]
    · exact (State.Carries.refl s).respond _
    · obtain ⟨n, b, hb⟩ := afterRead_cases s (regionOf (BitVec.ofNat 15 (addr - s.build.base)))
      rw [hb]
      exact (noteRead_carries s n b).respond _
  · obtain hw | ⟨-, -, hw⟩ | ⟨-, -, -, -, hw⟩ :=
      hostWrite_cases s (BitVec.ofNat 15 (addr - s.build.base)) width v <;> rw [hw]
    · exact (State.Carries.refl s).respond _
    · exact (setOvr_carries s).respond _
    · exact (writeWord_carries s _ v).respond _

/-- A completed command is complete, with everything no command writes as before. -/
theorem exec_completes {i : Instr} {s t : State} (h : exec i s = .next t) : s.Completes t := by
  obtain ⟨v, rfl⟩ | ⟨rd, n, m, b, c, r, -, rfl⟩ | ⟨n, b, bs, -, rfl⟩ := exec_cases h
  · simp [State.Completes]
  · exact (setPoly_frame s n m b c rd r).1
  · exact (setBytes_frame s n b bs).1

theorem exec_pending {i : Instr} {s t : State} (h : exec i s = .next t) : t.pending = none := (exec_completes h).1

theorem exec_carries {i : Instr} {s t : State} (h : exec i s = .next t) : s.Carries t := by
  obtain ⟨-, -, build, -, -, -, -, -, -, inputs, responses⟩ := exec_completes h
  refine ⟨build, inputs, fun hu => ?_, responses ▸ List.prefix_rfl⟩
  obtain ⟨v, rfl⟩ | ⟨rd, n, m, b, c, r, -, rfl⟩ | ⟨n, b, bs, -, rfl⟩ := exec_cases h <;> simp [hu]

theorem engineStep_carries {s t : State} (h : engineStep s = .next t) : s.Carries t := by
  obtain ⟨-, rfl⟩ | ⟨i, -, he⟩ := engineStep_cases h
  · exact .refl _
  · exact exec_carries he

theorem engineStep_pending {s t : State} (h : engineStep s = .next t) : t.pending = none := by
  obtain ⟨hp, rfl⟩ | ⟨i, -, he⟩ := engineStep_cases h
  · exact hp
  · exact exec_pending he

/-! ### A step uses up the next event -/

/-- The state with the next event used up and nothing else changed; with no event listed it is the state itself. -/
def State.popInput (s : State) : State := { s with inputs := s.inputs.tail }

theorem popInput_of_nil {s : State} (h : s.inputs = []) : s.popInput = s := by
  cases s
  cases h
  rfl

theorem popInput_of_cons {s : State} {e : Input} {rest : List Input} (h : s.inputs = e :: rest) :
    s.popInput = { s with inputs := rest } := by
  simp [State.popInput, h]

/-- A step that answers a next state is the engine's turn, a host access or a reset, with the next event used up. -/
theorem step_acts {s t : State} (h : step s = .next t) :
    engineStep s.popInput = .next t ∨ (∃ addr a, t = s.popInput.hostAccess addr a) ∨
      t = s.popInput.resetEvent := by
  obtain ⟨hi, he⟩ | ⟨rest, hi, he⟩ | ⟨addr, a, rest, hi, rfl⟩ | ⟨rest, hi, rfl⟩ := step_cases h
  · exact .inl (by rwa [popInput_of_nil hi])
  · exact .inl (by rwa [popInput_of_cons hi])
  · exact .inr (.inl ⟨addr, a, by rw [popInput_of_cons hi]⟩)
  · exact .inr (.inr (by rw [popInput_of_cons hi]))

theorem step_carries {s t : State} (h : step s = .next t) : s.popInput.Carries t := by
  obtain he | ⟨addr, a, rfl⟩ | rfl := step_acts h
  · exact engineStep_carries he
  · exact hostAccess_carries _ addr a
  · exact resetEvent_carries _

/-- What each step keeps, a run keeps. -/
theorem run_keeps {P : State → Prop} (hstep : ∀ u v : State, P u → step u = .next v → P v) {k : Nat}
    {s t : State} (hs : P s) (h : core.run k s = .next t) : P t := by
  induction k generalizing s with
  | zero => cases h; exact hs
  | succ k ih =>
    obtain ⟨u, hu, hr⟩ := run_succ_cases h
    exact ih (hstep s u hs hu) hr

theorem run_unwrittenRead {k : Nat} {s t : State} (hs : s.unwrittenRead = true) (h : core.run k s = .next t) :
    t.unwrittenRead = true :=
  run_keeps (P := fun u => u.unwrittenRead = true) (fun _ _ hu hv => (step_carries hv).record hu) hs h

theorem run_responses_prefix {k : Nat} {s t : State} (h : core.run k s = .next t) : s.responses <+: t.responses :=
  run_keeps (P := fun u => s.responses <+: u.responses) (fun _ _ hu hv => hu.trans (step_carries hv).responses)
    List.prefix_rfl h

/-! ### The invariant -/

theorem State.Inv.pending_wf {s : State} (h : s.Inv) : s.pendingWf = true := h.1

theorem State.Inv.buf_wf {s : State} (h : s.Inv) : s.buf.wf = true := h.2.1

theorem pendingWf_of_idle {s : State} (h : s.pending = none) : s.pendingWf = true := by simp [State.pendingWf, h]

theorem pendingWf_of_pending {s : State} {i : Instr} (h : s.pending = some i) :
    s.pendingWf = i.wf s.build.npoly := by simp [State.pendingWf, h]

/-- The invariant of a state that differs from one that meets it in BUF, in PENDING and in existing registers only. -/
theorem State.Inv.transfer {s t : State} (h : s.Inv) (hbuild : t.build = s.build) (hpending : t.pendingWf = true)
    (hbuf : t.buf.wf = true)
    (helem : ∀ p : PolyIdx, s.build.npoly ≤ p.val → ∀ i, t.elem p i = s.elem p i) : t.Inv := by
  obtain ⟨-, -, habsent⟩ := h
  refine ⟨hpending, hbuf, fun p hp i => ?_⟩
  rw [hbuild] at hp
  rw [helem p hp i, habsent p hp i]

/-- The invariant does not read the record of a read, nor the count of free values. -/
theorem State.Inv.noteRead {s : State} (h : s.Inv) (n : Nat) (b : Bool) : (s.noteRead n b).Inv :=
  h.transfer (by simp) (by simpa [State.pendingWf] using h.pending_wf) (by simpa using h.buf_wf) (by simp)

theorem State.Inv.respond {s : State} (h : s.Inv) (r : Response) : (s.respond r).Inv := h

theorem State.Inv.popInput {s : State} (h : s.Inv) : s.popInput.Inv := h

theorem resetOf_inv (b : Build) : (State.resetOf b).Inv := ⟨rfl, rfl, fun p _ i => elem_resetOf b p i⟩

theorem resetEvent_inv (s : State) : s.resetEvent.Inv := resetOf_inv s.build

/-- A register that exists is none of those from NPOLY on. -/
theorem ne_of_hasReg {s : State} {rd p : PolyIdx} (hr : s.hasReg rd = true) (hp : s.build.npoly ≤ p.val) :
    p ≠ rd := by
  rintro rfl
  have hlt : p.val < s.build.npoly := by simpa [State.hasReg] using hr
  omega

theorem exec_inv {i : Instr} {s t : State} (hs : s.Inv) (h : exec i s = .next t) : t.Inv := by
  have hbuild := (exec_carries h).build
  have hidle := pendingWf_of_idle (exec_pending h)
  obtain ⟨v, rfl⟩ | ⟨rd, n, m, b, c, r, hr, rfl⟩ | ⟨n, b, bs, hl, rfl⟩ := exec_cases h
  · exact hs.transfer hbuild hidle hs.buf_wf (by simp)
  · exact hs.transfer hbuild hidle (by simpa using hs.buf_wf) fun p hp i => by simp [ne_of_hasReg hr hp]
  · exact hs.transfer hbuild hidle (by simpa using Memory.wf_writeBytes hs.buf_wf (by omega)) (by simp)

theorem engineStep_inv {s t : State} (hs : s.Inv) (h : engineStep s = .next t) : t.Inv := by
  obtain ⟨-, rfl⟩ | ⟨i, -, he⟩ := engineStep_cases h
  · exact hs
  · exact exec_inv hs he

theorem issue_inv {s : State} (hs : s.Inv) (w : Word) : (s.issue w).Inv := by
  obtain ⟨i, hd, h⟩ | ⟨e, -, h⟩ := issue_cases s w <;> rw [h]
  · exact hs.transfer rfl ((pendingWf_of_pending rfl).trans (decode_wf hd)) hs.buf_wf (by simp)
  · exact hs

/-- A permitted write keeps the invariant: the offsets of registers the engine does not have are refused, and the
window of BUF has its 384 bytes. -/
theorem writeWord_inv {s : State} (hs : s.Inv) {r : Region} (hr : r.absent s.build.npoly = false) (v : Word) :
    (s.writeWord r v).Inv := by
  cases r with
  | cmd => exact issue_inv hs v
  | poly p k =>
    have hreg : s.hasReg p = true := by simpa [Region.absent, State.hasReg] using hr
    exact hs.transfer rfl hs.pending_wf hs.buf_wf fun q hq i => by
      simp [State.writeWord, elem_setCoeffs, ne_of_hasReg hreg hq]
  | buffer k =>
    have hlen : 4 * k.val + (bytesOfWord v).length ≤ 384 := by
      have : (bytesOfWord v).length = 4 := rfl
      omega
    exact hs.transfer rfl hs.pending_wf (Memory.wf_writeBytes hs.buf_wf hlen) fun _ _ _ => rfl
  | _ => exact hs

theorem hostAccess_inv {s : State} (hs : s.Inv) (addr : Nat) (a : Access) : (s.hostAccess addr a).Inv := by
  obtain h | ⟨width, -, h⟩ | ⟨width, v, -, h⟩ := hostAccess_cases s addr a <;> rw [h]
  · exact hs
  · obtain hr | ⟨-, -, -, hr⟩ := hostRead_cases s (BitVec.ofNat 15 (addr - s.build.base)) width <;> rw [hr]
    · exact hs
    · obtain ⟨n, b, hb⟩ := afterRead_cases s (regionOf (BitVec.ofNat 15 (addr - s.build.base)))
      rw [hb]
      exact (hs.noteRead n b).respond _
  · obtain hw | ⟨-, -, hw⟩ | ⟨-, hp, -, -, hw⟩ :=
      hostWrite_cases s (BitVec.ofNat 15 (addr - s.build.base)) width v <;> rw [hw]
    · exact hs
    · exact hs
    · exact (writeWord_inv hs hp v).respond _

theorem step_inv {s t : State} (hs : s.Inv) (h : step s = .next t) : t.Inv := by
  obtain he | ⟨addr, a, rfl⟩ | rfl := step_acts h
  · exact engineStep_inv hs.popInput he
  · exact hostAccess_inv hs.popInput addr a
  · exact resetEvent_inv _

theorem run_inv {k : Nat} {s t : State} (hs : s.Inv) (h : core.run k s = .next t) : t.Inv :=
  run_keeps (fun _ _ => step_inv) hs h

/-- Settles O55: each of the three things a step can be keeps the invariant. -/
theorem stepKeepsTheInvariant : Obligations.StepKeepsTheInvariant :=
  fun _ _ hs h => ⟨step_inv hs h, (step_carries h).build⟩

/-- Settles O56. -/
theorem resetMeetsTheInvariant : Obligations.ResetMeetsTheInvariant := resetOf_inv

end Sys2Proof.Machine
end

section
/-! PROOFS. The register window: STATUS, the interrupt, ID, CONFIG, CMD and the scalar registers
(spec/10_state.md R14 to R19, R24, spec/20_memory.md R35). -/

namespace Sys2Proof.Machine

/-! ### Reads and writes at the offsets of the registers -/

section
variable (s : State)

theorem hostRead_id : s.hostRead 0x000 .bits32 = s.respond (.data idWord) :=
  hostRead_ok (by decide) rfl (Bool.and_false _)

theorem hostRead_config : s.hostRead 0x004 .bits32 = s.respond (.data (configWord s.build)) :=
  hostRead_ok (by decide) rfl (Bool.and_false _)

theorem hostRead_status : s.hostRead 0x008 .bits32 = s.respond (.data s.statusWord) :=
  hostRead_ok (by decide) rfl (Bool.and_false _)

theorem hostRead_cmd : s.hostRead 0x00C .bits32 = s.respond (.data 0) :=
  hostRead_ok (by decide) rfl (Bool.and_false _)

theorem hostRead_irqEn : s.hostRead 0x010 .bits32 = s.respond (.data s.irqEnWord) :=
  hostRead_ok (by decide) rfl (Bool.and_false _)

theorem hostWrite_irqEn (v : Word) : s.hostWrite 0x010 .bits32 v = (s.writeIrqEn v).respond .ok :=
  hostWrite_ok (by decide) rfl rfl (Bool.and_false _)

end

section
variable {s : State} (h : s.busy = false)
include h

theorem hostWrite_cmd (w : Word) : s.hostWrite 0x00C .bits32 w = (s.issue w).respond .ok :=
  hostWrite_ok (by decide) rfl rfl (by rw [h]; rfl)

theorem hostRead_sa : s.hostRead 0x014 .bits32 = s.respond (.data s.sa) :=
  hostRead_ok (by decide) rfl (by rw [h]; rfl)

theorem hostRead_sb : s.hostRead 0x018 .bits32 = s.respond (.data s.sb) :=
  hostRead_ok (by decide) rfl (by rw [h]; rfl)

theorem hostRead_sr : s.hostRead 0x01C .bits32 = s.respond (.data s.sr) :=
  hostRead_ok (by decide) rfl (by rw [h]; rfl)

theorem hostWrite_sa (v : Word) : s.hostWrite 0x014 .bits32 v = State.respond { s with sa := v } .ok :=
  hostWrite_ok (by decide) rfl rfl (by rw [h]; rfl)

theorem hostWrite_sb (v : Word) : s.hostWrite 0x018 .bits32 v = State.respond { s with sb := v } .ok :=
  hostWrite_ok (by decide) rfl rfl (by rw [h]; rfl)

end

/-! ### STATUS -/

/-- STATUS by its fields: BUSY, DONE, ERR and OVR in bits 0 to 3, ERRCODE in bits 15:8, 0 elsewhere (R15). There are
four error values, and each of the four flags is a bit. -/
theorem statusWord_fields (s : State) :
    s.statusWord.getLsbD 0 = s.busy ∧ s.statusWord.getLsbD 1 = s.done ∧ s.statusWord.getLsbD 2 = s.err ∧
      s.statusWord.getLsbD 3 = s.ovr ∧ s.statusWord.extractLsb' 4 4 = 0 ∧
      s.statusWord.extractLsb' 8 8 = BitVec.ofNat 8 s.errcode ∧ s.statusWord.extractLsb' 16 16 = 0 := by
  unfold State.statusWord State.errcode State.err
  generalize s.busy = busy, s.done = done, s.ovr = ovr
  revert busy done ovr
  obtain - | e := s.error
  · decide
  · cases e <;> decide

theorem statusWord_busy (s : State) : s.statusWord.getLsbD 0 = s.busy := (statusWord_fields s).1

theorem errcode_none {s : State} (h : s.error = none) : s.errcode = 0 := by rw [State.errcode, h]

theorem errcode_some {s : State} {e : CmdError} (h : s.error = some e) : s.errcode = e.code := by
  rw [State.errcode, h]

/-- Settles O9: the fields of the word a read of STATUS returns. -/
theorem statusReadsItsFields : Obligations.StatusReadsItsFields := by
  intro s
  obtain ⟨busy, done, err, ovr, low, code, high⟩ := statusWord_fields s
  refine ⟨s.statusWord, hostRead_status s, busy, done, err, ovr, low, high, fun h => ?_, fun h => ?_, fun h => ?_,
    fun h => ?_⟩
  · rw [code, errcode_none h]; rfl
  all_goals rw [code, errcode_some h]; rfl

/-! ### IRQ_EN and the interrupt output -/

/-- The word of two bits is the low two bits of the word they were taken from. -/
theorem irqEnWord_writeIrqEn (s : State) (v : Word) : (s.writeIrqEn v).irqEnWord = v &&& 3 := by
  have hand : (v &&& 3).toNat = v.toNat % 4 := by
    rw [BitVec.toNat_and]
    exact Nat.and_two_pow_sub_one_eq_mod v.toNat 2
  apply BitVec.eq_of_toNat_eq
  simp only [State.irqEnWord, State.writeIrqEn_doneIe, State.writeIrqEn_errIe, BitVec.getLsbD, BitVec.toNat_ofNat,
    Nat.toNat_testBit, hand]
  omega

theorem err_iff (s : State) : s.err = true ↔ s.error ≠ none := Option.isSome_iff_ne_none

/-- The interrupt output after a write of IRQ_EN (R175). -/
theorem irq_writeIrqEn_iff (s : State) (v : Word) :
    (s.writeIrqEn v).irq = true ↔
      (s.done = true ∧ v.getLsbD 0 = true) ∨ ((s.error ≠ none ∨ s.ovr = true) ∧ v.getLsbD 1 = true) := by
  rw [← err_iff s]
  simp [State.irq, State.err]

/-- Settles O10. -/
theorem irqFollowsEnabledStatus : Obligations.IrqFollowsEnabledStatus := by
  refine ⟨fun b => ⟨rfl, rfl⟩, fun s v => ⟨(s.writeIrqEn v).respond .ok, hostWrite_irqEn s v, rfl, ?_, ?_⟩⟩
  · rw [← irqEnWord_writeIrqEn s v]
    exact hostRead_irqEn _
  · exact irq_writeIrqEn_iff s v

/-! ### ID, CONFIG, CMD, SA, SB and SR -/

theorem npoly_range (b : Build) : 1 ≤ b.npoly ∧ b.npoly ≤ 16 := by
  unfold Build.npoly
  omega

theorem dvBits_eq (d : DvWidth) : d.bits = 4 ∨ d.bits = 5 := by cases d <;> decide

/-- CONFIG by its fields: NPOLY in bits 7:0, DV in bits 15:8, 0 above (R19). -/
theorem configWord_fields (b : Build) :
    ((configWord b).extractLsb' 0 8).toNat = b.npoly ∧ ((configWord b).extractLsb' 8 8).toNat = b.dv.bits ∧
      (configWord b).extractLsb' 16 16 = 0 := by
  have hn := npoly_range b
  have hd := dvBits_eq b.dv
  have hw : (configWord b).toNat = b.npoly + b.dv.bits * 256 := by
    rw [configWord, BitVec.toNat_ofNat]
    exact Nat.mod_eq_of_lt (by omega)
  refine ⟨?_, ?_, BitVec.eq_of_toNat_eq ?_⟩ <;>
    simp only [BitVec.extractLsb'_toNat, hw, Nat.shiftRight_eq_div_pow, BitVec.ofNat_eq_ofNat,
      BitVec.toNat_ofNat] <;>
    omega

/-- Settles O18. -/
theorem registerWindow : Obligations.RegisterWindow := by
  intro s
  obtain ⟨hnpoly, hdv, hhigh⟩ := configWord_fields s.build
  obtain ⟨hlow, hle⟩ := npoly_range s.build
  refine ⟨⟨configWord s.build, hostRead_id s, hostRead_config s, hnpoly, hlow, hle, hdv, dvBits_eq _, hhigh⟩,
    hostRead_cmd s, fun h v => ?_⟩
  exact ⟨hostWrite_sa h v, hostWrite_sb h v, hostRead_sa h, hostRead_sb h, hostRead_sr h⟩

end Sys2Proof.Machine
end

section
/-! PROOFS. The commands by their operand class (spec/30_encoding.md R55): when a command stops, what it records, and
that the scalar registers and the polynomial data are separate (spec/10_state.md R10, R14, R27). -/

namespace Sys2Proof.Machine

/-! ### When each class answers, and with which state -/

theorem runUnary_next_iff {f : Poly → Poly} {rd rs1 : PolyIdx} {s t : State} :
    runUnary f rd rs1 s = .next t ↔ (s.hasReg rd && s.hasReg rs1) = true ∧
      t = ((s.noteRead 256 (s.polyWritten rs1)).setPoly rd (f (s.polyValues rs1))).complete := by
  cases h : s.hasReg rd && s.hasReg rs1
  · simp [runUnary_fault h]
  · obtain ⟨h0, h1⟩ := Bool.and_eq_true_iff.mp h
    simp [runUnary_eq h0 h1, eq_comm]

theorem runBinary_next_iff {f : Poly → Poly → Poly} {rd rs1 rs2 : PolyIdx} {s t : State} :
    runBinary f rd rs1 rs2 s = .next t ↔ (s.hasReg rd && s.hasReg rs1 && s.hasReg rs2) = true ∧
      t = (((s.noteRead 256 (s.polyWritten rs1)).noteRead 256 (s.polyWritten rs2)).setPoly rd
        (f (s.polyValues rs1) ((s.noteRead 256 (s.polyWritten rs1)).polyValues rs2))).complete := by
  cases h : s.hasReg rd && s.hasReg rs1 && s.hasReg rs2
  · simp [runBinary_fault h]
  · obtain ⟨h01, h2⟩ := Bool.and_eq_true_iff.mp h
    obtain ⟨h0, h1⟩ := Bool.and_eq_true_iff.mp h01
    simp [runBinary_eq h0 h1 h2, eq_comm]

theorem runStore_next_iff {f : Poly → List Byte} {rs1 : PolyIdx} {s t : State} :
    runStore f rs1 s = .next t ↔ s.hasReg rs1 = true ∧
      t = ((s.noteRead 256 (s.polyWritten rs1)).setBytes 0 (f (s.polyValues rs1))).complete := by
  cases h : s.hasReg rs1
  · simp [runStore_fault h]
  · simp [runStore_eq h, eq_comm]

theorem runLoad_next_iff {n : Nat} {f : List Byte → Poly} {rd : PolyIdx} {s t : State} :
    runLoad n f rd s = .next t ↔ s.hasReg rd = true ∧
      t = ((s.noteRead n (s.bufWritten 0 n)).setPoly rd (f (s.bufValues 0 n))).complete := by
  cases h : s.hasReg rd
  · simp [runLoad_fault h]
  · simp [runLoad_eq h, eq_comm]

/-! ### Every command has one of the five forms -/

/-- The operand class of a command: the shared operation it runs, with the registers it names and the sources it reads.
COMPRESS and DECOMPRESS depend on DV, so the function of a transfer with BUF takes it. -/
inductive HasForm (i : Instr) : Prop
  | scalar (f : Word → Word → Int) (run : ∀ s, exec i s = runScalar f s) (regs : i.usedRegs = [])
      (sources : sourceRegs i = []) (bytes : ∀ dv, sourceBytes dv i = 0) (isPoly : isPolynomialCommand i = false)
  | unary (f : Poly → Poly) (rd rs1 : PolyIdx) (run : ∀ s, exec i s = runUnary f rd rs1 s)
      (regs : i.usedRegs = [rd, rs1]) (sources : sourceRegs i = [rs1]) (bytes : ∀ dv, sourceBytes dv i = 0)
      (isPoly : isPolynomialCommand i = true)
  | binary (f : Poly → Poly → Poly) (rd rs1 rs2 : PolyIdx) (run : ∀ s, exec i s = runBinary f rd rs1 rs2 s)
      (regs : i.usedRegs = [rd, rs1, rs2]) (sources : sourceRegs i = [rs1, rs2])
      (bytes : ∀ dv, sourceBytes dv i = 0) (isPoly : isPolynomialCommand i = true)
  | store (f : Nat → Poly → List Byte) (rs1 : PolyIdx) (run : ∀ s, exec i s = runStore (f s.build.dv.bits) rs1 s)
      (regs : i.usedRegs = [rs1]) (sources : sourceRegs i = [rs1]) (bytes : ∀ dv, sourceBytes dv i = 0)
      (isPoly : isPolynomialCommand i = true)
  | load (f : Nat → List Byte → Poly) (rd : PolyIdx)
      (run : ∀ s, exec i s = runLoad (sourceBytes s.build.dv.bits i) (f s.build.dv.bits) rd s)
      (regs : i.usedRegs = [rd]) (sources : sourceRegs i = []) (isPoly : isPolynomialCommand i = true)

theorem hasForm (i : Instr) : HasForm i := by
  cases i with
  | montred => exact .scalar _ exec_montred rfl rfl (fun _ => rfl) rfl
  | barrett => exact .scalar _ exec_barrett rfl rfl (fun _ => rfl) rfl
  | fqmul => exact .scalar _ exec_fqmul rfl rfl (fun _ => rfl) rfl
  | frommontS => exact .scalar _ exec_frommontS rfl rfl (fun _ => rfl) rfl
  | ntt rd rs1 => exact .unary _ rd rs1 (exec_ntt · rd rs1) rfl rfl (fun _ => rfl) rfl
  | polyNtt rd rs1 => exact .unary _ rd rs1 (exec_polyNtt · rd rs1) rfl rfl (fun _ => rfl) rfl
  | invntt rd rs1 => exact .unary _ rd rs1 (exec_invntt · rd rs1) rfl rfl (fun _ => rfl) rfl
  | basemul rd rs1 rs2 => exact .binary _ rd rs1 rs2 (exec_basemul · rd rs1 rs2) rfl rfl (fun _ => rfl) rfl
  | add rd rs1 rs2 => exact .binary _ rd rs1 rs2 (exec_add · rd rs1 rs2) rfl rfl (fun _ => rfl) rfl
  | sub rd rs1 rs2 => exact .binary _ rd rs1 rs2 (exec_sub · rd rs1 rs2) rfl rfl (fun _ => rfl) rfl
  | reduce rd rs1 => exact .unary _ rd rs1 (exec_reduce · rd rs1) rfl rfl (fun _ => rfl) rfl
  | frommont rd rs1 => exact .unary _ rd rs1 (exec_frommont · rd rs1) rfl rfl (fun _ => rfl) rfl
  | tobytes rs1 => exact .store (fun _ => toBytesFn) rs1 (exec_tobytes · rs1) rfl rfl (fun _ => rfl) rfl
  | frombytes rd => exact .load (fun _ => fromBytesFn) rd (exec_frombytes · rd) rfl rfl rfl
  | compress rs1 => exact .store compressFn rs1 (exec_compress · rs1) rfl rfl (fun _ => rfl) rfl
  | decompress rd => exact .load decompressFn rd (exec_decompress · rd) rfl rfl rfl
  | frommsg rd => exact .load (fun _ => fromMsgFn) rd (exec_frommsg · rd) rfl rfl rfl
  | tomsg rs1 => exact .store (fun _ => toMsgFn) rs1 (exec_tomsg · rs1) rfl rfl (fun _ => rfl) rfl

/-! ### A command stops exactly when it names an absent register -/

/-- A command is well formed for an engine exactly when each register it names exists. -/
theorem wf_eq_all_hasReg (s : State) (i : Instr) : i.wf s.build.npoly = i.usedRegs.all s.hasReg := rfl

/-- A command of existing registers completes (R12). -/
theorem exec_next_of_wf {s : State} {i : Instr} (h : i.wf s.build.npoly = true) : ∃ t, exec i s = .next t := by
  rw [wf_eq_all_hasReg] at h
  cases hasForm i with
  | scalar f run => exact ⟨_, (run s).trans (runScalar_eq f s)⟩
  | unary f rd rs1 run regs =>
    exact ⟨_, (run s).trans (runUnary_next_iff.mpr ⟨by simpa [regs] using h, rfl⟩)⟩
  | binary f rd rs1 rs2 run regs =>
    exact ⟨_, (run s).trans (runBinary_next_iff.mpr ⟨by simpa [regs, and_assoc] using h, rfl⟩)⟩
  | store f rs1 run regs => exact ⟨_, (run s).trans (runStore_next_iff.mpr ⟨by simpa [regs] using h, rfl⟩)⟩
  | load f rd run regs => exact ⟨_, (run s).trans (runLoad_next_iff.mpr ⟨by simpa [regs] using h, rfl⟩)⟩

/-- Settles O50: each class but the scalar one checks all the registers it names. -/
theorem absentRegisterStops : Obligations.AbsentRegisterStops := by
  intro s i h
  rw [wf_eq_all_hasReg] at h
  cases hasForm i with
  | scalar f run regs => simp [regs] at h
  | unary f rd rs1 run regs => exact (run s).trans (runUnary_fault (by simpa [regs] using h))
  | binary f rd rs1 rs2 run regs =>
    exact (run s).trans (runBinary_fault (by simpa [regs, Bool.and_assoc] using h))
  | store f rs1 run regs => exact (run s).trans (runStore_fault (by simpa [regs] using h))
  | load f rd run regs => exact (run s).trans (runLoad_fault (by simpa [regs] using h))

/-! ### The record of a read of an unwritten element -/

theorem bufAllWritten_zero (s : State) : s.BufAllWritten 0 := fun j hj => absurd hj (Nat.not_lt_zero j)

/-- A completed command has recorded a model fault exactly when one was recorded or a source is not fully
written (R27, R170). -/
theorem exec_unwrittenRead_iff {i : Instr} {s t : State} (h : exec i s = .next t) :
    t.unwrittenRead = true ↔
      s.unwrittenRead = true ∨ (∃ p ∈ sourceRegs i, ¬s.AllWritten p) ∨
        ¬s.BufAllWritten (sourceBytes s.build.dv.bits i) := by
  cases hasForm i with
  | scalar f run regs sources bytes =>
    cases (run s).symm.trans h
    simp [sources, bytes, bufAllWritten_zero]
  | unary f rd rs1 run regs sources bytes =>
    obtain ⟨-, rfl⟩ := runUnary_next_iff.mp ((run s).symm.trans h)
    simp [sources, bytes, bufAllWritten_zero, ← polyWritten_iff]
  | binary f rd rs1 rs2 run regs sources bytes =>
    obtain ⟨-, rfl⟩ := runBinary_next_iff.mp ((run s).symm.trans h)
    simp [sources, bytes, bufAllWritten_zero, ← polyWritten_iff, or_assoc]
  | store f rs1 run regs sources bytes =>
    obtain ⟨-, rfl⟩ := runStore_next_iff.mp ((run s).symm.trans h)
    simp [sources, bytes, bufAllWritten_zero, ← polyWritten_iff]
  | load f rd run regs sources =>
    obtain ⟨-, rfl⟩ := runLoad_next_iff.mp ((run s).symm.trans h)
    simp [sources, ← bufWritten_iff]

/-- Settles O51. -/
theorem unwrittenSourceIsRecorded : Obligations.UnwrittenSourceIsRecorded := by
  refine ⟨fun s t i => exec_unwrittenRead_iff, fun s t h => (step_carries h).record, fun k s t h hs ht => ?_⟩
  obtain ⟨-, hvalid⟩ := ht
  have hrecord : t.unwrittenRead = true := run_unwrittenRead (by simpa [State.valid] using hs) h
  exact Bool.false_ne_true (hvalid.symm.trans hrecord)

/-! ### The scalar registers beside P and BUF -/

/-- The state with other values in SA, SB and SR. -/
def State.setScalars (s : State) (sa sb sr : Word) : State := { s with sa := sa, sb := sb, sr := sr }

theorem noteRead_setScalars (s : State) (sa sb sr : Word) (n : Nat) (b : Bool) :
    (s.setScalars sa sb sr).noteRead n b = (s.noteRead n b).setScalars sa sb sr := by cases b <;> rfl

/-- A polynomial command neither reads nor writes SA, SB and SR (R14). -/
theorem exec_setScalars {i : Instr} {s t : State} (sa sb sr : Word) (hi : isPolynomialCommand i = true)
    (h : exec i s = .next t) : exec i (s.setScalars sa sb sr) = .next (t.setScalars sa sb sr) := by
  cases hasForm i with
  | scalar f run regs sources bytes isPoly => simp [isPoly] at hi
  | unary f rd rs1 run =>
    rw [run] at h ⊢
    obtain ⟨hr, rfl⟩ := runUnary_next_iff.mp h
    exact runUnary_next_iff.mpr ⟨hr, by rw [noteRead_setScalars]; rfl⟩
  | binary f rd rs1 rs2 run =>
    rw [run] at h ⊢
    obtain ⟨hr, rfl⟩ := runBinary_next_iff.mp h
    exact runBinary_next_iff.mpr ⟨hr, by rw [noteRead_setScalars, noteRead_setScalars]; rfl⟩
  | store f rs1 run =>
    rw [run] at h ⊢
    obtain ⟨hr, rfl⟩ := runStore_next_iff.mp h
    exact runStore_next_iff.mpr ⟨hr, by rw [noteRead_setScalars]; rfl⟩
  | load f rd run =>
    rw [run] at h ⊢
    obtain ⟨hr, rfl⟩ := runLoad_next_iff.mp h
    exact runLoad_next_iff.mpr ⟨hr, by rw [noteRead_setScalars]; rfl⟩

/-- A scalar command sees SA and SB only through its result. -/
theorem runScalar_congr {s : State} {x y : Word} (f : Word → Word → Int) (h : f x y = f s.sa s.sb) :
    runScalar f { s with sa := x, sb := y } =
      .next { (s.setSr (u32 (f s.sa s.sb))).complete with sa := x, sb := y } := by
  rw [runScalar_eq, h]
  rfl

/-- A scalar command writes SR and completes, and nothing else changes (R14). -/
theorem exec_onlySr {i : Instr} {s t : State} (hi : isPolynomialCommand i = false) (h : exec i s = .next t) :
    s.OnlySr t := by
  cases hasForm i with
  | scalar f run =>
    cases (run s).symm.trans h
    exact runScalar_frame f s
  | unary _ _ _ _ _ _ _ isPoly => simp [isPoly] at hi
  | binary _ _ _ _ _ _ _ _ isPoly => simp [isPoly] at hi
  | store _ _ _ _ _ _ isPoly => simp [isPoly] at hi
  | load _ _ _ _ _ isPoly => simp [isPoly] at hi

theorem sext16_congr {x y : Word} (h : x.extractLsb' 0 16 = y.extractLsb' 0 16) : sext16 x = sext16 y := by
  rw [sext16, h, sext16]

/-- Settles O52. -/
theorem scalarRegistersAreSeparate : Obligations.ScalarRegistersAreSeparate := by
  refine ⟨fun s t i => exec_setScalars, fun s x y hx hy => ⟨?_, ?_⟩, fun s y => ⟨?_, ?_⟩,
    fun s t i => exec_onlySr⟩
  · exact ⟨_, exec_barrett s, runScalar_congr (fun sa _ => barrettReduce (sext16 sa)) (by rw [sext16_congr hx])⟩
  · exact ⟨_, exec_fqmul s,
      runScalar_congr (fun sa sb => fqmul (sext16 sa) (sext16 sb)) (by rw [sext16_congr hx, sext16_congr hy])⟩
  · exact ⟨_, exec_montred s, runScalar_congr (x := s.sa) (fun sa _ => montgomeryReduce (sext32 sa)) rfl⟩
  · exact ⟨_, exec_frommontS s, runScalar_congr (x := s.sa) (fun sa _ => frommontFn (sext32 sa)) rfl⟩

end Sys2Proof.Machine
end

section
/-! PROOFS. Steps and runs: what the next event makes of a step, that every run ends, reset and the builds
(spec/10_state.md R12, R21, R26, spec/70_reset_and_hazards.md R190 to R199). -/

namespace Sys2Proof.Machine

/-! ### One step, by the next event -/

theorem engineStep_of_idle {s : State} (h : s.pending = none) : engineStep s = .next s := by rw [engineStep, h]

theorem engineStep_of_pending {s : State} {i : Instr} (h : s.pending = some i) : engineStep s = exec i s := by
  rw [engineStep, h]

theorem step_of_nil {s : State} (h : s.inputs = []) : step s = engineStep s := by rw [step, h]

theorem step_of_engine {s : State} {rest : List Input} (h : s.inputs = .engine :: rest) :
    step s = engineStep { s with inputs := rest } := by rw [step, h]

theorem step_of_host {s : State} {addr : Nat} {a : Access} {rest : List Input}
    (h : s.inputs = .host addr a :: rest) :
    step s = .next (State.hostAccess { s with inputs := rest } addr a) := by rw [step, h]

theorem step_of_reset {s : State} {rest : List Input} (h : s.inputs = .reset :: rest) :
    step s = .next (State.resetEvent { s with inputs := rest }) := by rw [step, h]

/-- Issuing a word that decodes accepts its command (R172). -/
theorem issue_of_ok {s : State} {w : Word} {i : Instr} (h : decode s.build.npoly w = .ok i) :
    s.issue w = s.accept i := by rw [State.issue, h]

/-- A word placed by `withFetchWord` is issued with no command pending, and the engine's turn comes next. -/
theorem withFetchWord_of_ok {s : State} {w : Nat} {i : Instr} (hw : w < 2 ^ 32)
    (h : decode s.build.npoly (BitVec.ofNat 32 w) = .ok i) :
    s.withFetchWord 32 w = { s.accept i with inputs := .engine :: s.inputs } := by
  rw [State.withFetchWord, Nat.mod_eq_of_lt hw, issue_of_ok (s := { s with pending := none }) h]
  rfl

/-- Settles O53. -/
theorem stepRunsThePendingCommand : Obligations.StepRunsThePendingCommand := by
  refine ⟨fun s i hp hi => ?_, fun s i rest hp hi => ?_, fun s rest hp hi => ?_, fun s hp hi => ?_,
    fun s w i hw hd => ?_⟩
  · rw [step_of_nil hi, engineStep_of_pending hp]
  · rw [step_of_engine hi]
    exact engineStep_of_pending hp
  · rw [step_of_engine hi]
    exact engineStep_of_idle hp
  · rw [step_of_nil hi, engineStep_of_idle hp]
  · rw [withFetchWord_of_ok hw hd, step_of_engine rfl]
    exact engineStep_of_pending rfl

/-- A write of a word that decodes, to the address of CMD of an idle engine, accepts its command (R30, R172). -/
theorem hostAccess_cmd_of_ok {s : State} {w : Word} {i : Instr} (hb : s.busy = false)
    (h : decode s.build.npoly w = .ok i) :
    s.hostAccess (s.build.base + 0x00C) (.write .bits32 w) = (s.accept i).respond .ok := by
  rw [State.hostAccess, if_pos (by omega), Nat.add_sub_cancel_left, ← issue_of_ok h]
  exact hostWrite_cmd hb w

/-- A run of one step of any machine is that step. -/
theorem run_one_eq_step {M : Host.Core} (s : M.State) : M.run 1 s = M.step s := by
  simp only [Host.Core.run]
  cases M.step s <;> rfl

theorem run_one (s : State) : core.run 1 s = step s := run_one_eq_step (M := core) s

/-- Settles O54: the acceptance, then the engine's turn. -/
theorem hostAccessIsOneStep : Obligations.HostAccessIsOneStep := by
  refine ⟨fun s addr a rest h => step_of_host h, fun s w i rest hb hd hi => ?_⟩
  have haccept := (step_of_host hi).trans
    (congrArg _ (hostAccess_cmd_of_ok (s := { s with inputs := .engine :: rest }) hb hd))
  rw [run_succ 1 haccept, run_one, step_of_engine rfl]
  exact engineStep_of_pending rfl

/-! ### Every step goes on, and every run ends -/

/-- The engine's turn completes the pending command, which names only registers that exist. -/
theorem engineStep_next {s : State} (hs : s.Inv) : ∃ t, engineStep s = .next t := by
  cases hp : s.pending with
  | none => exact ⟨s, engineStep_of_idle hp⟩
  | some i =>
    rw [engineStep_of_pending hp]
    exact exec_next_of_wf ((pendingWf_of_pending hp).symm.trans hs.pending_wf)

theorem step_next {s : State} (hs : s.Inv) : ∃ t, step s = .next t := by
  cases hi : s.inputs with
  | nil => rw [step_of_nil hi]; exact engineStep_next hs
  | cons e rest =>
    cases e with
    | host addr a => exact ⟨_, step_of_host hi⟩
    | engine => rw [step_of_engine hi]; exact engineStep_next hs.popInput
    | reset => exact ⟨_, step_of_reset hi⟩

/-- With no event listed and nothing pending the machine stays where it is (R185). -/
theorem run_of_idle {s : State} (hi : s.inputs = []) (hp : s.pending = none) (m : Nat) : core.run m s = .next s := by
  induction m with
  | zero => rfl
  | succ m ih => rw [run_succ m ((step_of_nil hi).trans (engineStep_of_idle hp)), ih]

/-- One step after the listed events nothing is left to happen and nothing is pending. -/
theorem run_to_idle {s : State} (hs : s.Inv) :
    ∃ t, core.run (s.inputs.length + 1) s = .next t ∧ t.inputs = [] ∧ t.pending = none := by
  induction hi : s.inputs generalizing s with
  | nil =>
    obtain ⟨t, ht⟩ := step_next hs
    refine ⟨t, (run_one s).trans ht, ?_, ?_⟩
    · rw [(step_carries ht).inputs, State.popInput, hi]; rfl
    · exact engineStep_pending ((step_of_nil hi).symm.trans ht)
  | cons e rest ih =>
    obtain ⟨u, hu⟩ := step_next hs
    have hrest : u.inputs = rest := by rw [(step_carries hu).inputs, State.popInput, hi]; rfl
    obtain ⟨t, ht, hidle⟩ := ih (step_inv hs hu) hrest
    exact ⟨t, (run_succ _ hu).trans ht, hidle⟩

theorem runOver_of_idle {s : State} (hi : s.inputs = []) (hp : s.pending = none) : s.runOver :=
  ⟨by simp [State.hostDone, hi], hp⟩

/-- A run that reaches a state in which it is over has a first such state, and ends there (R199). -/
theorem exists_endsRun {n : Nat} {s t : State} (h : core.run n s = .next t) (ho : t.runOver) :
    ∃ (k : Nat) (u : State), k ≤ n ∧ s.EndsRun k u := by
  classical
  have hex : ∃ k u, core.run k s = .next u ∧ u.runOver := ⟨n, t, h, ho⟩
  obtain ⟨u, hu, hover⟩ := Nat.find_spec hex
  exact ⟨Nat.find hex, u, Nat.find_min' hex ⟨t, h, ho⟩, hu, hover,
    fun j v hj hv hov => Nat.find_min hex hj ⟨v, hv, hov⟩⟩

/-! ### After the end of a run -/

/-- Once a run is over and no reset is listed, a step uses up an engine's turn, if one is left, and does nothing
else. -/
theorem step_of_runOver {s : State} (ho : s.runOver) (hr : Input.reset ∉ s.inputs) : step s = .next s.popInput := by
  obtain ⟨hdone, hp⟩ := ho
  cases hi : s.inputs with
  | nil => rw [step_of_nil hi, popInput_of_nil hi, engineStep_of_idle hp]
  | cons e rest =>
    cases e with
    | host addr a => simp [State.hostDone, hi, Input.isHost] at hdone
    | engine =>
      rw [step_of_engine hi, popInput_of_cons hi]
      exact engineStep_of_idle hp
    | reset => simp [hi] at hr

/-- After the end of a run it stays over and no response is added; what is observed changes only by a reset still to
come (R199). -/
theorem run_of_runOver {s : State} (hs : s.Inv) (ho : s.runOver) (m : Nat) :
    ∃ u : State, core.run m s = .next u ∧ u.runOver ∧ u.observation.responses = s.observation.responses ∧
      (Input.reset ∉ s.inputs → u.observation = s.observation) := by
  induction m generalizing s with
  | zero => exact ⟨s, rfl, ho, rfl, fun _ => rfl⟩
  | succ m ih =>
    obtain ⟨v, hv⟩ := step_next hs
    obtain ⟨hover, hresp⟩ := runOver_step ho hv
    obtain ⟨u, hu, huo, hur, huobs⟩ := ih (step_inv hs hv) hover
    refine ⟨u, (run_succ m hv).trans hu, huo, hur.trans hresp, fun hr => ?_⟩
    obtain rfl : s.popInput = v := Host.Outcome.next.inj ((step_of_runOver ho hr).symm.trans hv)
    exact huobs fun hmem => hr (List.mem_of_mem_tail hmem)

/-- Settles O57. -/
theorem noRunStopsOrEndsWithACommandPending : Obligations.NoRunStopsOrEndsWithACommandPending := by
  intro s hs
  obtain ⟨t, ht, hi, hp⟩ := run_to_idle hs
  have hover := runOver_of_idle hi hp
  refine ⟨step_next hs, ⟨t, ht, hi, hover, run_of_idle hi hp⟩, exists_endsRun ht hover, fun k u hu ho => ?_⟩
  obtain ⟨hdone, hidle⟩ := ho
  have hbusy : u.busy = false := by simp [State.busy, hidle]
  exact ⟨hidle, and_iff_right ⟨hdone, hidle⟩, (statusWord_busy u).trans hbusy, run_responses_prefix hu,
    run_of_runOver (run_inv hs hu) ⟨hdone, hidle⟩⟩

/-! ### Reset and the builds -/

/-- CONFIG as the spec writes it (R19). -/
theorem configWord_eq (b : Build) : configWord b = BitVec.ofNat 32 (b.npoly + 256 * b.dv.bits) := by
  rw [configWord, Nat.mul_comm]

theorem statusWord_resetOf (b : Build) : (State.resetOf b).statusWord = 0 := by
  simp [State.statusWord, State.busy, State.err, State.errcode]

theorem statusWord_resetEvent (s : State) : s.resetEvent.statusWord = 0 := statusWord_resetOf s.build

/-- Settles O59: a reset event leaves the reset state of the same build, but for the model's own fields. -/
theorem resetSetsEveryRegister : Obligations.ResetSetsEveryRegister := by
  refine ⟨fun b => ?_, fun s rest h => ?_⟩
  · exact ⟨statusWord_resetOf b, rfl, rfl, rfl, rfl, rfl, rfl, elem_resetOf b, fun _ => rfl, rfl, rfl,
      configWord_eq b⟩
  · exact ⟨_, step_of_reset h, statusWord_resetEvent _, rfl, rfl, rfl, rfl, rfl, rfl, elem_resetEvent _,
      fun _ => rfl, rfl, rfl, rfl, fun _ => rfl, rfl⟩

/-- Settles O60. -/
theorem onlyLegalBuildsAreConstructed : Obligations.OnlyLegalBuildsAreConstructed := by
  intro npoly dv base
  refine ⟨?_, fun h => ?_⟩
  · rintro ⟨h1, h16, rfl | rfl⟩
    · exact ⟨⟨⟨npoly - 1, by omega⟩, .four, base⟩, by simp [Build.make?, h1, h16], Nat.sub_add_cancel h1, rfl,
        rfl⟩
    · exact ⟨⟨⟨npoly - 1, by omega⟩, .five, base⟩, by simp [Build.make?, h1, h16], Nat.sub_add_cancel h1, rfl,
        rfl⟩
  · unfold Build.make?
    split
    · rw [if_neg (by omega), if_neg (by omega)]
    · rfl

end Sys2Proof.Machine
end

section
/-! PROOFS. The host window: which accesses are refused, and the address map (spec/20_memory.md R30 to R33, R35,
R39, R40). -/

namespace Sys2Proof.Machine

/-! ### Which accesses are refused -/

/-- The checks a host read fails (R32, R33, R39, R40). -/
def State.refusesRead (s : State) (off : Offset) (width : Width) : Bool :=
  !wellFormedAccess off width || (regionOf off).absent s.build.npoly || (s.busy && (regionOf off).readGated)

/-- The checks a host write fails without any effect (R32, R33, R35, R38, R39, R40); a CMD write while BUSY = 1 is
refused beside them. -/
def State.refusesWrite (s : State) (off : Offset) (width : Width) : Bool :=
  !wellFormedAccess off width || (regionOf off).absent s.build.npoly || (regionOf off).readOnly ||
    (s.busy && (regionOf off).readGated)

theorem writeGated_eq (r : Region) : r.writeGated = (decide (r = .cmd) || r.readGated) := by cases r <;> rfl

theorem raiseBusError_eq (s : State) : s.raiseBusError = s.refusedAccess := rfl

section
variable {s : State} {off : Offset} {width : Width}

theorem hostRead_refused (h : s.refusesRead off width = true) : s.hostRead off width = s.refusedAccess := by
  obtain hr | ⟨h1, h2, h3, -⟩ := hostRead_cases s off width
  · exact hr
  · simp [State.refusesRead, h1, h2, h3] at h

theorem hostRead_permitted (h : s.refusesRead off width = false) :
    s.hostRead off width = (s.afterRead (regionOf off)).respond (.data (s.readWord (regionOf off))) := by
  simp only [State.refusesRead, Bool.or_eq_false_iff] at h
  obtain ⟨⟨h1, h2⟩, h3⟩ := h
  simp [State.hostRead, h1, h2, h3]

theorem hostWrite_refused (h : s.refusesWrite off width = true) (v : Word) :
    s.hostWrite off width v = s.refusedAccess := by
  obtain hw | ⟨-, hcmd, -⟩ | ⟨h1, h2, h3, h4, -⟩ := hostWrite_cases s off width v
  · exact hw
  · have hwf : wellFormedAccess off width = false := by
      simpa [State.refusesWrite, hcmd, Region.absent, Region.readOnly, Region.readGated] using h
    simp [State.hostWrite, hwf, raiseBusError_eq]
  · rw [writeGated_eq, Bool.and_or_distrib_left, Bool.or_eq_false_iff] at h4
    simp [State.refusesWrite, h1, h2, h3, h4] at h

theorem hostWrite_permitted (h : s.refusesWrite off width = false) (hcmd : s.busy = false ∨ regionOf off ≠ .cmd)
    (v : Word) : s.hostWrite off width v = (s.writeWord (regionOf off) v).respond .ok := by
  simp only [State.refusesWrite, Bool.or_eq_false_iff] at h
  obtain ⟨⟨⟨h1, h2⟩, h3⟩, h4⟩ := h
  have h5 : (s.busy && (regionOf off).writeGated) = false := by
    rw [writeGated_eq, Bool.and_or_distrib_left, h4]
    obtain hb | hr := hcmd
    · simp [hb]
    · simp [hr]
  simp [State.hostWrite, h1, h2, h3, h5]

/-- A CMD write while BUSY = 1 is discarded and sets OVR (R40). -/
theorem hostWrite_cmd_busy (h : s.refusesWrite off width = false) (hb : s.busy = true) (hcmd : regionOf off = .cmd)
    (v : Word) : s.hostWrite off width v = s.setOvr.refusedAccess := by
  have hwf : wellFormedAccess off width = true := by
    simpa [State.refusesWrite, hcmd, Region.absent, Region.readOnly, Region.readGated] using h
  simp [State.hostWrite, hwf, hb, hcmd, Region.absent, Region.readOnly, Region.writeGated, raiseBusError_eq]

theorem refuses_of_malformed (h : wellFormedAccess off width = false) :
    s.refusesRead off width = true ∧ s.refusesWrite off width = true := by
  simp [State.refusesRead, State.refusesWrite, h]

theorem refuses_of_absent (h : (regionOf off).absent s.build.npoly = true) :
    s.refusesRead off width = true ∧ s.refusesWrite off width = true := by
  simp [State.refusesRead, State.refusesWrite, h]

theorem refuses_of_gated (hb : s.busy = true) (h : (regionOf off).readGated = true) :
    s.refusesRead off width = true ∧ s.refusesWrite off width = true := by
  simp [State.refusesRead, State.refusesWrite, hb, h]

theorem refusesWrite_of_readOnly (h : (regionOf off).readOnly = true) : s.refusesWrite off width = true := by
  simp [State.refusesWrite, h]

end

/-- An aligned offset is one whose low two bits are 0 (R33). -/
theorem extractLsb'_two_eq_zero_iff (off : Offset) : off.extractLsb' 0 2 = 0 ↔ off.toNat % 4 = 0 := by
  rw [← BitVec.toNat_inj]
  simp

/-- The access is malformed exactly when R32 or R33 refuses it. -/
theorem wellFormedAccess_eq_false_iff (off : Offset) (width : Width) :
    wellFormedAccess off width = false ↔ width ≠ .bits32 ∨ off.extractLsb' 0 2 ≠ 0 := by
  rw [Ne.eq_def (off.extractLsb' 0 2), extractLsb'_two_eq_zero_iff]
  simp [wellFormedAccess, imp_iff_not_or]

/-- Settles O12. -/
theorem narrowOrMisalignedIsRefused : Obligations.NarrowOrMisalignedIsRefused := by
  intro s off width v h
  obtain ⟨hr, hw⟩ := refuses_of_malformed (s := s) ((wellFormedAccess_eq_false_iff off width).mpr h)
  exact ⟨hostRead_refused hr, hostWrite_refused hw v⟩

/-! ### The address map -/

/-- Settles O11: the offset of `BASE + off` is `off`, and the window ends at BASE + 0x7FFF. -/
theorem windowStartsAtBase : Obligations.WindowStartsAtBase := by
  intro s off width v
  have hin : s.build.base ≤ s.build.base + off.toNat ∧ s.build.base + off.toNat < s.build.base + 0x8000 := by omega
  have hoff : BitVec.ofNat 15 (s.build.base + off.toNat - s.build.base) = off := by simp
  refine ⟨?_, ?_, fun addr a h => ?_⟩
  · simp only [State.hostAccess, if_pos hin, hoff]
  · simp only [State.hostAccess, if_pos hin, hoff]
  · exact if_neg (by omega)

/-- The reserved ranges of the map (R31). -/
theorem regionOf_reserved {off : Offset}
    (h : (0x020 ≤ off.toNat ∧ off.toNat ≤ 0x0FFF) ∨ (0x3180 ≤ off.toNat ∧ off.toNat ≤ 0x3FFF) ∨
      0x4100 ≤ off.toNat) : regionOf off = .reserved := by
  unfold regionOf
  iterate 8 rw [if_neg (by omega)]
  iterate 3 rw [dif_neg (by omega)]

/-- A slot the engine does not have (R39). -/
theorem absent_of_slot {off : Offset} {npoly : Nat} (h : 0x1000 ≤ off.toNat ∧ off.toNat < 0x3000)
    (hp : npoly ≤ (off.toNat - 0x1000) / 0x200) : (regionOf off).absent npoly = true := by
  rw [regionOf_poly h]
  exact decide_eq_true hp

/-- Settles O13. -/
theorem reservedAndReadOnlyOffsetsAreRefused : Obligations.ReservedAndReadOnlyOffsetsAreRefused := by
  intro s off width v
  refine ⟨fun h => ?_, fun h => ?_⟩
  · have habsent : (regionOf off).absent s.build.npoly = true := by
      obtain h | h | h | ⟨hlo, hhi, hp⟩ := h
      · rw [regionOf_reserved (.inl h)]; rfl
      · rw [regionOf_reserved (.inr (.inl h))]; rfl
      · rw [regionOf_reserved (.inr (.inr h))]; rfl
      · exact absent_of_slot ⟨hlo, by omega⟩ hp
    obtain ⟨hr, hw⟩ := refuses_of_absent (width := width) habsent
    exact ⟨hostRead_refused hr, hostWrite_refused hw v⟩
  · have hro : (regionOf off).readOnly = true := by
      obtain rfl | rfl | rfl | ⟨hlo, hhi⟩ := h
      · rfl
      · rfl
      · rfl
      · rw [regionOf_rom ⟨hlo, by omega⟩]; rfl
    exact hostWrite_refused (refusesWrite_of_readOnly hro) v

end Sys2Proof.Machine
end

section
/-! PROOFS. The three tables of the host window: the polynomial registers, BUF and the twiddle ROM
(spec/20_memory.md R34, R36 to R38). -/

namespace Sys2Proof.Machine

/-! ### The offset of word `k` of each table -/

/-- A byte address inside the window is its own offset (R30). -/
theorem offset_toNat {n : Nat} (h : n < 0x8000) : (BitVec.ofNat 15 n : Offset).toNat = n := by
  rw [BitVec.toNat_ofNat]
  exact Nat.mod_eq_of_lt h

/-- A table at a multiple of 4 has its words at multiples of 4. -/
theorem word_aligned {b k : Nat} (hb : b % 4 = 0) (h : b + 4 * k < 0x8000) :
    (BitVec.ofNat 15 (b + 4 * k) : Offset).toNat % 4 = 0 := by
  rw [offset_toNat h]
  omega

theorem regionOf_polyWord (p : PolyIdx) (k : Fin 128) :
    regionOf (BitVec.ofNat 15 (0x1000 + 0x200 * p.val + 4 * k.val)) = .poly p k := by
  have hoff := offset_toNat (n := 0x1000 + 0x200 * p.val + 4 * k.val) (by omega)
  rw [regionOf_poly (by omega)]
  congr 1 <;> apply Fin.ext <;> simp only [hoff] <;> omega

theorem regionOf_bufferWord (k : Fin 96) : regionOf (BitVec.ofNat 15 (0x3000 + 4 * k.val)) = .buffer k := by
  have hoff := offset_toNat (n := 0x3000 + 4 * k.val) (by omega)
  rw [regionOf_buffer (by omega)]
  congr 1; apply Fin.ext; simp only [hoff]; omega

theorem regionOf_romWord (k : Fin 64) : regionOf (BitVec.ofNat 15 (0x4000 + 4 * k.val)) = .rom k := by
  have hoff := offset_toNat (n := 0x4000 + 4 * k.val) (by omega)
  rw [regionOf_rom (by omega)]
  congr 1; apply Fin.ext; simp only [hoff]; omega

section
variable {s : State} {off : Offset} {r : Region} (hr : regionOf off = r) (halign : off.toNat % 4 = 0)
include hr halign

theorem hostRead_region (ha : r.absent s.build.npoly = false) (hg : (s.busy && r.readGated) = false) :
    s.hostRead off .bits32 = (s.afterRead r).respond (.data (s.readWord r)) := by
  subst hr
  exact hostRead_ok halign ha hg

theorem hostWrite_region (ha : r.absent s.build.npoly = false) (hro : r.readOnly = false)
    (hg : (s.busy && r.writeGated) = false) (v : Word) :
    s.hostWrite off .bits32 v = (s.writeWord r v).respond .ok := by
  subst hr
  exact hostWrite_ok halign ha hro hg

end

/-! ### The polynomial window -/

section
variable {s : State} (hb : s.busy = false) {p : PolyIdx} (hp : p.val < s.build.npoly) (k : Fin 128)
include hb hp

theorem hostWrite_polyWord (v : Word) :
    s.hostWrite (BitVec.ofNat 15 (0x1000 + 0x200 * p.val + 4 * k.val)) .bits32 v =
      (s.setCoeffs p k (v.extractLsb' 0 16) (v.extractLsb' 16 16)).respond .ok :=
  hostWrite_region (regionOf_polyWord p k) (word_aligned (by omega) (by omega)) (decide_eq_false (by omega)) rfl
    (by rw [hb]; rfl) v

theorem hostRead_polyWord :
    s.hostRead (BitVec.ofNat 15 (0x1000 + 0x200 * p.val + 4 * k.val)) .bits32 =
      (s.afterRead (.poly p k)).respond (.data (s.readWord (.poly p k))) :=
  hostRead_region (regionOf_polyWord p k) (word_aligned (by omega) (by omega)) (decide_eq_false (by omega))
    (by rw [hb]; rfl)

end

/-- Settles O15. -/
theorem polynomialWindow : Obligations.PolynomialWindow := by
  intro s p k v hb off
  refine ⟨fun hp => ?_, fun hp => ⟨fun q i => ?_, ?_, fun lo hi hlo hhi => ?_, fun h => ?_⟩⟩
  · have habsent : (regionOf off).absent s.build.npoly = true := by
      rw [regionOf_polyWord]
      exact decide_eq_true hp
    obtain ⟨hr, hw⟩ := refuses_of_absent (width := .bits32) habsent
    exact ⟨hostRead_refused hr, hostWrite_refused hw v⟩
  · rw [hostWrite_polyWord hb hp, elem_respond, elem_setCoeffs]
  · rw [hostWrite_polyWord hb hp]
    rfl
  · rw [hostRead_polyWord hb hp]
    simp [State.afterRead, State.readWord, hlo, hhi, Stored.isWritten, Stored.valueOr, wordOfHalves, State.respond]
  · rw [hostRead_polyWord hb hp]
    obtain h | h := h <;> simp [State.afterRead, h, Stored.isWritten]

/-! ### The buffer window -/

section
variable {s : State} (hb : s.busy = false) (k : Fin 96)
include hb

theorem hostWrite_bufferWord (v : Word) :
    s.hostWrite (BitVec.ofNat 15 (0x3000 + 4 * k.val)) .bits32 v =
      (s.setBytes (4 * k.val) (bytesOfWord v)).respond .ok :=
  hostWrite_region (regionOf_bufferWord k) (word_aligned rfl (by omega)) rfl rfl (by rw [hb]; rfl) v

theorem hostRead_bufferWord :
    s.hostRead (BitVec.ofNat 15 (0x3000 + 4 * k.val)) .bits32 =
      (s.noteRead 4 (s.bufWritten (4 * k.val) 4)).respond (.data (wordOfByteList (s.bufValues (4 * k.val) 4))) :=
  hostRead_region (regionOf_bufferWord k) (word_aligned rfl (by omega)) rfl (by rw [hb]; rfl)

end

theorem Memory.read_write (m : Memory) (j i : Nat) (b : Byte) :
    (m.write j b).read i = if i = j then some b else m.read i := by
  split
  · next h => rw [h, Memory.read_write_same]
  · next h => exact Memory.read_write_other m b h

/-- The bytes of BUF after a write of a word: its four bytes from `j` up, the old bytes elsewhere (R34, R37). -/
theorem read_writeBytes_word (m : Memory) (j i : Nat) (v : Word) :
    (m.writeBytes j (bytesOfWord v)).read i =
      if i = j then some (v.extractLsb' 0 8) else if i = j + 1 then some (v.extractLsb' 8 8)
      else if i = j + 2 then some (v.extractLsb' 16 8) else if i = j + 3 then some (v.extractLsb' 24 8)
      else m.read i := by
  simp only [bytesOfWord, Memory.writeBytes, Memory.read_write]

/-- A byte joined below a number is the low digit of base 256. -/
theorem toNat_append_byte {n : Nat} (x : BitVec n) (b : Byte) : (x ++ b).toNat = x.toNat * 256 + b.toNat := by
  rw [BitVec.toNat_append, ← Nat.shiftLeft_add_eq_or_of_lt b.isLt, Nat.shiftLeft_eq]

/-- The word of four bytes is the four bytes joined, the first one lowest (R34). -/
theorem wordOfBytes_eq_append (b0 b1 b2 b3 : Byte) : wordOfBytes b0 b1 b2 b3 = b3 ++ b2 ++ b1 ++ b0 := by
  apply BitVec.eq_of_toNat_eq
  simp only [wordOfBytes, BitVec.toNat_ofNat, toNat_append_byte]
  omega

theorem bufValues_four {s : State} {j : Nat} {b0 b1 b2 b3 : Byte} (h0 : s.buf.read j = some b0)
    (h1 : s.buf.read (j + 1) = some b1) (h2 : s.buf.read (j + 2) = some b2) (h3 : s.buf.read (j + 3) = some b3) :
    s.bufValues j 4 = [b0, b1, b2, b3] := by
  simp [State.bufValues, List.range_succ, h0, h1, h2, h3]

theorem bufWritten_four (s : State) (j : Nat) :
    s.bufWritten j 4 = ((s.buf.read j).isSome && (s.buf.read (j + 1)).isSome && (s.buf.read (j + 2)).isSome &&
      (s.buf.read (j + 3)).isSome) := by
  simp [State.bufWritten, List.range_succ, Bool.and_assoc]

/-- Settles O16. -/
theorem bufferWindow : Obligations.BufferWindow := by
  intro s k v hb off j
  refine ⟨fun m => ?_, ?_, fun b0 b1 b2 b3 h0 h1 h2 h3 => ?_, fun h => ?_⟩
  · rw [hostWrite_bufferWord hb]
    exact read_writeBytes_word s.buf j m v
  · rw [hostWrite_bufferWord hb]
    rfl
  · have hw : s.bufWritten j 4 = true := by simp [bufWritten_four, h0, h1, h2, h3]
    rw [hostRead_bufferWord hb, hw, bufValues_four h0 h1 h2 h3, ← wordOfBytes_eq_append]
    rfl
  · have hw : s.bufWritten j 4 = false := by
      rw [bufWritten_four]
      obtain h | h | h | h := h <;> simp [h]
    rw [hostRead_bufferWord hb, hw]
    simp

/-! ### The ROM window -/

/-- Every twiddle of the table fits a coefficient (R90). -/
theorem zetas_range (i : Nat) : -32768 ≤ zetas i ∧ zetas i ≤ 32767 := by
  have htable : ∀ z ∈ zetaTable, -32768 ≤ z ∧ z ≤ 32767 := by
    simp only [zetaTable, List.forall_mem_append]
    decide
  unfold zetas
  by_cases h : i < zetaTable.length
  · rw [List.getD_eq_getElem _ _ h]
    exact htable _ (List.getElem_mem h)
  · rw [List.getD_eq_default _ _ (Nat.not_lt.mp h)]
    decide

theorem toCoeff_zetas_toInt (i : Nat) : (toCoeff (zetas i)).toInt = zetas i := by
  rw [toCoeff_toInt, s16_eq_self (zetas_range i)]

/-- Settles O17: no check of a read of the ROM looks at BUSY. -/
theorem romWindow : Obligations.RomWindow := by
  intro s k v off
  have hregion : regionOf off = .rom k := regionOf_romWord k
  have hread := hostRead_region (s := s) hregion (word_aligned rfl (by omega)) rfl (Bool.and_false _)
  have hro : (regionOf off).readOnly = true := by rw [hregion]; rfl
  exact ⟨⟨_, _, toCoeff_zetas_toInt _, toCoeff_zetas_toInt _, hread⟩,
    hostWrite_refused (refusesWrite_of_readOnly hro) v⟩

end Sys2Proof.Machine
end

section
/-! PROOFS. What a read leaves as it was, and what the engine owns while a command is pending
(spec/20_memory.md R35, R40 to R42, spec/10_state.md R12). -/

namespace Sys2Proof.Machine

/-! ### Reads have no side effect -/

theorem noteRead_eq_self {s : State} {n : Nat} {b : Bool} (hn : n ≠ 0)
    (h : (s.noteRead n b).freeCount = s.freeCount) : s.noteRead n b = s := by
  cases b with
  | true => rfl
  | false => exact absurd h (by simpa using hn)

/-- A read that draws no free value changes nothing. -/
theorem afterRead_eq_self {s : State} {r : Region} (h : (s.afterRead r).freeCount = s.freeCount) :
    s.afterRead r = s := by
  cases r with
  | poly p k => exact noteRead_eq_self (by decide) h
  | buffer k => exact noteRead_eq_self (by decide) h
  | _ => rfl

theorem afterRead_restored (s : State) (r : Region) :
    { s.afterRead r with freeCount := s.freeCount, unwrittenRead := s.unwrittenRead } = s := by
  obtain ⟨n, b, h⟩ := afterRead_cases s r
  rw [h]
  cases b <;> rfl

@[simp] theorem afterRead_responses (s : State) (r : Region) : (s.afterRead r).responses = s.responses := by
  obtain ⟨n, b, h⟩ := afterRead_cases s r
  rw [h, State.noteRead_responses]

theorem readWord_respond (s : State) (x : Response) (r : Region) : (s.respond x).readWord r = s.readWord r := by
  cases r <;> rfl

/-- Settles O19: the checks and the word of a second read do not look at the responses received. -/
theorem readsHaveNoSideEffect : Obligations.ReadsHaveNoSideEffect := by
  intro s off width
  cases hc : s.refusesRead off width with
  | true =>
    have again : s.refusedAccess.refusesRead off width = true := hc
    refine ⟨.busError, ?_, fun _ => ?_⟩
    · rw [hostRead_refused hc]; rfl
    · rw [hostRead_refused hc, hostRead_refused again]
      simp [State.refusedAccess]
  | false =>
    refine ⟨.data (s.readWord (regionOf off)), ?_, fun hfree => ?_⟩
    · rw [hostRead_permitted hc]
      exact congrArg (State.respond · _) (afterRead_restored s (regionOf off))
    · rw [hostRead_permitted hc] at hfree ⊢
      rw [afterRead_eq_self hfree]
      have again : (s.respond (.data (s.readWord (regionOf off)))).refusesRead off width = false := hc
      rw [hostRead_permitted again, readWord_respond]
      simp

/-! ### What the engine owns -/

/-- What the engine owns while a command is pending: P, BUF, SA, SB, SR and PENDING (R40, R42). -/
structure Owned where
  polys : Vector PolyReg 16
  buf : Memory
  sa : Word
  sb : Word
  sr : Word
  pending : Option Instr

def State.owned (s : State) : Owned := ⟨s.polys, s.buf, s.sa, s.sb, s.sr, s.pending⟩

def State.setOwned (s : State) (e : Owned) : State :=
  { s with polys := e.polys, buf := e.buf, sa := e.sa, sb := e.sb, sr := e.sr, pending := e.pending }

theorem owned_of_eq_setOwned {t : State} {e : Owned} (h : t = t.setOwned e) : t.owned = e :=
  (congrArg State.owned h).trans rfl

section
variable {s : State} (e : Owned)

/-- Two engines that differ in what they own only read the same word where reads are not gated, but for BUSY in
STATUS. -/
theorem readWord_setOwned {r : Region} (hg : r.readGated = false) (hs : r = .status → e.pending.isSome = s.busy) :
    (s.setOwned e).readWord r = s.readWord r := by
  cases r with
  | status =>
    have hb : (s.setOwned e).busy = s.busy := hs rfl
    simp only [State.readWord, State.statusWord, hb]
    rfl
  | sa | sb | sr | poly _ _ | buffer _ => cases hg
  | _ => rfl

theorem afterRead_setOwned {r : Region} (hg : r.readGated = false) :
    (s.setOwned e).afterRead r = (s.afterRead r).setOwned e := by
  cases r with
  | sa | sb | sr | poly _ _ | buffer _ => cases hg
  | _ => rfl

theorem writeWord_setOwned {r : Region} (hg : r.writeGated = false) (v : Word) :
    (s.setOwned e).writeWord r v = (s.writeWord r v).setOwned e := by
  cases r with
  | cmd | sa | sb | sr | poly _ _ | buffer _ => cases hg
  | _ => rfl

variable {off : Offset} (width : Width)

theorem refusesRead_setOwned (hg : (regionOf off).readGated = false) :
    (s.setOwned e).refusesRead off width = s.refusesRead off width := by
  simp [State.refusesRead, hg, State.setOwned]

theorem refusesWrite_setOwned (hg : (regionOf off).readGated = false) :
    (s.setOwned e).refusesWrite off width = s.refusesWrite off width := by
  simp [State.refusesWrite, hg, State.setOwned]

/-- An ungated read neither sees nor changes what the engine owns; the read of STATUS sees BUSY. -/
theorem hostRead_setOwned (hg : (regionOf off).readGated = false)
    (hs : regionOf off = .status → e.pending.isSome = s.busy) :
    (s.setOwned e).hostRead off width = (s.hostRead off width).setOwned e := by
  cases hc : s.refusesRead off width with
  | true =>
    rw [hostRead_refused hc, hostRead_refused ((refusesRead_setOwned e width hg).trans hc)]
    rfl
  | false =>
    rw [hostRead_permitted hc, hostRead_permitted ((refusesRead_setOwned e width hg).trans hc),
      readWord_setOwned e hg hs, afterRead_setOwned e hg]
    rfl

/-- An ungated write neither sees nor changes what the engine owns. -/
theorem hostWrite_setOwned (hg : (regionOf off).writeGated = false) (v : Word) :
    (s.setOwned e).hostWrite off width v = (s.hostWrite off width v).setOwned e := by
  have hgates := hg
  rw [writeGated_eq, Bool.or_eq_false_iff, decide_eq_false_iff_not] at hgates
  obtain ⟨hcmd, hread⟩ := hgates
  cases hc : s.refusesWrite off width with
  | true =>
    rw [hostWrite_refused hc, hostWrite_refused ((refusesWrite_setOwned e width hread).trans hc)]
    rfl
  | false =>
    rw [hostWrite_permitted hc (.inr hcmd),
      hostWrite_permitted ((refusesWrite_setOwned e width hread).trans hc) (.inr hcmd), writeWord_setOwned e hg]
    rfl

theorem hostRead_owned (hg : (regionOf off).readGated = false) : (s.hostRead off width).owned = s.owned :=
  owned_of_eq_setOwned (hostRead_setOwned s.owned width hg fun _ => rfl)

theorem hostWrite_owned (hg : (regionOf off).writeGated = false) (v : Word) :
    (s.hostWrite off width v).owned = s.owned :=
  owned_of_eq_setOwned (hostWrite_setOwned s.owned width hg v)

end

/-! ### While a command is pending -/

theorem readGated_of_gatedOffset {off : Offset} (h : gatedOffset off.toNat) : (regionOf off).readGated = true := by
  obtain h | h | h | h | h := h
  · rw [BitVec.eq_of_toNat_eq (y := (0x14 : Offset)) h]; rfl
  · rw [BitVec.eq_of_toNat_eq (y := (0x18 : Offset)) h]; rfl
  · rw [BitVec.eq_of_toNat_eq (y := (0x1C : Offset)) h]; rfl
  · rw [regionOf_poly h]; rfl
  · rw [regionOf_buffer h]; rfl

/-- The pending command put back into an engine that differs from `s` by it alone in what it owns. -/
theorem pending_restored {s t : State} (h : t.owned = { s.owned with pending := none }) :
    t.setOwned s.owned = { t with pending := s.pending } := by
  have howned : s.owned = { t.owned with pending := s.pending } := by rw [h]; rfl
  rw [howned]
  rfl

/-- An ungated read of the busy engine, STATUS apart, is that of the idle one. -/
theorem hostRead_eq_idle {s : State} {off : Offset} (width : Width) (hg : (regionOf off).readGated = false)
    (hs : regionOf off ≠ .status) :
    s.hostRead off width = { State.hostRead { s with pending := none } off width with pending := s.pending } :=
  (hostRead_setOwned (s := { s with pending := none }) s.owned width hg (absurd · hs)).trans
    (pending_restored (hostRead_owned width hg))

/-- An ungated write of the busy engine is that of the idle one. -/
theorem hostWrite_eq_idle {s : State} {off : Offset} (width : Width) (hg : (regionOf off).writeGated = false)
    (v : Word) :
    s.hostWrite off width v = { State.hostWrite { s with pending := none } off width v with pending := s.pending } :=
  (hostWrite_setOwned (s := { s with pending := none }) s.owned width hg v).trans
    (pending_restored (hostWrite_owned width hg v))

/-- Settles O14. -/
theorem busyGatesTheData : Obligations.BusyGatesTheData := by
  intro s hb
  refine ⟨fun off width v hg => ?_, fun v => ?_, fun off width hoff => ?_, fun off width v hoff => ?_,
    hostRead_status s⟩
  · obtain ⟨hr, hw⟩ := refuses_of_gated (width := width) hb (readGated_of_gatedOffset hg)
    exact ⟨hostRead_refused hr, hostWrite_refused hw v⟩
  · have hc : s.refusesWrite 0x00C .bits32 = false := Bool.and_false s.busy
    exact hostWrite_cmd_busy hc hb rfl v
  · have hregion : (regionOf off).readGated = false ∧ regionOf off ≠ .status := by
      obtain rfl | rfl | rfl | rfl | ⟨hlo, hhi⟩ := hoff
      · decide
      · decide
      · decide
      · decide
      · rw [regionOf_rom ⟨hlo, by omega⟩]
        exact ⟨rfl, nofun⟩
    obtain ⟨hg, hs⟩ := hregion
    exact hostRead_eq_idle width hg hs
  · have hg : (regionOf off).writeGated = false := by obtain rfl | rfl | rfl | rfl := hoff <;> rfl
    exact hostWrite_eq_idle width hg v

section
variable {s : State} (hb : s.busy = true) (e : Owned) (he : e.pending.isSome = true)
include hb he

/-- Of two busy engines that differ in what they own only, a read gets the same: a gated one is refused by both. -/
theorem hostRead_setOwned_busy (off : Offset) (width : Width) :
    (s.setOwned e).hostRead off width = (s.hostRead off width).setOwned e := by
  cases hg : (regionOf off).readGated with
  | false => exact hostRead_setOwned e width hg fun _ => he.trans hb.symm
  | true =>
    obtain ⟨hr, -⟩ := refuses_of_gated (width := width) hb hg
    obtain ⟨hr', -⟩ := refuses_of_gated (s := s.setOwned e) (width := width) he hg
    rw [hostRead_refused hr, hostRead_refused hr']
    rfl

/-- The same of a write; a CMD write is refused by both with OVR set. -/
theorem hostWrite_setOwned_busy (off : Offset) (width : Width) (v : Word) :
    (s.setOwned e).hostWrite off width v = (s.hostWrite off width v).setOwned e := by
  by_cases hcmd : regionOf off = .cmd
  · have hread : (regionOf off).readGated = false := by rw [hcmd]; rfl
    have hsame := refusesWrite_setOwned (s := s) e width hread
    cases hc : s.refusesWrite off width with
    | true =>
      rw [hostWrite_refused hc, hostWrite_refused (hsame.trans hc)]
      rfl
    | false =>
      rw [hostWrite_cmd_busy hc hb hcmd, hostWrite_cmd_busy (hsame.trans hc) he hcmd]
      rfl
  · cases hg : (regionOf off).readGated with
    | false => exact hostWrite_setOwned e width (by simp [writeGated_eq, hcmd, hg]) v
    | true =>
      obtain ⟨-, hw⟩ := refuses_of_gated (width := width) hb hg
      obtain ⟨-, hw'⟩ := refuses_of_gated (s := s.setOwned e) (width := width) he hg
      rw [hostWrite_refused hw, hostWrite_refused hw']
      rfl

/-- Of two busy engines that differ in what they own only, an access gets the same and changes the same (R40, R42). -/
theorem hostAccess_setOwned_busy (addr : Nat) (a : Access) :
    (s.setOwned e).hostAccess addr a = (s.hostAccess addr a).setOwned e := by
  by_cases h : s.build.base ≤ addr ∧ addr < s.build.base + 0x8000
  · have h' : (s.setOwned e).build.base ≤ addr ∧ addr < (s.setOwned e).build.base + 0x8000 := h
    simp only [State.hostAccess, if_pos h, if_pos h']
    cases a with
    | read width => exact hostRead_setOwned_busy hb e he _ width
    | write width v => exact hostWrite_setOwned_busy hb e he _ width v
  · have h' : ¬((s.setOwned e).build.base ≤ addr ∧ addr < (s.setOwned e).build.base + 0x8000) := h
    simp only [State.hostAccess, if_neg h, if_neg h']

end

/-- Settles O58: no access distinguishes busy engines that differ in what they own only, nor, the engine being one of
them itself, changes what it owns. -/
theorem pendingCommandIsAtomic : Obligations.PendingCommandIsAtomic := by
  intro s addr a polys buf sa sb sr hb
  have hkept : (s.hostAccess addr a).owned = s.owned :=
    owned_of_eq_setOwned (hostAccess_setOwned_busy hb s.owned hb addr a)
  have hhidden := hostAccess_setOwned_busy hb ⟨polys, buf, sa, sb, sr, s.pending⟩ hb addr a
  exact ⟨congrArg Owned.polys hkept, congrArg Owned.buf hkept, congrArg Owned.sa hkept, congrArg Owned.sb hkept,
    congrArg Owned.sr hkept, congrArg Owned.pending hkept, (congrArg State.responses hhidden).trans rfl⟩

end Sys2Proof.Machine
end

section
/-! PROOFS. The command encoding (spec/30_encoding.md R50 to R58): decoding and encoding are inverse, the words a row of
the class table accepts, and the three rejections in their order. -/

namespace Sys2Proof.Machine

/-! ### The fields of a word -/

section
variable (w : Word)

theorem extract_op_toNat : (w.extractLsb' 0 8).toNat = opField w := by
  rw [BitVec.extractLsb'_toNat, Nat.shiftRight_zero]
  rfl

theorem extract_rd_toNat : (w.extractLsb' 8 4).toNat = (rdField w).val := by
  rw [BitVec.extractLsb'_toNat, Nat.shiftRight_eq_div_pow]
  rfl

theorem extract_rs1_toNat : (w.extractLsb' 12 4).toNat = (rs1Field w).val := by
  rw [BitVec.extractLsb'_toNat, Nat.shiftRight_eq_div_pow]
  rfl

theorem extract_rs2_toNat : (w.extractLsb' 16 4).toNat = (rs2Field w).val := by
  rw [BitVec.extractLsb'_toNat, Nat.shiftRight_eq_div_pow]
  rfl

theorem extract_res_toNat : (w.extractLsb' 20 12).toNat = resField w := by
  have hw := w.isLt
  rw [BitVec.extractLsb'_toNat, Nat.shiftRight_eq_div_pow]
  exact Nat.mod_eq_of_lt (by omega)

/-- A word is put together from its five fields (R51). -/
theorem toNat_eq_fields : w.toNat =
    opField w + (rdField w).val * 256 + (rs1Field w).val * 4096 + (rs2Field w).val * 65536 + resField w * 1048576 := by
  simp only [opField, rdField, rs1Field, rs2Field, resField]
  omega

end

/-- Two words are equal when their five fields are (R51). -/
theorem word_eq_iff_fields {v w : Word} :
    v = w ↔ v.extractLsb' 0 8 = w.extractLsb' 0 8 ∧ v.extractLsb' 8 4 = w.extractLsb' 8 4 ∧
      v.extractLsb' 12 4 = w.extractLsb' 12 4 ∧ v.extractLsb' 16 4 = w.extractLsb' 16 4 ∧
      v.extractLsb' 20 12 = w.extractLsb' 20 12 := by
  refine ⟨fun h => by simp [h], fun ⟨hop, hrd, hrs1, hrs2, hres⟩ => BitVec.eq_of_toNat_eq ?_⟩
  rw [toNat_eq_fields v, toNat_eq_fields w]
  simp only [← extract_op_toNat, ← extract_rd_toNat, ← extract_rs1_toNat, ← extract_rs2_toNat, ← extract_res_toNat,
    hop, hrd, hrs1, hrs2, hres]

/-! ### Decoding, by the row of the opcode -/

theorem opcode_lt (i : Instr) : i.fields.1 < 256 := by cases i <;> simp [Instr.fields]

/-- The word of a command holds the command's fields, and RES is 0 (R52). -/
theorem encodedFields (i : Instr) : Laws.EncodedFields.Statement i :=
  Laws.EncodedFields.fields_of_sum i.fields.1 i.fields.2.1 i.fields.2.2.1 i.fields.2.2.2 (opcode_lt i)

/-- A command stands in the row of its own opcode, and its class uses every field that is not zero (R54, R55). -/
theorem opcodeRow_fields (i : Instr) :
    ∃ c, opcodeRow i.fields.1 i.fields.2.1 i.fields.2.2.1 i.fields.2.2.2 = some (c, i) ∧
      c.unusedNonzero i.fields.2.1 i.fields.2.2.1 i.fields.2.2.2 = false := by
  cases i <;> exact ⟨_, rfl, rfl⟩

/-- A row places every field that its class uses, so with the other fields zero the command has all of them. -/
theorem fields_of_opcodeRow {op : Nat} {rd rs1 rs2 : PolyIdx} {c : OpClass} {i : Instr}
    (h : opcodeRow op rd rs1 rs2 = some (c, i)) (hu : c.unusedNonzero rd rs1 rs2 = false) :
    i.fields = (op, rd, rs1, rs2) := by
  unfold opcodeRow at h
  split at h <;> cases h <;> simp_all [OpClass.unusedNonzero, Instr.fields]

section
variable {npoly : Nat} {w : Word} {c : OpClass} {i : Instr}

theorem decode_of_noRow (h : opcodeRow (opField w) (rdField w) (rs1Field w) (rs2Field w) = none) :
    decode npoly w = .error .illegalOpcode := by
  simp only [decode, h]

/-- The checks of R57 after the one of the opcode. -/
theorem decode_of_row (h : opcodeRow (opField w) (rdField w) (rs1Field w) (rs2Field w) = some (c, i)) :
    decode npoly w =
      if resField w = 0 ∧ c.unusedNonzero (rdField w) (rs1Field w) (rs2Field w) = false then
        if i.wf npoly then .ok i else .error .polyIndex
      else .error .reservedField := by
  simp only [decode, h]
  split_ifs <;> simp_all

theorem decode_ok_iff : decode npoly w = .ok i ↔
    ∃ c, opcodeRow (opField w) (rdField w) (rs1Field w) (rs2Field w) = some (c, i) ∧
      (resField w = 0 ∧ c.unusedNonzero (rdField w) (rs1Field w) (rs2Field w) = false) ∧ i.wf npoly = true := by
  cases h : opcodeRow (opField w) (rdField w) (rs1Field w) (rs2Field w) with
  | none => simp [decode_of_noRow h]
  | some row =>
    rw [decode_of_row h]
    split_ifs <;> grind

end

/-- Settles O1: the fields of the encoded word are those of the command, whose row they lead back to. -/
theorem decodeOfEncodeIsTheCommand : Obligations.DecodeOfEncodeIsTheCommand := by
  intro npoly i hwf
  obtain ⟨hop, hrd, hrs1, hrs2, hres⟩ := encodedFields i
  obtain ⟨c, hrow, hunused⟩ := opcodeRow_fields i
  rw [decode_ok_iff, hop, hrd, hrs1, hrs2]
  exact ⟨c, hrow, ⟨hres, hunused⟩, hwf⟩

/-- Settles O2: the command has the fields of the word, and RES is 0. -/
theorem encodeOfDecodeIsTheWord : Obligations.EncodeOfDecodeIsTheWord := by
  intro npoly w i h
  obtain ⟨c, hrow, ⟨hres, hunused⟩, -⟩ := decode_ok_iff.mp h
  calc encode i = BitVec.ofNat 32 w.toNat := by
        rw [encode, fields_of_opcodeRow hrow hunused, toNat_eq_fields w, hres, Nat.zero_mul, Nat.add_zero]
    _ = w := by simp

/-- Settles O3. -/
theorem spelledWordsDecode : Obligations.SpelledWordsDecode := by
  unfold Obligations.SpelledWordsDecode
  decide

/-! ### The class table -/

/-- The opcode of a row has a command of that row: its class leaves unused, and the command uses, the fields the row
says (R54, R55, R57). -/
theorem opcodeRow_of_mem {row : ClassRow} (h : row ∈ classTable) (rd rs1 rs2 : PolyIdx) :
    ∃ c i, opcodeRow row.value.toNat rd rs1 rs2 = some (c, i) ∧
      (c.unusedNonzero rd rs1 rs2 = false ↔
        (row.usesRd = false → rd = 0) ∧ (row.usesRs1 = false → rs1 = 0) ∧ (row.usesRs2 = false → rs2 = 0)) ∧
      ∀ npoly, i.wf npoly = true ↔
        (row.usesRd = true → rd.val < npoly) ∧ (row.usesRs1 = true → rs1.val < npoly) ∧
          (row.usesRs2 = true → rs2.val < npoly) := by
  fin_cases h <;> exact ⟨_, _, rfl, by simp [OpClass.unusedNonzero], by simp [Instr.wf, Instr.usedRegs]⟩

/-- The unassigned opcodes are those of no row (R58). -/
theorem opcodeRow_eq_none_iff (op : Nat) (rd rs1 rs2 : PolyIdx) :
    opcodeRow op rd rs1 rs2 = none ↔ ∀ row ∈ classTable, row.value.toNat ≠ op := by
  constructor
  · rintro h row hrow rfl
    obtain ⟨c, i, hsome, -⟩ := opcodeRow_of_mem hrow rd rs1 rs2
    exact nomatch hsome.symm.trans h
  · intro h
    unfold opcodeRow
    split
    rotate_right
    · rfl
    all_goals exact absurd h (by decide)

/-- The mask of a row covers OP, RES and the fields its class does not use; its match has the opcode alone (R55). -/
theorem classRow_fields : ∀ row ∈ classTable,
    (row.mask.extractLsb' 0 8 = BitVec.allOnes 8 ∧
      row.mask.extractLsb' 8 4 = (if row.usesRd then 0 else BitVec.allOnes 4) ∧
      row.mask.extractLsb' 12 4 = (if row.usesRs1 then 0 else BitVec.allOnes 4) ∧
      row.mask.extractLsb' 16 4 = (if row.usesRs2 then 0 else BitVec.allOnes 4) ∧
      row.mask.extractLsb' 20 12 = BitVec.allOnes 12) ∧
    opField row.value = row.value.toNat ∧ row.value.extractLsb' 8 4 = 0 ∧ row.value.extractLsb' 12 4 = 0 ∧
      row.value.extractLsb' 16 4 = 0 ∧ row.value.extractLsb' 20 12 = 0 := by
  decide

/-- A field under its part of a mask: nothing is compared when the field is used, all of it when it is not. -/
theorem field_and_mask_eq_zero_iff {n : Nat} (x : BitVec n) (used : Bool) :
    x &&& (if used then 0 else BitVec.allOnes n) = 0 ↔ (used = false → x.toNat = 0) := by
  cases used <;> simp [← BitVec.toNat_inj]

/-- A word matches a row exactly when it has the row's opcode and RES and each unused field are zero (R55, R56). -/
theorem matches_iff {row : ClassRow} (h : row ∈ classTable) (w : Word) :
    w &&& row.mask = row.value ↔
      opField w = row.value.toNat ∧ resField w = 0 ∧ (row.usesRd = false → rdField w = 0) ∧
        (row.usesRs1 = false → rs1Field w = 0) ∧ (row.usesRs2 = false → rs2Field w = 0) := by
  obtain ⟨⟨maskOp, maskRd, maskRs1, maskRs2, maskRes⟩, op, rd, rs1, rs2, res⟩ := classRow_fields row h
  have hop : w.extractLsb' 0 8 = row.value.extractLsb' 0 8 ↔ opField w = row.value.toNat := by
    rw [← BitVec.toNat_inj, extract_op_toNat, extract_op_toNat, op]
  have hres : w.extractLsb' 20 12 = 0 ↔ resField w = 0 := by
    rw [← BitVec.toNat_inj, extract_res_toNat]
    rfl
  simp only [word_eq_iff_fields, BitVec.extractLsb'_and, maskOp, maskRd, maskRs1, maskRs2, maskRes, rd, rs1, rs2, res,
    BitVec.and_allOnes, field_and_mask_eq_zero_iff, extract_rd_toNat, extract_rs1_toNat, extract_rs2_toNat,
    Fin.val_eq_zero_iff, hop, hres]
  tauto

theorem regsExist_iff {row : ClassRow} {npoly : Nat} {w : Word} :
    row.regsExist npoly w ↔
      (row.usesRd = true → (rdField w).val < npoly) ∧ (row.usesRs1 = true → (rs1Field w).val < npoly) ∧
        (row.usesRs2 = true → (rs2Field w).val < npoly) := by
  rw [ClassRow.regsExist, extract_rd_toNat, extract_rs1_toNat, extract_rs2_toNat]

/-- Decoding a word that has the opcode of a row, by the row's mask and registers (R56, R57). -/
theorem decode_of_mem {row : ClassRow} (h : row ∈ classTable) {w : Word} (hop : row.value.toNat = opField w)
    (npoly : Nat) :
    ∃ i, (w &&& row.mask ≠ row.value → decode npoly w = .error .reservedField) ∧
      (w &&& row.mask = row.value → ¬row.regsExist npoly w → decode npoly w = .error .polyIndex) ∧
      (w &&& row.mask = row.value → row.regsExist npoly w → decode npoly w = .ok i) := by
  obtain ⟨c, i, hrow, hunused, hwf⟩ := opcodeRow_of_mem h (rdField w) (rs1Field w) (rs2Field w)
  rw [hop] at hrow
  have hmatch : w &&& row.mask = row.value ↔
      resField w = 0 ∧ c.unusedNonzero (rdField w) (rs1Field w) (rs2Field w) = false := by
    rw [matches_iff h, hunused, hop, eq_self, true_and]
  have hregs : row.regsExist npoly w ↔ i.wf npoly = true := regsExist_iff.trans (hwf npoly).symm
  rw [decode_of_row hrow]
  refine ⟨i, fun hm => if_neg (mt hmatch.mpr hm), fun hm hr => ?_, fun hm hr => ?_⟩
  · rw [if_pos (hmatch.mp hm), if_neg (mt hregs.mpr hr)]
  · rw [if_pos (hmatch.mp hm), if_pos (hregs.mp hr)]

theorem decode_illegalOpcode_iff {npoly : Nat} {w : Word} :
    decode npoly w = .error .illegalOpcode ↔ ∀ row ∈ classTable, row.value.toNat ≠ opField w := by
  rw [← opcodeRow_eq_none_iff (opField w) (rdField w) (rs1Field w) (rs2Field w)]
  refine ⟨fun h => ?_, decode_of_noRow⟩
  cases hrow : opcodeRow (opField w) (rdField w) (rs1Field w) (rs2Field w) with
  | none => rfl
  | some row =>
    rw [decode_of_row hrow] at h
    split_ifs at h <;> cases h

/-- Settles O4: an accepted word is not rejected by either check of its opcode's row. -/
theorem acceptedWordsMatchATableRow : Obligations.AcceptedWordsMatchATableRow := by
  intro npoly w
  constructor
  · rintro ⟨i, hi⟩
    have hassigned : ¬∀ row ∈ classTable, row.value.toNat ≠ opField w := fun h => by
      cases (decode_illegalOpcode_iff.mpr h).symm.trans hi
    push Not at hassigned
    obtain ⟨row, hrow, hop⟩ := hassigned
    obtain ⟨j, hreserved, hindex, -⟩ := decode_of_mem hrow hop npoly
    have hmatch : w &&& row.mask = row.value := by
      by_contra hm
      cases (hreserved hm).symm.trans hi
    refine ⟨row, hrow, hmatch, ?_⟩
    by_contra hr
    cases (hindex hmatch hr).symm.trans hi
  · rintro ⟨row, hrow, hmatch, hregs⟩
    obtain ⟨i, -, -, hok⟩ := decode_of_mem hrow ((matches_iff hrow w).mp hmatch).1.symm npoly
    exact ⟨i, hok hmatch hregs⟩

/-! ### The issue of a rejected word -/

/-- Issuing a word that does not decode rejects it, and ERRCODE reads the error's code (R171, R172). -/
theorem issue_of_error {s : State} {w : Word} {e : CmdError} (h : decode s.build.npoly w = .error e) :
    s.issue w = s.rejected e ∧ (s.issue w).statusWord.extractLsb' 8 8 = BitVec.ofNat 8 e.code := by
  have hissue : s.issue w = s.rejected e := by
    rw [State.issue, h]
    rfl
  obtain ⟨-, -, -, -, -, hcode, -⟩ := statusWord_fields (s.issue w)
  exact ⟨hissue, by rw [hcode, hissue, errcode_some rfl]⟩

/-- Settles O5: the first check of R57 alone gives ILLEGAL_OPCODE. -/
theorem unassignedOpcodesAreIllegal : Obligations.UnassignedOpcodesAreIllegal := by
  refine ⟨by decide +kernel, fun s w => ?_⟩
  rw [extract_op_toNat, ← decode_illegalOpcode_iff (npoly := s.build.npoly)]
  exact ⟨fun h => ⟨h, issue_of_error h⟩, id⟩

/-- Settles O6: the three cases of a word with a row's opcode, each with what its issue does. -/
theorem fieldChecksFollowTheirOrder : Obligations.FieldChecksFollowTheirOrder := by
  intro s w row hrow hop
  rw [extract_op_toNat] at hop
  obtain ⟨i, hreserved, hindex, hok⟩ := decode_of_mem hrow hop s.build.npoly
  refine ⟨fun hm => ?_, fun hm hr => ?_, fun hm hr => ?_⟩
  · exact ⟨hreserved hm, issue_of_error (hreserved hm)⟩
  · exact ⟨hindex hm hr, issue_of_error (hindex hm hr)⟩
  · exact ⟨i, hok hm hr, issue_of_ok (hok hm hr)⟩

end Sys2Proof.Machine
end

section
/-! PROOFS. The reduction primitives (spec/40_reduction.md R70 to R77): what `montgomery_reduce`, `barrett_reduce`,
`fqmul` and `frommont` are congruent to modulo q, and their ranges; and the four scalar commands (R78 to R81). -/

namespace Sys2Proof.Machine

/-! ### Montgomery reduction -/

section
variable {a : Int}

/-- The multiple of q that Montgomery reduction subtracts agrees with its operand in the low 16 bits, since
62209 q = 1 modulo 2^16 (R70, R71). -/
theorem dvd_sub_montgomeryMultiple (a : Int) : (65536 : Int) ∣ a - s16 (a * 62209) * 3329 := by
  unfold s16
  omega

/-- The upper half that Montgomery reduction returns loses nothing: it is the wrapped difference over 2^16. -/
theorem montgomeryReduce_mul (a : Int) : montgomeryReduce a * 65536 = s32 (a - s16 (a * 62209) * 3329) := by
  have hlow := dvd_sub_montgomeryMultiple a
  have hwrap := s32_congr (a - s16 (a * 62209) * 3329)
  have hrange := s32_range (a - s16 (a * 62209) * 3329)
  simp only [montgomeryReduce]
  rw [s16_eq_self (by omega)]
  omega

theorem montgomeryReduce_range (a : Int) : -32768 ≤ montgomeryReduce a ∧ montgomeryReduce a ≤ 32767 := s16_range _

/-- Where the 32-bit difference does not wrap (R72). -/
theorem montgomeryDifference_exact (h : -2038402305 ≤ a ∧ a ≤ 2038398975) :
    s32 (a - s16 (a * 62209) * 3329) = a - s16 (a * 62209) * 3329 := by
  have := s16_range (a * 62209)
  exact s32_eq_self (by omega)

theorem montgomeryReduce_mul_exact (h : -2038402305 ≤ a ∧ a ≤ 2038398975) :
    montgomeryReduce a * 65536 = a - s16 (a * 62209) * 3329 :=
  (montgomeryReduce_mul a).trans (montgomeryDifference_exact h)

theorem montgomeryReduce_mul_congr (h : -2038402305 ≤ a ∧ a ≤ 2038398975) :
    CongQ (montgomeryReduce a * 65536) a := by
  have := montgomeryReduce_mul_exact h
  unfold CongQ
  omega

/-- 169 is the inverse of 2^16 modulo q (R70). -/
theorem montgomeryReduce_congr (h : -2038402305 ≤ a ∧ a ≤ 2038398975) : CongQ (montgomeryReduce a) (a * 169) := by
  have := montgomeryReduce_mul_congr h
  unfold CongQ at *
  omega

theorem montgomeryReduce_bound (h : -109084672 < a ∧ a < 109084672) :
    -3328 ≤ montgomeryReduce a ∧ montgomeryReduce a ≤ 3328 := by
  have hexact := montgomeryReduce_mul_exact (a := a) (by omega)
  have hrange := s16_range (a * 62209)
  omega

end

/-- Settles O24: the subtracted multiple of q is at most 2^15 q in magnitude, which gives both ranges. -/
theorem montgomeryReduceProperties : Obligations.MontgomeryReduceProperties := by
  refine ⟨fun a hl hu => ?_, fun a hl hu => ?_, by decide, by decide, by decide, by unfold CongQ; decide, by decide,
    by decide, by decide⟩
  · have hnowrap : -2038402305 ≤ a ∧ a ≤ 2038398975 := by omega
    obtain ⟨hlower, hupper⟩ := montgomeryReduce_bound ⟨hl, hu⟩
    exact ⟨hlower, hupper, montgomeryReduce_mul_congr hnowrap, montgomeryReduce_congr hnowrap⟩
  · exact ⟨montgomeryDifference_exact ⟨hl, hu⟩, montgomeryReduce_mul_exact ⟨hl, hu⟩,
      montgomeryReduce_mul_congr ⟨hl, hu⟩⟩

/-! ### Barrett reduction -/

section
variable {a : Int}

/-- The centered representative is the only one in its range (R6). -/
theorem eq_centered_of_congr {r : Int} (hr : -1664 ≤ r ∧ r ≤ 1664) (h : CongQ r a) : r = centered a := by
  unfold CongQ at h
  unfold centered
  omega

theorem barrettReduce_congr (a : Int) : CongQ (barrettReduce a) a := by
  simp only [CongQ, barrettReduce]
  omega

/-- 20159 q exceeds 2^26 by 447 only, so the rounded quotient is exact for every 16-bit operand (R73, R74). -/
theorem barrettReduce_bound (h : -32768 ≤ a ∧ a ≤ 32767) : -1664 ≤ barrettReduce a ∧ barrettReduce a ≤ 1664 := by
  simp only [barrettReduce]
  omega

theorem barrettReduce_eq_centered (h : -32768 ≤ a ∧ a ≤ 32767) : barrettReduce a = centered a :=
  eq_centered_of_congr (barrettReduce_bound h) (barrettReduce_congr a)

end

/-- Settles O25: the result is in the centered range, where the congruence determines it. -/
theorem barrettReduceIsCentered : Obligations.BarrettReduceIsCentered := by
  refine ⟨fun a hl hu => ?_, by decide, by decide, by decide, by decide, by decide⟩
  obtain ⟨hlower, hupper⟩ := barrettReduce_bound ⟨hl, hu⟩
  exact ⟨barrettReduce_eq_centered ⟨hl, hu⟩, hlower, hupper, barrettReduce_congr a⟩

/-! ### The Montgomery product -/

section
variable {a b : Int}

/-- A product with a 16-bit second factor, by the magnitude of the first. -/
theorem mul_range_of_coeff {A : Int} (ha : -A ≤ a ∧ a ≤ A) (hb : -32768 ≤ b ∧ b ≤ 32767) :
    -(A * 32768) ≤ a * b ∧ a * b ≤ A * 32768 := by
  have hprod : |a * b| ≤ A * 32768 :=
    calc |a * b| = |a| * |b| := abs_mul a b
      _ ≤ A * 32768 := mul_le_mul (abs_le.mpr ha) (abs_le.mpr (by omega)) (abs_nonneg b) (by omega)
  exact abs_le.mp hprod

/-- Every product of 16-bit values is in the range where no wrap takes effect (R75). -/
theorem fqmul_congr (ha : -32768 ≤ a ∧ a ≤ 32767) (hb : -32768 ≤ b ∧ b ≤ 32767) :
    CongQ (fqmul a b) (a * b * 169) := by
  have := mul_range_of_coeff (A := 32768) (a := a) (by omega) hb
  exact montgomeryReduce_congr (by omega)

theorem fqmul_range_of_coeff (a b : Int) : -32768 ≤ fqmul a b ∧ fqmul a b ≤ 32767 := montgomeryReduce_range _

/-- A factor of magnitude at most q - 1 brings the product into the safe range (R75). -/
theorem mul_safe (ha : -3328 ≤ a ∧ a ≤ 3328) (hb : -32768 ≤ b ∧ b ≤ 32767) :
    -109084672 < a * b ∧ a * b < 109084672 := by
  have := mul_range_of_coeff ha hb
  omega

theorem fqmul_zero_left (b : Int) : fqmul 0 b = 0 := by
  rw [fqmul, zero_mul]
  decide

theorem fqmul_zero_right (a : Int) : fqmul a 0 = 0 := by
  rw [fqmul, mul_zero]
  decide

end

/-- Settles O26: Montgomery reduction of a product, which never leaves the range without wrap. -/
theorem fqmulProperties : Obligations.FqmulProperties := by
  intro a b hal hau hbl hbu
  obtain ⟨hlower, hupper⟩ := fqmul_range_of_coeff a b
  exact ⟨fqmul_congr ⟨hal, hau⟩ ⟨hbl, hbu⟩, hlower, hupper, fun hl hu => montgomeryReduce_bound ⟨hl, hu⟩,
    fun hl hu => mul_safe ⟨hl, hu⟩ ⟨hbl, hbu⟩⟩

/-! ### Multiplication by R -/

section
variable {r : Int}

/-- In the safe range the 32-bit product with 2^32 mod q does not wrap (R77). -/
theorem frommontFn_eq (h : -80624 ≤ r ∧ r ≤ 80624) : frommontFn r = montgomeryReduce (r * 1353) := by
  rw [frommontFn, s32_eq_self (by omega)]

theorem frommontFn_bound (h : -80624 ≤ r ∧ r ≤ 80624) : -3328 ≤ frommontFn r ∧ frommontFn r ≤ 3328 := by
  rw [frommontFn_eq h]
  exact montgomeryReduce_bound (by omega)

/-- 1353 * 169 = 2285, which is R, modulo q (R70, R77). -/
theorem frommontFn_congr (h : -80624 ≤ r ∧ r ≤ 80624) : CongQ (frommontFn r) (r * 2285) := by
  have hcongr := montgomeryReduce_congr (a := r * 1353) (by omega)
  rw [frommontFn_eq h]
  unfold CongQ at *
  omega

end

/-- Settles O27: Montgomery reduction of the product with 1353, which stays in the safe range. -/
theorem frommontProperties : Obligations.FrommontProperties := by
  refine ⟨fun r hl hu => ?_, by decide, by decide, by decide, by decide, by unfold CongQ; decide⟩
  obtain ⟨hlower, hupper⟩ := frommontFn_bound ⟨hl, hu⟩
  exact ⟨hlower, hupper, frommontFn_congr ⟨hl, hu⟩⟩

/-! ### The scalar commands -/

/-- A word with zero in every field but OP has no bit set above OP (R51). -/
theorem upperBits_eq_zero {w : Word} (hrd : rdField w = 0) (hrs1 : rs1Field w = 0) (hrs2 : rs2Field w = 0)
    (hres : resField w = 0) : w.extractLsb' 8 24 = 0 := by
  have hw : w.toNat = opField w := by simp [toNat_eq_fields w, hrd, hrs1, hrs2, hres]
  have hop : opField w < 256 := Nat.mod_lt _ (by decide)
  apply BitVec.eq_of_toNat_eq
  rw [BitVec.extractLsb'_toNat, Nat.shiftRight_eq_div_pow, hw, Nat.div_eq_of_lt hop]
  rfl

section
variable {i : Instr} {op : Nat} (hrow : ∀ rd rs1 rs2, opcodeRow op rd rs1 rs2 = some (.scalar, i))
include hrow

/-- A scalar command uses no field but OP, so any bit above OP is a reserved one (R55, R57). -/
theorem decode_scalar_reserved (npoly : Nat) {w : Word} (hop : (w.extractLsb' 0 8).toNat = op)
    (hbits : w.extractLsb' 8 24 ≠ 0) : decode npoly w = .error .reservedField := by
  have hword := hrow (rdField w) (rs1Field w) (rs2Field w)
  rw [← hop, extract_op_toNat] at hword
  rw [decode_of_row hword, if_neg]
  rintro ⟨hres, hunused⟩
  simp only [OpClass.unusedNonzero, decide_eq_false_iff_not, not_or, not_not, Fin.val_eq_zero_iff] at hunused
  obtain ⟨hrd, hrs1, hrs2⟩ := hunused
  exact hbits (upperBits_eq_zero hrd hrs1 hrs2 hres)

/-- The word of a scalar command is its opcode (R52). -/
theorem encode_scalar : encode i = BitVec.ofNat 32 op := by
  rw [encode, fields_of_opcodeRow (hrow 0 0 0) rfl]
  rfl

/-- A command of a scalar row that runs as `runScalar f` follows the rule of the result `f`, once the rule's values
are those of `f` (R53, R55). -/
theorem scalarRule_of_row {f : Word → Word → Int} {values : List (Word × Word × Word)}
    (hexec : ∀ s, exec i s = runScalar f s) (hvalues : values.Forall fun v => u32 (f v.1 v.2.1) = v.2.2) :
    ScalarRule i op (fun sa sb => u32 (f sa sb)) values :=
  ⟨hexec, encode_scalar hrow, fun npoly _ => decode_scalar_reserved hrow npoly,
    List.forall_iff_forall_mem.mp hvalues⟩

end

/-- Settles O20, by the row of MONTRED. -/
theorem montredRule : Obligations.MontredRule :=
  ⟨scalarRule_of_row (fun _ _ _ => rfl) exec_montred (by decide), by unfold CongQ; decide⟩

/-- Settles O21, by the row of BARRETT. -/
theorem barrettRule : Obligations.BarrettRule :=
  scalarRule_of_row (fun _ _ _ => rfl) exec_barrett (by decide)

/-- Settles O22, by the row of FQMUL; a factor 0 leaves nothing to reduce. -/
theorem fqmulRule : Obligations.FqmulRule :=
  ⟨scalarRule_of_row (fun _ _ _ => rfl) exec_fqmul (by decide), fun x => ⟨fqmul_zero_left x, fqmul_zero_right x⟩⟩

/-- Settles O23, by the row of FROMMONT_S. -/
theorem frommontSRule : Obligations.FrommontSRule :=
  scalarRule_of_row (fun _ _ _ => rfl) exec_frommontS (by decide)

end Sys2Proof.Machine
end

section
/-! PROOFS. The twiddle table and the three transform commands (spec/41_ntt.md R90, R93, R94, R96). -/

namespace Sys2Proof.Machine

/-! ### Unary commands -/

theorem hasReg_of_lt {s : State} {p : PolyIdx} (h : p.val < s.build.npoly) : s.hasReg p = true := by
  simpa [State.hasReg] using h

/-- A command that runs as `runUnary F` follows the rule of the coefficients of `F` (R45, R55). -/
theorem unaryRule_of_runUnary {cmd : PolyIdx → PolyIdx → Instr} {F : Poly → Poly} {f : Poly → Nat → Int}
    (hexec : ∀ s rd rs1, exec (cmd rd rs1) s = runUnary F rd rs1 s)
    (hcoeff : ∀ (a : Poly) (i : Nat), i < 256 → coeffAt (F a) i = f a i) : UnaryRule cmd f := by
  intro s rd rs1 hrd hrs1
  refine ⟨s.polyValues rs1, _, polyValues_reads s rs1,
    (hexec s rd rs1).trans (runUnary_eq (hasReg_of_lt hrd) (hasReg_of_lt hrs1)), setPoly_frame_one .., ?_, ?_⟩
  · intro i hi
    exact ⟨(F (s.polyValues rs1))[i], by simp [hi], by rw [← hcoeff _ i hi, coeffAt_of_lt _ hi]⟩
  · intro hwritten
    rw [(polyWritten_iff s rs1).mpr hwritten]
    simp [State.ReadsClean]

/-! ### Output bounds -/

theorem toCoeff_toInt_of_range {x : Int} (h : -32768 ≤ x ∧ x ≤ 32767) : (toCoeff x).toInt = x := by
  rw [toCoeff_toInt, s16_eq_self h]

theorem coeffAt_reducePoly (a : Poly) {i : Nat} (hi : i < 256) :
    coeffAt (reducePoly a) i = barrettReduce (coeffAt a i) := by
  have := barrettReduce_bound (coeffAt_range a i)
  rw [reducePoly, coeffAt_tabulate _ hi, toCoeff_toInt_of_range (by omega)]

theorem reducePoly_bounded (a : Poly) : BoundedBy 1664 (reducePoly a) := by
  intro i hi
  rw [coeffAt_reducePoly a hi]
  exact barrettReduce_bound (coeffAt_range a i)

theorem fqmul_comm (a b : Int) : fqmul a b = fqmul b a := by rw [fqmul, mul_comm, fqmul]

/-- A Montgomery product with a factor of magnitude at most q - 1 (R75). -/
theorem fqmul_bound {a b : Int} (ha : -3328 ≤ a ∧ a ≤ 3328) (hb : -32768 ≤ b ∧ b ≤ 32767) :
    -3328 ≤ fqmul a b ∧ fqmul a b ≤ 3328 :=
  montgomeryReduce_bound (mul_safe ha hb)

theorem coeffAt_invScale (a : Poly) {i : Nat} (hi : i < 256) : coeffAt (invScale a) i = fqmul (coeffAt a i) 1441 := by
  rw [invScale, coeffAt_tabulate _ hi, toCoeff_toInt_of_range (fqmul_range_of_coeff _ _)]

theorem invScale_bounded (a : Poly) : BoundedBy 3328 (invScale a) := by
  intro i hi
  rw [coeffAt_invScale a hi, fqmul_comm]
  exact fqmul_bound (by decide) (coeffAt_range a i)

/-- Settles O31: the three commands run as `runUnary`, and their last pass bounds the outputs. -/
theorem transformCommands : Obligations.TransformCommands :=
  ⟨unaryRule_of_runUnary (fun s rd rs1 => exec_ntt s rd rs1) fun _ _ _ => rfl,
    unaryRule_of_runUnary (fun s rd rs1 => exec_polyNtt s rd rs1) fun _ _ => coeffAt_reducePoly _,
    unaryRule_of_runUnary (fun s rd rs1 => exec_invntt s rd rs1) fun _ _ _ => rfl,
    fun a => ⟨reducePoly_bounded (nttFn a), invScale_bounded _⟩⟩

/-! ### The table -/

/-- Settles O28: the table evaluated entry by entry. -/
theorem twiddleTableIsTheFormula : Obligations.TwiddleTableIsTheFormula := by
  unfold Obligations.TwiddleTableIsTheFormula
  decide +kernel

end Sys2Proof.Machine
end

section
/-! PROOFS. The layers of the transforms as tables of butterflies, and the loops of the spec's pseudocode
(spec/41_ntt.md R92, R95). -/

namespace Sys2Proof.Machine

/-! ### Layers -/

/-- The seven strides of the forward transform (R92). -/
def strides : List Nat := [128, 64, 32, 16, 8, 4, 2]

/-- One layer at stride `len`: `(f j, f (j + len))` becomes `(lo, hi)` of the two, in every group `g` of `2 * len`
values. -/
def pairLayer {α β : Type} (lo hi : Nat → α → α → β) (len : Nat) (f : Nat → α) (i : Nat) : β :=
  if i % (2 * len) < len then lo (i / (2 * len)) (f i) (f (i + len)) else hi (i / (2 * len)) (f (i - len)) (f i)

section
variable {α β : Type} (lo hi : Nat → α → α → β) {len d : Nat} (f : Nat → α) (g : Nat)

theorem pairLayer_lower (hd : d < len) :
    pairLayer lo hi len f (2 * len * g + d) = lo g (f (2 * len * g + d)) (f (2 * len * g + d + len)) := by
  have hmod : (2 * len * g + d) % (2 * len) = d := by rw [Nat.mul_add_mod, Nat.mod_eq_of_lt (by omega)]
  have hdiv : (2 * len * g + d) / (2 * len) = g := by
    rw [Nat.mul_add_div (by omega), Nat.div_eq_of_lt (by omega), Nat.add_zero]
  rw [pairLayer, hmod, hdiv, if_pos hd]

theorem pairLayer_upper (hd : d < len) :
    pairLayer lo hi len f (2 * len * g + d + len) = hi g (f (2 * len * g + d)) (f (2 * len * g + d + len)) := by
  have hmod : (2 * len * g + d + len) % (2 * len) = d + len := by
    rw [Nat.add_assoc, Nat.mul_add_mod, Nat.mod_eq_of_lt (by omega)]
  have hdiv : (2 * len * g + d + len) / (2 * len) = g := by
    rw [Nat.add_assoc, Nat.mul_add_div (by omega), Nat.div_eq_of_lt (by omega), Nat.add_zero]
  rw [pairLayer, hmod, hdiv, if_neg (by omega), Nat.add_sub_cancel]

end

/-- The groups of a layer fill the polynomial. -/
theorem groups_of_stride {len : Nat} (hlen : len ∈ strides) :
    0 < len ∧ 2 * len * (128 / len) = 256 ∧ 256 / (2 * len) = 128 / len := by
  revert len
  decide

/-- An index is in the lower or in the upper half of its group. -/
theorem index_cases {len i : Nat} (hlen : 0 < len) :
    ∃ d < len, i = 2 * len * (i / (2 * len)) + d ∨ i = 2 * len * (i / (2 * len)) + d + len := by
  have hsplit := Nat.div_add_mod i (2 * len)
  have hmod := Nat.mod_lt i (show 2 * len > 0 by omega)
  by_cases hd : i % (2 * len) < len
  · exact ⟨_, hd, .inl hsplit.symm⟩
  · exact ⟨i % (2 * len) - len, by omega, .inr (by omega)⟩

theorem group_lt {len i : Nat} (hlen : len ∈ strides) (hi : i < 256) : i / (2 * len) < 128 / len := by
  obtain ⟨hpos, hfill, -⟩ := groups_of_stride hlen
  exact Nat.div_lt_of_lt_mul (by omega)

theorem pair_lt {len g d : Nat} (hlen : len ∈ strides) (hg : g < 128 / len) (hd : d < len) :
    2 * len * g + d + len < 256 := by
  obtain ⟨-, hfill, -⟩ := groups_of_stride hlen
  have := Nat.mul_le_mul_left (2 * len) (Nat.succ_le_of_lt hg)
  rw [Nat.mul_succ] at this
  omega

/-- What holds of both members of every pair of a layer holds of all 256 indices. -/
theorem forall_lt_of_pairs {len : Nat} (hlen : len ∈ strides) {p : Nat → Prop}
    (h : ∀ g < 128 / len, ∀ d < len, p (2 * len * g + d) ∧ p (2 * len * g + d + len)) : ∀ i < 256, p i := by
  intro i hi
  obtain ⟨d, hd, hcase⟩ := index_cases (i := i) (groups_of_stride hlen).1
  obtain ⟨hlower, hupper⟩ := h _ (group_lt hlen hi) d hd
  obtain hi | hi := hcase
  · rwa [hi]
  · rwa [hi]

/-! ### Loops over disjoint indices -/

theorem coeffAt_setCoeff_same (r : Poly) {i : Nat} (v : Int) (hi : i < 256) : coeffAt (setCoeff r i v) i = s16 v := by
  simp [setCoeff, coeffAt, hi]

theorem coeffAt_setCoeff_other (r : Poly) {i j : Nat} (v : Int) (h : j ≠ i) :
    coeffAt (setCoeff r i v) j = coeffAt r j := by
  unfold setCoeff
  split
  · simp [coeffAt, Ne.symm h]
  · rfl

/-- A loop whose iterations touch disjoint sets of coefficients: each gives its coefficients the values of `t` when it
finds those of `s` there, so the loop does so for all of them, and leaves the others. -/
theorem foldl_range_disjoint {upd : Nat → Poly → Poly} {region : Nat → Nat → Prop} {s t : Nat → Int} {n : Nat}
    (disjoint : ∀ x y i, x < y → region x i → ¬region y i)
    (frame : ∀ x < n, ∀ r i, ¬region x i → coeffAt (upd x r) i = coeffAt r i)
    (hit : ∀ x < n, ∀ r, (∀ i, region x i → coeffAt r i = s i) → ∀ i, region x i → coeffAt (upd x r) i = t i)
    {r : Poly} (hr : ∀ x < n, ∀ i, region x i → coeffAt r i = s i) :
    (∀ x < n, ∀ i, region x i → coeffAt ((List.range n).foldl (fun r x => upd x r) r) i = t i) ∧
      ∀ i, (∀ x < n, ¬region x i) → coeffAt ((List.range n).foldl (fun r x => upd x r) r) i = coeffAt r i := by
  induction n with
  | zero => exact ⟨fun x hx => absurd hx (Nat.not_lt_zero x), fun _ _ => rfl⟩
  | succ n ih =>
    obtain ⟨ihHit, ihFrame⟩ := ih (fun x hx => frame x (hx.trans n.lt_succ_self))
      (fun x hx => hit x (hx.trans n.lt_succ_self)) (fun x hx => hr x (hx.trans n.lt_succ_self))
    rw [List.range_succ, List.foldl_append, List.foldl_cons, List.foldl_nil]
    refine ⟨fun x hx i hi => ?_, fun i hi => ?_⟩
    · obtain hlt | rfl := Nat.lt_succ_iff_lt_or_eq.mp hx
      · rw [frame n n.lt_succ_self _ i (disjoint x n i hlt hi), ihHit x hlt i hi]
      · refine hit x hx _ (fun j hj => ?_) i hi
        rw [ihFrame j fun y hy hyj => disjoint y x j hy hyj hj, hr x hx j hj]
    · rw [frame n n.lt_succ_self _ i (hi n n.lt_succ_self), ihFrame i fun x hx => hi x (hx.trans n.lt_succ_self)]

/-- A loop that steps a counter beside its result, the counter being `c g` at iteration `g`. -/
theorem foldl_counter {α : Type} (f : Nat → Nat → α → α) {next c : Nat → Nat} (hc : ∀ g, c (g + 1) = next (c g))
    (n : Nat) (r : α) :
    (List.range n).foldl (fun st g => (f g st.2 st.1, next st.2)) (r, c 0) =
      ((List.range n).foldl (fun r g => f g (c g) r) r, c n) := by
  induction n with
  | zero => rfl
  | succ n ih => simp [List.range_succ, ih, hc]

/-! ### The loops of a layer -/

/-- A loop body of the pseudocode is the butterfly `lo`, `hi`: it writes both members of the pair at `j` and nothing
else. -/
structure IsButterfly (body : Nat → Int → Poly → Nat → Poly) (lo hi : Int → Int → Int → Int) : Prop where
  lower : ∀ {len zeta r j}, 0 < len → j + len < 256 →
    coeffAt (body len zeta r j) j = s16 (lo zeta (coeffAt r j) (coeffAt r (j + len)))
  upper : ∀ {len zeta r j}, 0 < len → j + len < 256 →
    coeffAt (body len zeta r j) (j + len) = s16 (hi zeta (coeffAt r j) (coeffAt r (j + len)))
  other : ∀ {len zeta r j i}, i ≠ j → i ≠ j + len → coeffAt (body len zeta r j) i = coeffAt r i

/-- The coefficients after a layer of the butterfly `lo`, `hi` with the twiddles `zeta`. -/
def wrappedLayer (lo hi : Int → Int → Int → Int) (zeta : Nat → Int) (len : Nat) (r : Poly) : Nat → Int :=
  pairLayer (fun g a b => s16 (lo (zeta g) a b)) (fun g a b => s16 (hi (zeta g) a b)) len (coeffAt r)

section
variable {body : Nat → Int → Poly → Nat → Poly} {lo hi : Int → Int → Int → Int} (hbody : IsButterfly body lo hi)
include hbody

/-- The inner loop over group `g` gives the group the values of the layer and leaves every other coefficient. -/
theorem groupLoop_eq_layer {zeta : Nat → Int} {len g : Nat} (hlen : len ∈ strides) (hg : g < 128 / len) {r s : Poly}
    (hr : ∀ i, 2 * len * g ≤ i ∧ i < 2 * len * (g + 1) → coeffAt r i = coeffAt s i) (i : Nat) :
    coeffAt (groupLoop body len (2 * len * g) (zeta g) r) i =
      if 2 * len * g ≤ i ∧ i < 2 * len * (g + 1) then wrappedLayer lo hi zeta len s i else coeffAt r i := by
  obtain ⟨hpos, -, -⟩ := groups_of_stride hlen
  have hwidth : 2 * len * (g + 1) = 2 * len * g + 2 * len := Nat.mul_succ ..
  obtain ⟨hhit, hframe⟩ := foldl_range_disjoint (n := len) (r := r) (s := coeffAt s)
    (upd := fun d r => body len (zeta g) r (2 * len * g + d)) (t := wrappedLayer lo hi zeta len s)
    (region := fun d i => d < len ∧ (i = 2 * len * g + d ∨ i = 2 * len * g + d + len))
    (fun _ _ _ _ _ => by omega) (fun _ _ _ _ _ => hbody.other (by omega) (by omega))
    (fun d hd r' hr' i hi => by
      have hlt := pair_lt hlen hg hd
      have ha := hr' _ ⟨hd, .inl rfl⟩
      have hb := hr' _ ⟨hd, .inr rfl⟩
      obtain ⟨-, rfl | rfl⟩ := hi
      · rw [hbody.lower hpos hlt, ha, hb, wrappedLayer, pairLayer_lower _ _ _ _ hd]
      · rw [hbody.upper hpos hlt, ha, hb, wrappedLayer, pairLayer_upper _ _ _ _ hd])
    (fun _ _ i _ => hr i (by omega))
  split
  · rename_i hi
    by_cases hlow : i < 2 * len * g + len
    · exact hhit (i - 2 * len * g) (by omega) i (by omega)
    · exact hhit (i - 2 * len * g - len) (by omega) i (by omega)
  · exact hframe i fun _ _ _ => by omega

/-- The loop over the groups, its counter at `c g` in group `g`, is the layer with the twiddles at `c`. -/
theorem groups_eq_layer {next c : Nat → Nat} (hc : ∀ g, c (g + 1) = next (c g)) {len : Nat} (hlen : len ∈ strides)
    {r layer : Poly} (hlayer : ∀ i < 256, coeffAt layer i = wrappedLayer lo hi (fun g => zetas (c g)) len r i) :
    (List.range (256 / (2 * len))).foldl
      (fun st g => (groupLoop body len (2 * len * g) (zetas st.2) st.1, next st.2)) (r, c 0) =
      (layer, c (128 / len)) := by
  obtain ⟨hpos, -, hcount⟩ := groups_of_stride hlen
  rw [hcount, foldl_counter (fun g k r => groupLoop body len (2 * len * g) (zetas k) r) hc]
  refine Prod.ext (poly_ext_coeffAt fun i hlt => ?_) rfl
  obtain ⟨hhit, -⟩ := foldl_range_disjoint (n := 128 / len) (r := r) (s := coeffAt r)
    (upd := fun g r => groupLoop body len (2 * len * g) (zetas (c g)) r)
    (t := wrappedLayer lo hi (fun g => zetas (c g)) len r)
    (region := fun g i => 2 * len * g ≤ i ∧ i < 2 * len * (g + 1))
    (fun g g' i hlt hg hg' => by
      have := Nat.lt_of_mul_lt_mul_left (hg'.1.trans_lt hg.2)
      omega)
    (fun g hg r' i hout => by
      rw [groupLoop_eq_layer hbody (zeta := fun g => zetas (c g)) hlen hg (fun _ _ => rfl), if_neg hout])
    (fun g hg r' hr' i hin => by
      rw [groupLoop_eq_layer hbody (zeta := fun g => zetas (c g)) hlen hg hr', if_pos hin])
    (fun _ _ _ _ => rfl)
  rw [hlayer i hlt]
  exact hhit _ (group_lt hlen hlt) i ⟨Nat.mul_div_le i _, Nat.lt_mul_div_succ i (by omega)⟩

end

/-! ### The forward transform -/

theorem nttButterfly_isButterfly :
    IsButterfly nttButterfly (fun zeta a b => a + fqmul zeta b) (fun zeta a b => a - fqmul zeta b) where
  lower hlen hlt := by
    rw [nttButterfly, coeffAt_setCoeff_same _ _ (by omega), coeffAt_setCoeff_other _ _ (by omega)]
  upper hlen hlt := by
    rw [nttButterfly, coeffAt_setCoeff_other _ _ (by omega), coeffAt_setCoeff_same _ _ hlt]
  other hlo hhi := by rw [nttButterfly, coeffAt_setCoeff_other _ _ hlo, coeffAt_setCoeff_other _ _ hhi]

theorem coeffAt_nttLayer (len : Nat) (r : Poly) {i : Nat} (hi : i < 256) :
    coeffAt (nttLayer len r) i =
      wrappedLayer (fun zeta a b => a + fqmul zeta b) (fun zeta a b => a - fqmul zeta b)
        (fun g => zetas (128 / len + g)) len r i := by
  rw [nttLayer, coeffAt_tabulate _ hi, wrappedLayer, pairLayer, apply_ite BitVec.toInt, toCoeff_toInt, toCoeff_toInt]

/-- A forward layer draws the twiddles from `ZETAS[128 / len]` on and leaves the counter at the next layer's. -/
theorem nttGroups_eq {len : Nat} (hlen : len ∈ strides) (r : Poly) :
    nttGroups len (r, 128 / len) = (nttLayer len r, 128 / len + 128 / len) :=
  groups_eq_layer nttButterfly_isButterfly (next := (· + 1)) (c := fun g => 128 / len + g) (fun _ => rfl) hlen
    fun _ => coeffAt_nttLayer len r

/-- Settles O29: each pass of the loop is a layer, with the counter where the layer's twiddles begin. -/
theorem nttIsTheLoopOfTheSpec : Obligations.NttIsTheLoopOfTheSpec := by
  intro r
  have pass := fun (len : Nat) (hlen : len ∈ strides) => nttGroups_eq hlen
  simp only [nttLoop, nttFn, List.foldl_cons, List.foldl_nil]
  rw [pass 128 (by decide), pass 64 (by decide), pass 32 (by decide), pass 16 (by decide), pass 8 (by decide),
    pass 4 (by decide), pass 2 (by decide)]

/-! ### The inverse transform -/

theorem invButterfly_isButterfly :
    IsButterfly invButterfly (fun _ a b => barrettReduce (s16 (a + b))) (fun zeta a b => fqmul zeta (s16 (b - a))) where
  lower hlen hlt := by
    rw [invButterfly, coeffAt_setCoeff_other _ _ (by omega), coeffAt_setCoeff_same _ _ (by omega)]
  upper hlen hlt := by
    rw [invButterfly, coeffAt_setCoeff_same _ _ hlt, coeffAt_setCoeff_other _ _ (by omega)]
  other hlo hhi := by rw [invButterfly, coeffAt_setCoeff_other _ _ hhi, coeffAt_setCoeff_other _ _ hlo]

theorem coeffAt_invLayer (len : Nat) (r : Poly) {i : Nat} (hi : i < 256) :
    coeffAt (invLayer len r) i =
      wrappedLayer (fun _ a b => barrettReduce (s16 (a + b))) (fun zeta a b => fqmul zeta (s16 (b - a)))
        (fun g => zetas (2 * (128 / len) - 1 - g)) len r i := by
  rw [invLayer, coeffAt_tabulate _ hi, wrappedLayer, pairLayer, apply_ite BitVec.toInt, toCoeff_toInt, toCoeff_toInt]

/-- An inverse layer draws the twiddles from `ZETAS[2 * (128 / len) - 1]` downwards and leaves the counter at the next
layer's. -/
theorem invGroups_eq {len : Nat} (hlen : len ∈ strides) (r : Poly) :
    invGroups len (r, 2 * (128 / len) - 1) = (invLayer len r, 2 * (128 / len) - 1 - 128 / len) :=
  groups_eq_layer invButterfly_isButterfly (next := (· - 1)) (c := fun g => 2 * (128 / len) - 1 - g) (fun _ => rfl) hlen
    fun _ => coeffAt_invLayer len r

/-- The scaling pass of the pseudocode (R95). -/
theorem scalingLoop_eq (r : Poly) :
    (List.range 256).foldl (fun r j => setCoeff r j (fqmul (coeffAt r j) 1441)) r = invScale r := by
  refine poly_ext_coeffAt fun i hi => ?_
  obtain ⟨hhit, -⟩ := foldl_range_disjoint (n := 256) (r := r) (s := coeffAt r) (region := fun j i => i = j)
    (upd := fun j r => setCoeff r j (fqmul (coeffAt r j) 1441)) (t := fun i => s16 (fqmul (coeffAt r i) 1441))
    (fun _ _ _ _ _ => by omega) (fun _ _ _ _ hi => coeffAt_setCoeff_other _ _ hi)
    (fun j hj r' hr' i hi => by rw [hi, coeffAt_setCoeff_same _ _ hj, hr' j rfl]) (fun _ _ _ _ => rfl)
  rw [hhit i hi i rfl, invScale, coeffAt_tabulate _ hi, toCoeff_toInt]

/-- Settles O30: each pass of the loop is a layer, with the falling counter where the layer's twiddles begin. -/
theorem invnttIsTheLoopOfTheSpec : Obligations.InvnttIsTheLoopOfTheSpec := by
  intro r
  have pass := fun (len : Nat) (hlen : len ∈ strides) => invGroups_eq hlen
  simp only [invnttLoop, invnttFn, List.foldl_cons, List.foldl_nil, scalingLoop_eq]
  rw [pass 2 (by decide), pass 4 (by decide), pass 8 (by decide), pass 16 (by decide), pass 32 (by decide),
    pass 64 (by decide), pass 128 (by decide)]

end Sys2Proof.Machine
end

section
/-! PROOFS. The transforms beside the same layers on integers without wraps and on the field of q elements: no wrap
takes effect within the bounds of R99, and each `fqmul` by a twiddle is a product of residues (spec/41_ntt.md R92, R95,
R97, R99). -/

namespace Sys2Proof.Machine

/-! ### Residues modulo q -/

theorem congQ_iff {a b : Int} : CongQ a b ↔ (a : ZMod 3329) = (b : ZMod 3329) := by
  rw [eq_comm, ZMod.intCast_eq_intCast_iff_dvd_sub, CongQ, Nat.cast_ofNat]

theorem cast_fqmul {a b : Int} (ha : -32768 ≤ a ∧ a ≤ 32767) (hb : -32768 ≤ b ∧ b ≤ 32767) :
    ((fqmul a b : Int) : ZMod 3329) = a * b * 169 := by
  simpa using congQ_iff.mp (fqmul_congr ha hb)

theorem cast_barrettReduce (a : Int) : ((barrettReduce a : Int) : ZMod 3329) = a :=
  congQ_iff.mp (barrettReduce_congr a)

/-- Every entry is centered, also the 0 beyond the table (R91). -/
theorem zetas_centered (k : Nat) : -1664 ≤ zetas k ∧ zetas k ≤ 1664 := by
  obtain ⟨hlength, htable⟩ := twiddleTableIsTheFormula
  by_cases hk : k < 128
  · exact (htable ⟨k, hk⟩).2
  · rw [zetas, List.getD_eq_default _ _ (by omega)]
    decide

/-- The residue entry `k` of the ROM stands for, free of its Montgomery factor. -/
def twiddle (k : Nat) : ZMod 3329 := zetas k * 169

theorem cast_fqmul_zetas (k : Nat) {b : Int} (hb : -32768 ≤ b ∧ b ≤ 32767) :
    ((fqmul (zetas k) b : Int) : ZMod 3329) = twiddle k * b := by
  have := zetas_centered k
  rw [cast_fqmul (by omega) hb, twiddle]
  ring

theorem fqmul_zetas_bound (k : Nat) {b : Int} (hb : -32768 ≤ b ∧ b ≤ 32767) :
    -3328 ≤ fqmul (zetas k) b ∧ fqmul (zetas k) b ≤ 3328 := by
  have := zetas_centered k
  exact fqmul_bound (by omega) hb

/-! ### The transforms over the field -/

/-- One forward layer over the field (R92). -/
def fieldNttLayer (len : Nat) (f : Nat → ZMod 3329) : Nat → ZMod 3329 :=
  pairLayer (fun g a b => a + twiddle (128 / len + g) * b) (fun g a b => a - twiddle (128 / len + g) * b) len f

/-- The forward transform over the field (R92). -/
def fieldNtt (f : Nat → ZMod 3329) : Nat → ZMod 3329 :=
  fieldNttLayer 2 (fieldNttLayer 4 (fieldNttLayer 8 (fieldNttLayer 16 (fieldNttLayer 32 (fieldNttLayer 64
    (fieldNttLayer 128 f))))))

/-- One inverse layer over the field (R95). -/
def fieldInvLayer (len : Nat) (f : Nat → ZMod 3329) : Nat → ZMod 3329 :=
  pairLayer (fun _ a b => a + b) (fun g a b => twiddle (2 * (128 / len) - 1 - g) * (b - a)) len f

/-- The inverse transform over the field, before the scaling (R95). -/
def fieldInv (f : Nat → ZMod 3329) : Nat → ZMod 3329 :=
  fieldInvLayer 128 (fieldInvLayer 64 (fieldInvLayer 32 (fieldInvLayer 16 (fieldInvLayer 8 (fieldInvLayer 4
    (fieldInvLayer 2 f))))))

/-! ### No wrap takes effect -/

/-- The coefficients of `r` are the integers `e`, of magnitude at most `B`, and stand for the residues `z`. -/
def Tracks (B : Int) (r : Poly) (e : Nat → Int) (z : Nat → ZMod 3329) : Prop :=
  ∀ i < 256, coeffAt r i = e i ∧ (-B ≤ e i ∧ e i ≤ B) ∧ (e i : ZMod 3329) = z i

theorem tracks_coeffAt {B : Int} {r : Poly} (h : BoundedBy B r) : Tracks B r (coeffAt r) fun i => coeffAt r i :=
  fun i hi => ⟨rfl, h i hi, rfl⟩

section
variable {B : Int} {r : Poly} {e : Nat → Int} {z : Nat → ZMod 3329} {len : Nat}

/-- A forward layer adds at most 3328 to the magnitudes (R99). -/
theorem Tracks.forwardLayer (h : Tracks B r e z) (hlen : len ∈ strides) (hB : B + 3328 ≤ 32767) :
    Tracks (B + 3328) (nttLayer len r) (exactNttLayer len e) (fieldNttLayer len z) := by
  have hexact : exactNttLayer len e = pairLayer (fun g a b => a + fqmul (zetas (128 / len + g)) b)
    (fun g a b => a - fqmul (zetas (128 / len + g)) b) len e := rfl
  refine forall_lt_of_pairs hlen fun g hg d hd => ?_
  have hlt := pair_lt hlen hg hd
  obtain ⟨ha, haB, haz⟩ := h (2 * len * g + d) (by omega)
  obtain ⟨hb, hbB, hbz⟩ := h _ hlt
  have hb16 : -32768 ≤ e (2 * len * g + d + len) ∧ e (2 * len * g + d + len) ≤ 32767 := by omega
  have ht := fqmul_zetas_bound (128 / len + g) hb16
  have hz := cast_fqmul_zetas (128 / len + g) hb16
  rw [coeffAt_nttLayer len r (by omega), coeffAt_nttLayer len r hlt, wrappedLayer, hexact, fieldNttLayer]
  simp only [pairLayer_lower _ _ _ g hd, pairLayer_upper _ _ _ g hd, ha, hb, ← haz, ← hbz]
  refine ⟨⟨s16_eq_self (by omega), by omega, ?_⟩, s16_eq_self (by omega), by omega, ?_⟩
  · rw [Int.cast_add, hz]
  · rw [Int.cast_sub, hz]

/-- The seven forward layers (R99). -/
theorem Tracks.ntt (h : Tracks B r e z) (hB : B ≤ 9471) :
    Tracks (B + 23296) (nttFn r) (exactNtt e) (fieldNtt z) := by
  have h1 := h.forwardLayer (len := 128) (by decide) (by omega)
  have h2 := h1.forwardLayer (len := 64) (by decide) (by omega)
  have h3 := h2.forwardLayer (len := 32) (by decide) (by omega)
  have h4 := h3.forwardLayer (len := 16) (by decide) (by omega)
  have h5 := h4.forwardLayer (len := 8) (by decide) (by omega)
  have h6 := h5.forwardLayer (len := 4) (by decide) (by omega)
  have h7 := h6.forwardLayer (len := 2) (by decide) (by omega)
  rwa [show B + 23296 = B + 3328 + 3328 + 3328 + 3328 + 3328 + 3328 + 3328 by omega]

/-- An inverse layer of operands whose sums and differences fit 16 bits gives Barrett outputs and products with a
twiddle, whose sums and differences fit again (R99). -/
theorem Tracks.inverseLayer (h : Tracks 16383 r e z) (hlen : len ∈ strides) :
    Tracks 16383 (invLayer len r) (exactInvLayer len e) (fieldInvLayer len z) := by
  have hexact : exactInvLayer len e = pairLayer (fun _ a b => barrettReduce (a + b))
    (fun g a b => fqmul (zetas (2 * (128 / len) - 1 - g)) (b - a)) len e := rfl
  refine forall_lt_of_pairs hlen fun g hg d hd => ?_
  have hlt := pair_lt hlen hg hd
  obtain ⟨ha, haB, haz⟩ := h (2 * len * g + d) (by omega)
  obtain ⟨hb, hbB, hbz⟩ := h _ hlt
  have hsum := s16_eq_self (x := e (2 * len * g + d) + e (2 * len * g + d + len)) (by omega)
  have hdiff16 : -32768 ≤ e (2 * len * g + d + len) - e (2 * len * g + d) ∧
    e (2 * len * g + d + len) - e (2 * len * g + d) ≤ 32767 := by omega
  have hsumB := barrettReduce_bound (a := e (2 * len * g + d) + e (2 * len * g + d + len)) (by omega)
  have hdiffB := fqmul_zetas_bound (2 * (128 / len) - 1 - g) hdiff16
  have hz := cast_fqmul_zetas (2 * (128 / len) - 1 - g) hdiff16
  rw [coeffAt_invLayer len r (by omega), coeffAt_invLayer len r hlt, wrappedLayer, hexact, fieldInvLayer]
  simp only [pairLayer_lower _ _ _ g hd, pairLayer_upper _ _ _ g hd, ha, hb, ← haz, ← hbz, hsum,
    s16_eq_self hdiff16]
  refine ⟨⟨s16_eq_self (by omega), by omega, ?_⟩, s16_eq_self (by omega), by omega, ?_⟩
  · rw [cast_barrettReduce, Int.cast_add]
  · rw [hz, Int.cast_sub]

/-- The scaling is a product with a factor below q, so its result is in the safe range (R95, R96). -/
theorem Tracks.scale (h : Tracks 16383 r e z) :
    Tracks 3328 (invScale r) (fun i => fqmul (e i) 1441) fun i => z i * 1441 * 169 := by
  intro i hi
  obtain ⟨hexact, hB, hz⟩ := h i hi
  have hbound := fqmul_bound (a := 1441) (b := e i) (by decide) (by omega)
  rw [fqmul_comm] at hbound
  refine ⟨by rw [coeffAt_invScale r hi, hexact], hbound, ?_⟩
  rw [cast_fqmul (by omega) (by decide), hz, Int.cast_ofNat]

/-- The seven inverse layers and the scaling (R99). -/
theorem Tracks.invntt (h : Tracks 16383 r e z) :
    Tracks 3328 (invnttFn r) (fun i => fqmul (exactInv e i) 1441) fun i => fieldInv z i * 1441 * 169 := by
  have h1 := h.inverseLayer (len := 2) (by decide)
  have h2 := h1.inverseLayer (len := 4) (by decide)
  have h3 := h2.inverseLayer (len := 8) (by decide)
  have h4 := h3.inverseLayer (len := 16) (by decide)
  have h5 := h4.inverseLayer (len := 32) (by decide)
  have h6 := h5.inverseLayer (len := 64) (by decide)
  have h7 := h6.inverseLayer (len := 128) (by decide)
  exact h7.scale

end

/-- Within the bound of R97 the transform stands for the one over the field. -/
theorem cast_nttFn {a : Poly} (ha : BoundedBy 9471 a) {i : Nat} (hi : i < 256) :
    ((coeffAt (nttFn a) i : Int) : ZMod 3329) = fieldNtt (fun j => coeffAt a j) i := by
  obtain ⟨hexact, -, hz⟩ := (tracks_coeffAt ha).ntt (by decide) i hi
  rw [hexact, hz]

/-- Within the bound of R99 the inverse transform stands for the one over the field, scaled. -/
theorem cast_invnttFn {a : Poly} (ha : BoundedBy 16383 a) {i : Nat} (hi : i < 256) :
    ((coeffAt (invnttFn a) i : Int) : ZMod 3329) = fieldInv (fun j => coeffAt a j) i * 1441 * 169 := by
  obtain ⟨hexact, -, hz⟩ := (tracks_coeffAt ha).invntt i hi
  rw [hexact, hz]

/-- Settles O32: the layers are followed beside those without wrap, with the magnitude each can reach. -/
theorem transformsDoNotWrapInBounds : Obligations.TransformsDoNotWrapInBounds := by
  refine ⟨fun B a hB ha => ?_, fun a ha i hi => ?_⟩
  · have h := (tracks_coeffAt ha).ntt hB
    refine ⟨fun i hi => ?_, fun i hi => ?_⟩
    · obtain ⟨hexact, hbound, -⟩ := h i hi
      rwa [hexact]
    · exact (h i hi).1
  · exact ((tracks_coeffAt ha).invntt i hi).1

end Sys2Proof.Machine
end

section
/-! PROOFS. What the transform computes (spec/41_ntt.md R90, R97): the twiddles are the powers of 17 in bit-reversed
order, every layer splits each residue modulo x^(2 len) - zeta^2 into those modulo x^len - zeta and x^len + zeta, and
the output pairs are the residues modulo x^2 - gamma_i. -/

namespace Sys2Proof.Machine

open Polynomial

/-! ### The twiddles as powers of 17 -/

/-- Without its Montgomery factor, entry `k` of the ROM is the power of 17 of R90. -/
theorem twiddle_eq_pow {k : Nat} (hk : k < 128) : twiddle k = 17 ^ brv7 k := by
  obtain ⟨-, htable⟩ := twiddleTableIsTheFormula
  have hcentered : ((zetas k : Int) : ZMod 3329) = ((17 ^ brv7 k * 65536 : Int) : ZMod 3329) := by
    rw [(htable ⟨k, hk⟩).1, zetaFormula, ZMod.intCast_eq_intCast_iff_dvd_sub]
    exact centered_congr _
  have hmontgomery : (65536 * 169 : ZMod 3329) = 1 := by decide
  rw [twiddle, hcentered]
  push_cast
  rw [mul_assoc, hmontgomery, mul_one]

/-- 17 is a primitive 256th root of unity modulo q (R90). -/
theorem root_pow_half : (17 : ZMod 3329) ^ 128 = -1 := by reduce_mod_char

/-- The tree of moduli: node 1 is x^256 + 1, the children of node `k` are `2k` and `2k + 1`, and the modulus at node `m`
of the tree is x^len - `nodeRoot m`. -/
def nodeRoot (m : Nat) : ZMod 3329 := if m % 2 = 0 then twiddle (m / 2) else -twiddle (m / 2)

theorem nodeRoot_even (k : Nat) : nodeRoot (2 * k) = twiddle k := by simp [nodeRoot]

theorem nodeRoot_odd (k : Nat) : nodeRoot (2 * k + 1) = -twiddle k := by
  rw [nodeRoot, if_neg (by omega), show (2 * k + 1) / 2 = k by omega]

theorem nodeRoot_eq_pow {m : Nat} (hm : m < 256) : nodeRoot m = 17 ^ (128 * (m % 2) + brv7 (m / 2)) := by
  rw [nodeRoot, pow_add, pow_mul, root_pow_half, twiddle_eq_pow (by omega)]
  obtain h | h := Nat.mod_two_eq_zero_or_one m <;> simp [h]

/-- The bit reversal of an index whose lowest bit is dropped. -/
theorem two_mul_brv7 : ∀ k < 128, 2 * brv7 k = 128 * (k % 2) + brv7 (k / 2) := by decide

theorem two_mul_brv7_succ :
    ∀ i < 128, 2 * brv7 i + 1 = 128 * ((128 + i) % 2) + brv7 ((128 + i) / 2) := by decide

/-- The twiddle of a node is a square root of the node's root. -/
theorem twiddle_sq {k : Nat} (hk : k < 128) : twiddle k ^ 2 = nodeRoot k := by
  rw [twiddle_eq_pow hk, ← pow_mul, mul_comm, two_mul_brv7 k hk, nodeRoot_eq_pow (by omega)]

/-- The roots at the leaves are those of R97. -/
theorem nodeRoot_leaf {i : Nat} (hi : i < 128) : nodeRoot (128 + i) = gammaOf i := by
  rw [gammaOf, ZMod.natCast_mod, nodeRoot_eq_pow (by omega), ← two_mul_brv7_succ i hi]
  simp

/-! ### Residues by layer -/

section
variable (len g d : Nat)

theorem evenBlock_index : len * (2 * g) + d = 2 * len * g + d := by ring

theorem oddBlock_index : len * (2 * g + 1) + d = 2 * len * g + d + len := by ring

end

/-- Block `j` of `len` values as a polynomial. -/
noncomputable def blockPoly (len : Nat) (f : Nat → ZMod 3329) (j : Nat) : (ZMod 3329)[X] :=
  ∑ d ∈ Finset.range len, C (f (len * j + d)) * X ^ d

theorem blockPoly_double (len : Nat) (f : Nat → ZMod 3329) (g : Nat) :
    blockPoly (2 * len) f g = blockPoly len f (2 * g) + X ^ len * blockPoly len f (2 * g + 1) := by
  rw [blockPoly, two_mul, Finset.sum_range_add, blockPoly, blockPoly, Finset.mul_sum]
  congr 1
  · refine Finset.sum_congr rfl fun d _ => ?_
    rw [evenBlock_index, two_mul]
  · refine Finset.sum_congr rfl fun d _ => ?_
    rw [show (len + len) * g + (len + d) = len * (2 * g + 1) + d by ring, pow_add]
    ring

/-- A block whose values are sums of the values of two blocks, the second times `zeta`. -/
theorem blockPoly_add_mul {len j j0 j1 : Nat} {f f' : Nat → ZMod 3329} {zeta : ZMod 3329}
    (h : ∀ d < len, f' (len * j + d) = f (len * j0 + d) + zeta * f (len * j1 + d)) :
    blockPoly len f' j = blockPoly len f j0 + C zeta * blockPoly len f j1 := by
  simp only [blockPoly, Finset.mul_sum, ← Finset.sum_add_distrib]
  refine Finset.sum_congr rfl fun d hd => ?_
  rw [h d (Finset.mem_range.mp hd), C_add, C_mul]
  ring

theorem blockPoly_layer_even (len : Nat) (f : Nat → ZMod 3329) (g : Nat) :
    blockPoly len (fieldNttLayer len f) (2 * g) =
      blockPoly len f (2 * g) + C (twiddle (128 / len + g)) * blockPoly len f (2 * g + 1) :=
  blockPoly_add_mul fun d hd => by rw [evenBlock_index, oddBlock_index, fieldNttLayer, pairLayer_lower _ _ _ _ hd]

theorem blockPoly_layer_odd (len : Nat) (f : Nat → ZMod 3329) (g : Nat) :
    blockPoly len (fieldNttLayer len f) (2 * g + 1) =
      blockPoly len f (2 * g) + C (-twiddle (128 / len + g)) * blockPoly len f (2 * g + 1) :=
  blockPoly_add_mul fun d hd => by
    rw [evenBlock_index, oddBlock_index, fieldNttLayer, pairLayer_upper _ _ _ _ hd, neg_mul, ← sub_eq_add_neg]

/-- A residue modulo x^(2 len) - zeta^2 gives one modulo its factor x^len - zeta. -/
theorem residue_of_square {p lower upper : (ZMod 3329)[X]} {len : Nat} {zeta : ZMod 3329}
    (h : X ^ (2 * len) - C (zeta ^ 2) ∣ p - (lower + X ^ len * upper)) :
    X ^ len - C zeta ∣ p - (lower + C zeta * upper) := by
  have hfactor : X ^ (2 * len) - C (zeta ^ 2) = (X ^ len - C zeta) * (X ^ len + C zeta) := by
    rw [C_pow, mul_comm 2 len, pow_mul]
    ring
  have hsplit : p - (lower + C zeta * upper) = p - (lower + X ^ len * upper) + (X ^ len - C zeta) * upper := by ring
  rw [hsplit]
  exact dvd_add ((Dvd.intro _ hfactor.symm).trans h) (dvd_mul_right _ _)

/-- The blocks of `len` values of `f` are the residues of `p` at the nodes of their level. -/
def IsResidues (p : (ZMod 3329)[X]) (len : Nat) (f : Nat → ZMod 3329) : Prop :=
  ∀ j < 256 / len, X ^ len - C (nodeRoot (256 / len + j)) ∣ p - blockPoly len f j

theorem level_of_stride {len : Nat} (hlen : len ∈ strides) : 256 / len = 2 * (128 / len) ∧ 128 / len ≤ 64 := by
  revert len
  decide

/-- A forward layer goes down one level of the tree. -/
theorem IsResidues.layer {p : (ZMod 3329)[X]} {len : Nat} {f : Nat → ZMod 3329} (hlen : len ∈ strides)
    (h : IsResidues p (2 * len) f) : IsResidues p len (fieldNttLayer len f) := by
  obtain ⟨hlevel, hle⟩ := level_of_stride hlen
  obtain ⟨-, -, hcount⟩ := groups_of_stride hlen
  intro j hj
  rw [hlevel] at hj ⊢
  obtain ⟨g, hg⟩ := j.even_or_odd'
  have hparent := h g (by omega)
  rw [hcount, blockPoly_double, ← twiddle_sq (by omega)] at hparent
  obtain rfl | rfl := hg
  · rw [← Nat.mul_add, nodeRoot_even, blockPoly_layer_even]
    exact residue_of_square hparent
  · rw [← Nat.add_assoc, ← Nat.mul_add, nodeRoot_odd, blockPoly_layer_odd]
    exact residue_of_square (by rwa [neg_sq])

/-- The coefficients themselves are the residue at the node x^256 + 1. -/
theorem isResidues_self (f : Nat → ZMod 3329) :
    IsResidues (∑ j ∈ Finset.range 256, C (f j) * X ^ j) 256 f := by
  intro j hj
  obtain rfl : j = 0 := by omega
  simp [blockPoly]

theorem isResidues_fieldNtt (f : Nat → ZMod 3329) :
    IsResidues (∑ j ∈ Finset.range 256, C (f j) * X ^ j) 2 (fieldNtt f) := by
  have h1 := (isResidues_self f).layer (len := 128) (by decide)
  have h2 := h1.layer (len := 64) (by decide)
  have h3 := h2.layer (len := 32) (by decide)
  have h4 := h3.layer (len := 16) (by decide)
  have h5 := h4.layer (len := 8) (by decide)
  have h6 := h5.layer (len := 4) (by decide)
  exact h6.layer (len := 2) (by decide)

theorem blockPoly_two (f : Nat → ZMod 3329) (i : Nat) :
    blockPoly 2 f i = C (f (2 * i)) + C (f (2 * i + 1)) * X := by
  simp [blockPoly, Finset.sum_range_succ]

/-- The pairs of the transform over the field are the residues modulo x^2 - gamma_i (R97). -/
theorem fieldNtt_residue (f : Nat → ZMod 3329) {i : Nat} (hi : i < 128) :
    X ^ 2 - C ((gammaOf i : ℕ) : ZMod 3329) ∣
      (∑ j ∈ Finset.range 256, C (f j) * X ^ j) - (C (fieldNtt f (2 * i)) + C (fieldNtt f (2 * i + 1)) * X) := by
  have h := isResidues_fieldNtt f i hi
  rwa [show 256 / 2 = 128 from rfl, nodeRoot_leaf hi, blockPoly_two] at h

theorem gammaOf_first : (List.range 8).map gammaOf = [17, 3312, 2761, 568, 583, 2746, 2649, 680] := by rfl

/-- Settles O33: within the bound the transform stands for that over the field. -/
theorem nttPairsAreResidues : Obligations.NttPairsAreResidues := by
  refine ⟨gammaOf_first, fun a ha i hi => ?_⟩
  rw [cast_nttFn ha (by omega), cast_nttFn ha (by omega)]
  exact fieldNtt_residue (fun j => coeffAt a j) hi

end Sys2Proof.Machine
end

section
/-! PROOFS. Base multiplication on residues, and the round trips of the transforms (spec/41_ntt.md R98,
spec/42_basemul.md R110 to R112). -/

namespace Sys2Proof.Machine

/-! ### The inverse transform undoes the forward one -/

/-- In both directions the twiddles of a group have bit reversals that sum to 128. -/
theorem brv7_add_brv7 : ∀ len ∈ strides, ∀ g < 128 / len,
    brv7 (128 / len + g) + brv7 (2 * (128 / len) - 1 - g) = 128 := by decide

/-- The twiddle of a group in the inverse layer is the negated inverse of that in the forward layer (R92, R95). -/
theorem twiddle_mul_twiddle {len g : Nat} (hlen : len ∈ strides) (hg : g < 128 / len) :
    twiddle (2 * (128 / len) - 1 - g) * twiddle (128 / len + g) = -1 := by
  have hle := (level_of_stride hlen).2
  rw [mul_comm, twiddle_eq_pow (by omega), twiddle_eq_pow (by omega), ← pow_add, brv7_add_brv7 len hlen g hg,
    root_pow_half]

/-- An inverse layer undoes the forward layer of its stride but for a factor 2. -/
theorem fieldInvLayer_of_layer {len : Nat} (hlen : len ∈ strides) {f h : Nat → ZMod 3329} {c : ZMod 3329}
    (hh : ∀ i < 256, h i = c * fieldNttLayer len f i) : ∀ i < 256, fieldInvLayer len h i = c * 2 * f i := by
  refine forall_lt_of_pairs hlen fun g hg d hd => ?_
  have hlt := pair_lt hlen hg hd
  have htwiddle := twiddle_mul_twiddle hlen hg
  rw [fieldInvLayer, pairLayer_lower _ _ _ _ hd, pairLayer_upper _ _ _ _ hd, hh _ (by omega), hh _ hlt, fieldNttLayer,
    pairLayer_lower _ _ _ _ hd, pairLayer_upper _ _ _ _ hd]
  refine ⟨by ring, ?_⟩
  linear_combination (-2 * c * f (2 * len * g + d + len)) * htwiddle

/-- The inverse transform undoes the forward one but for a factor 2^7. -/
theorem fieldInv_of_ntt {f h : Nat → ZMod 3329} {c : ZMod 3329} (hh : ∀ i < 256, h i = c * fieldNtt f i) :
    ∀ i < 256, fieldInv h i = c * 128 * f i := by
  have h1 := fieldInvLayer_of_layer (len := 2) (by decide) hh
  have h2 := fieldInvLayer_of_layer (len := 4) (by decide) h1
  have h3 := fieldInvLayer_of_layer (len := 8) (by decide) h2
  have h4 := fieldInvLayer_of_layer (len := 16) (by decide) h3
  have h5 := fieldInvLayer_of_layer (len := 32) (by decide) h4
  have h6 := fieldInvLayer_of_layer (len := 64) (by decide) h5
  have h7 := fieldInvLayer_of_layer (len := 128) (by decide) h6
  intro i hi
  rw [fieldInv, h7 i hi]
  ring

/-- INVNTT of a multiple of a transform is 2^16 = 2285 times that multiple of the polynomial: 1441 is 2^32 / 128
(R95, R98). -/
theorem cast_invnttFn_of_ntt {r : Poly} (hr : BoundedBy 16383 r) {f : Nat → ZMod 3329} {c : ZMod 3329}
    (hf : ∀ i < 256, ((coeffAt r i : Int) : ZMod 3329) = c * fieldNtt f i) {i : Nat} (hi : i < 256) :
    ((coeffAt (invnttFn r) i : Int) : ZMod 3329) = 2285 * c * f i := by
  have hscale : (128 * 1441 * 169 : ZMod 3329) = 2285 := by decide
  rw [cast_invnttFn hr hi, fieldInv_of_ntt hf i hi, ← hscale]
  ring

/-! ### POLY_NTT -/

theorem BoundedBy.mono {B B' : Int} {r : Poly} (h : BoundedBy B r) (hle : B ≤ B') : BoundedBy B' r := by
  intro i hi
  have := h i hi
  omega

theorem polyNttFn_bounded (a : Poly) : BoundedBy 1664 (polyNttFn a) := reducePoly_bounded _

theorem cast_polyNttFn {a : Poly} (ha : BoundedBy 9471 a) {i : Nat} (hi : i < 256) :
    ((coeffAt (polyNttFn a) i : Int) : ZMod 3329) = fieldNtt (fun j => coeffAt a j) i := by
  rw [polyNttFn, coeffAt_reducePoly _ hi, cast_barrettReduce, cast_nttFn ha hi]

section
open Polynomial

/-- A polynomial of degree at most 1 is determined by its residue modulo x^2 - gamma. -/
theorem eq_of_residue {gamma a0 a1 b0 b1 : ZMod 3329}
    (h : X ^ 2 - C gamma ∣ (C a0 + C a1 * X) - (C b0 + C b1 * X)) : a0 = b0 ∧ a1 = b1 := by
  have hsub : (C a0 + C a1 * X) - (C b0 + C b1 * X) = C (a1 - b1) * X + C (a0 - b0) := by
    rw [C_sub, C_sub]
    ring
  have : Fact (Nat.Prime 3329) := ⟨by norm_num⟩
  have hzero : C (a1 - b1) * X + C (a0 - b0) = 0 := by
    refine eq_zero_of_dvd_of_degree_lt (hsub ▸ h) (degree_linear_le.trans_lt ?_)
    rw [degree_X_pow_sub_C (by decide)]
    decide
  exact ⟨by simpa [sub_eq_zero] using congrArg (coeff · 0) hzero,
    by simpa [sub_eq_zero] using congrArg (coeff · 1) hzero⟩

/-- The transform of the polynomial 1 is 1 in every pair (R98). -/
theorem fieldNtt_one {i : Nat} (hi : i < 128) :
    fieldNtt (fun j => if j = 0 then 1 else 0) (2 * i) = 1 ∧
      fieldNtt (fun j => if j = 0 then 1 else 0) (2 * i + 1) = 0 := by
  have h := fieldNtt_residue (fun j => if j = 0 then 1 else 0) hi
  have hone : (∑ j ∈ Finset.range 256, C (if j = 0 then (1 : ZMod 3329) else 0) * X ^ j) = C 1 + C 0 * X := by
    rw [Finset.sum_eq_single_of_mem 0 (by simp) fun j _ hj => by simp [hj]]
    simp
  rw [hone] at h
  obtain ⟨h0, h1⟩ := eq_of_residue h
  exact ⟨h0.symm, h1.symm⟩

end

theorem coeffAt_polyOne (i : Nat) : coeffAt polyOne i = if i = 0 then 1 else 0 := by
  by_cases hi : i < 256
  · rw [polyOne, coeffAt_tabulate _ hi]
    split <;> rfl
  · rw [coeffAt_of_ge _ (by omega), if_neg (by omega)]

theorem polyOne_bounded : BoundedBy 9471 polyOne := by
  intro i _
  rw [coeffAt_polyOne]
  split <;> decide

/-- POLY_NTT of the polynomial 1 stands for 1 in every pair (R94, R98). -/
theorem cast_polyNttFn_one {m : Nat} (hm : m < 128) :
    ((coeffAt (polyNttFn polyOne) (2 * m) : Int) : ZMod 3329) = 1 ∧
      ((coeffAt (polyNttFn polyOne) (2 * m + 1) : Int) : ZMod 3329) = 0 := by
  have hcast : (fun j => ((coeffAt polyOne j : Int) : ZMod 3329)) = fun j => if j = 0 then 1 else 0 := by
    funext j
    rw [coeffAt_polyOne]
    split <;> simp
  rw [cast_polyNttFn polyOne_bounded (by omega), cast_polyNttFn polyOne_bounded (by omega), hcast]
  exact fieldNtt_one hm

/-! ### Base multiplication -/

theorem pairZeta_bound (m : Nat) : -1664 ≤ pairZeta m ∧ pairZeta m ≤ 1664 := by
  have := zetas_centered (64 + m / 2)
  unfold pairZeta
  split <;> omega

/-- Without its Montgomery factor the twiddle of pair `m` is gamma_m (R112). -/
theorem cast_pairZeta {m : Nat} (hm : m < 128) : ((pairZeta m : Int) : ZMod 3329) * 169 = gammaOf m := by
  have hhalf : (128 + m) / 2 = 64 + m / 2 := by omega
  have hparity : (128 + m) % 2 = m % 2 := by omega
  rw [← nodeRoot_leaf hm, nodeRoot, hhalf, hparity, twiddle, pairZeta]
  split
  · rfl
  · rw [Int.cast_neg, neg_mul]

section
variable {a0 a1 b0 b1 zeta : Int} (ha0 : -3328 ≤ a0 ∧ a0 ≤ 3328) (ha1 : -3328 ≤ a1 ∧ a1 ≤ 3328)
  (hb0 : -32768 ≤ b0 ∧ b0 ≤ 32767) (hb1 : -32768 ≤ b1 ∧ b1 ≤ 32767) (hzeta : -1664 ≤ zeta ∧ zeta ≤ 1664)
include ha0 ha1 hb0 hb1 hzeta

/-- A base multiplication by a pair of magnitude at most q - 1 wraps nowhere and gives the product modulo
x^2 - gamma, over 2^16 (R110, R112, R113). -/
theorem basemulPair_eq :
    (-6656 ≤ (basemulPair a0 a1 b0 b1 zeta).1 ∧ (basemulPair a0 a1 b0 b1 zeta).1 ≤ 6656 ∧
      (((basemulPair a0 a1 b0 b1 zeta).1 : Int) : ZMod 3329) = 169 * (a0 * b0 + zeta * 169 * a1 * b1)) ∧
    (-6656 ≤ (basemulPair a0 a1 b0 b1 zeta).2 ∧ (basemulPair a0 a1 b0 b1 zeta).2 ≤ 6656 ∧
      (((basemulPair a0 a1 b0 b1 zeta).2 : Int) : ZMod 3329) = 169 * (a0 * b1 + a1 * b0)) := by
  have h00 := fqmul_bound ha0 hb0
  have h01 := fqmul_bound ha0 hb1
  have h10 := fqmul_bound ha1 hb0
  have h11 := fqmul_bound ha1 hb1
  have h11z := fqmul_bound h11 (b := zeta) (by omega)
  have hconst := s16_eq_self (x := fqmul (fqmul a1 b1) zeta + fqmul a0 b0) (by omega)
  have hlinear := s16_eq_self (x := fqmul a0 b1 + fqmul a1 b0) (by omega)
  simp only [basemulPair, hconst, hlinear]
  refine ⟨⟨by omega, by omega, ?_⟩, by omega, by omega, ?_⟩
  · rw [Int.cast_add, cast_fqmul (by omega) (by omega), cast_fqmul (by omega) hb1, cast_fqmul (by omega) hb0]
    ring
  · rw [Int.cast_add, cast_fqmul (by omega) hb1, cast_fqmul (by omega) hb0]
    ring

end

/-- The pair of BASEMUL at `m`, before it is stored (R111). -/
def pairProduct (a b : Poly) (m : Nat) : Int × Int :=
  basemulPair (coeffAt a (2 * m)) (coeffAt a (2 * m + 1)) (coeffAt b (2 * m)) (coeffAt b (2 * m + 1)) (pairZeta m)

theorem coeffAt_basemulFn_even (a b : Poly) {m : Nat} (hm : m < 128) :
    coeffAt (basemulFn a b) (2 * m) = s16 (pairProduct a b m).1 := by
  rw [basemulFn, coeffAt_tabulate _ (by omega), pairProduct]
  simp

theorem coeffAt_basemulFn_odd (a b : Poly) {m : Nat} (hm : m < 128) :
    coeffAt (basemulFn a b) (2 * m + 1) = s16 (pairProduct a b m).2 := by
  have hhalf : (2 * m + 1) / 2 = m := by omega
  rw [basemulFn, coeffAt_tabulate _ (by omega), pairProduct]
  simp [hhalf]

/-- BASEMUL by an operand of magnitude at most q - 1: the bounds, and the products modulo x^2 - gamma_m over 2^16
(R112, R113). -/
theorem basemulFn_pair {a : Poly} (ha : BoundedBy 3328 a) (b : Poly) {m : Nat} (hm : m < 128) :
    (-6656 ≤ coeffAt (basemulFn a b) (2 * m) ∧ coeffAt (basemulFn a b) (2 * m) ≤ 6656 ∧
      ((coeffAt (basemulFn a b) (2 * m) : Int) : ZMod 3329) =
        169 * (coeffAt a (2 * m) * coeffAt b (2 * m) + gammaOf m * coeffAt a (2 * m + 1) * coeffAt b (2 * m + 1))) ∧
    (-6656 ≤ coeffAt (basemulFn a b) (2 * m + 1) ∧ coeffAt (basemulFn a b) (2 * m + 1) ≤ 6656 ∧
      ((coeffAt (basemulFn a b) (2 * m + 1) : Int) : ZMod 3329) =
        169 * (coeffAt a (2 * m) * coeffAt b (2 * m + 1) + coeffAt a (2 * m + 1) * coeffAt b (2 * m))) := by
  have hpair := basemulPair_eq (ha (2 * m) (by omega)) (ha (2 * m + 1) (by omega)) (coeffAt_range b (2 * m))
    (coeffAt_range b (2 * m + 1)) (pairZeta_bound m)
  rw [cast_pairZeta hm] at hpair
  have ⟨⟨hl0, hu0, _⟩, hl1, hu1, _⟩ := hpair
  rwa [coeffAt_basemulFn_even a b hm, coeffAt_basemulFn_odd a b hm, pairProduct, s16_eq_self (by omega),
    s16_eq_self (by omega)]

theorem basemulFn_bounded {a : Poly} (ha : BoundedBy 3328 a) (b : Poly) : BoundedBy 6656 (basemulFn a b) := by
  intro i hi
  obtain ⟨m, rfl | rfl⟩ := i.even_or_odd'
  · obtain ⟨⟨hl, hu, -⟩, -⟩ := basemulFn_pair ha b (m := m) (by omega)
    exact ⟨hl, hu⟩
  · obtain ⟨-, hl, hu, -⟩ := basemulFn_pair ha b (m := m) (by omega)
    exact ⟨hl, hu⟩

/-- BASEMUL by the transform of the polynomial 1 divides by 2^16 (R98, R112). -/
theorem cast_basemulFn_one {a : Poly} (ha : BoundedBy 3328 a) {i : Nat} (hi : i < 256) :
    ((coeffAt (basemulFn a (polyNttFn polyOne)) i : Int) : ZMod 3329) = 169 * coeffAt a i := by
  obtain ⟨m, hm⟩ := i.even_or_odd'
  obtain ⟨hone, hzero⟩ := cast_polyNttFn_one (m := m) (by omega)
  obtain ⟨⟨-, -, heven⟩, -, -, hodd⟩ := basemulFn_pair ha (polyNttFn polyOne) (m := m) (by omega)
  rw [hone, hzero] at heven hodd
  obtain rfl | rfl := hm
  · rw [heven]
    ring
  · rw [hodd]
    ring

/-! ### The round trips -/

theorem coeffAt_frommontPoly (a : Poly) {i : Nat} (hi : i < 256) :
    coeffAt (frommontPoly a) i = frommontFn (coeffAt a i) := by
  have ha := coeffAt_range a i
  have := frommontFn_bound (r := coeffAt a i) (by omega)
  rw [frommontPoly, coeffAt_tabulate _ hi, toCoeff_toInt_of_range (by omega)]

theorem cast_frommontPoly (a : Poly) {i : Nat} (hi : i < 256) :
    ((coeffAt (frommontPoly a) i : Int) : ZMod 3329) = 2285 * coeffAt a i := by
  have ha := coeffAt_range a i
  have hcongr := congQ_iff.mp (frommontFn_congr (r := coeffAt a i) (by omega))
  rw [coeffAt_frommontPoly a hi, hcongr]
  push_cast
  ring

/-- Settles O34: each of the three transformed polynomials is a multiple of the transform of `a`, by 1, 1 and 2^-16. -/
theorem transformRoundTrips : Obligations.TransformRoundTrips := by
  intro a ha i hi
  have hsquare : (2285 * 2285 : ZMod 3329) = 1353 := by decide
  have hinverse : (2285 * 169 : ZMod 3329) = 1 := by decide
  have hpoly : ((coeffAt (invnttFn (polyNttFn a)) i : Int) : ZMod 3329) = 2285 * coeffAt a i := by
    rw [cast_invnttFn_of_ntt ((polyNttFn_bounded a).mono (by decide))
      (fun j hj => (cast_polyNttFn ha hj).trans (one_mul _).symm) hi, mul_one]
  refine ⟨congQ_iff.mpr ?_, fun hntt => congQ_iff.mpr ?_, congQ_iff.mpr ?_, congQ_iff.mpr ?_⟩
  · rw [hpoly, Int.cast_mul, Int.cast_ofNat]
  · rw [cast_invnttFn_of_ntt hntt (fun j hj => (cast_nttFn ha hj).trans (one_mul _).symm) hi, mul_one, Int.cast_mul,
      Int.cast_ofNat]
  · rw [cast_frommontPoly _ hi, hpoly, ← mul_assoc, hsquare, Int.cast_mul, Int.cast_ofNat]
  · have hreduced : BoundedBy 3328 (polyNttFn a) := (polyNttFn_bounded a).mono (by decide)
    rw [cast_invnttFn_of_ntt ((basemulFn_bounded hreduced _).mono (by decide))
      (fun j hj => by rw [cast_basemulFn_one hreduced hj, cast_polyNttFn ha hj]) hi, hinverse, one_mul]

end Sys2Proof.Machine
end

section
/-! PROOFS. BASEMUL as a command, its pairs as products, and the product of two transforms as the negacyclic product
(spec/42_basemul.md R110 to R113, spec/00_scope.md R9). -/

namespace Sys2Proof.Machine

/-! ### The command -/

/-- A binary command on existing registers writes its function of what it reads, and nothing else (R45, R55). -/
theorem runBinary_holds (F : Poly → Poly → Poly) {s : State} {rd rs1 rs2 : PolyIdx} (hrd : rd.val < s.build.npoly)
    (hrs1 : rs1.val < s.build.npoly) (hrs2 : rs2.val < s.build.npoly) :
    ∃ (a b : Poly) (t : State), s.Reads rs1 a ∧ s.Reads rs2 b ∧ runBinary F rd rs1 rs2 s = .next t ∧
      s.OnlyReg rd t ∧ t.Holds rd (F a b) ∧ (s.AllWritten rs1 → s.AllWritten rs2 → s.ReadsClean t) := by
  refine ⟨_, (s.noteRead 256 (s.polyWritten rs1)).polyValues rs2, _, polyValues_reads s rs1,
    reads_noteRead (polyValues_reads _ rs2),
    runBinary_eq (hasReg_of_lt hrd) (hasReg_of_lt hrs1) (hasReg_of_lt hrs2), setPoly_frame .., ?_, ?_⟩
  · intro i hi
    simp [hi]
  · intro hwritten1 hwritten2
    rw [(polyWritten_iff s rs1).mpr hwritten1, (polyWritten_iff s rs2).mpr hwritten2]
    simp [State.ReadsClean]

/-- The outputs of a base multiplication fit 16 bits, so storing them changes nothing (R110, R111). -/
theorem basemulFn_pair_eq (a b : Poly) {m : Nat} (hm : m < 128) :
    (coeffAt (basemulFn a b) (2 * m), coeffAt (basemulFn a b) (2 * m + 1)) = pairProduct a b m := by
  rw [coeffAt_basemulFn_even a b hm, coeffAt_basemulFn_odd a b hm]
  exact Prod.ext (s16_eq_self (s16_range _)) (s16_eq_self (s16_range _))

theorem pairZeta_even (i : Nat) : pairZeta (2 * i) = zetas (64 + i) := by simp [pairZeta]

theorem pairZeta_odd (i : Nat) : pairZeta (2 * i + 1) = -zetas (64 + i) := by
  rw [pairZeta, if_neg (by omega), show (2 * i + 1) / 2 = i by omega]

/-- Settles O35: the two pairs of block `i` are pairs `2i` and `2i + 1` of the register. -/
theorem basemulCommand : Obligations.BasemulCommand := by
  intro s rd rs1 rs2 hrd hrs1 hrs2
  obtain ⟨a, b, t, ha, hb, hrun, hframe, hholds, hclean⟩ := runBinary_holds basemulFn hrd hrs1 hrs2
  refine ⟨a, b, basemulFn a b, t, ha, hb, hrun, hframe, hholds, hclean, fun i hi => ⟨?_, ?_⟩⟩
  · have h := basemulFn_pair_eq a b (m := 2 * i) (by omega)
    rwa [pairProduct, pairZeta_even, show 2 * (2 * i) = 4 * i by ring] at h
  · have h := basemulFn_pair_eq a b (m := 2 * i + 1) (by omega)
    rwa [pairProduct, pairZeta_odd, show 2 * (2 * i + 1) = 4 * i + 2 by ring] at h

/-! ### The pairs as products -/

theorem basemulPair_comm (a0 a1 b0 b1 zeta : Int) : basemulPair a0 a1 b0 b1 zeta = basemulPair b0 b1 a0 a1 zeta := by
  rw [basemulPair, basemulPair, fqmul_comm a1 b1, fqmul_comm a0 b0, fqmul_comm a0 b1, fqmul_comm a1 b0,
    Int.add_comm (fqmul b1 a0)]

/-- The two operands of BASEMUL play the same part, so a bound on either is enough (R113). -/
theorem basemulFn_comm (a b : Poly) : basemulFn a b = basemulFn b a := by
  simp only [basemulFn, basemulPair_comm (coeffAt a _)]

/-- BASEMUL with either operand of magnitude at most q - 1, on residues (R112, R113). -/
theorem cast_basemulFn {a b : Poly} (h : BoundedBy 3328 a ∨ BoundedBy 3328 b) {m : Nat} (hm : m < 128) :
    ((coeffAt (basemulFn a b) (2 * m) : Int) : ZMod 3329) =
        169 * (coeffAt a (2 * m) * coeffAt b (2 * m) + gammaOf m * coeffAt a (2 * m + 1) * coeffAt b (2 * m + 1)) ∧
      ((coeffAt (basemulFn a b) (2 * m + 1) : Int) : ZMod 3329) =
        169 * (coeffAt a (2 * m) * coeffAt b (2 * m + 1) + coeffAt a (2 * m + 1) * coeffAt b (2 * m)) := by
  obtain ha | hb := h
  · obtain ⟨⟨-, -, heven⟩, -, -, hodd⟩ := basemulFn_pair ha b hm
    exact ⟨heven, hodd⟩
  · obtain ⟨⟨-, -, heven⟩, -, -, hodd⟩ := basemulFn_pair hb a hm
    rw [basemulFn_comm, heven, hodd]
    exact ⟨by ring, by ring⟩

/-- Settles O36: the products are those on residues, and by symmetry the bounded operand is the first. -/
theorem basemulPairsAreProducts : Obligations.BasemulPairsAreProducts := by
  refine fun a b h => ⟨?_, fun i hi => ?_⟩
  · obtain ha | hb := h
    · exact basemulFn_bounded ha b
    · rw [basemulFn_comm]
      exact basemulFn_bounded hb a
  · obtain ⟨heven, hodd⟩ := cast_basemulFn h hi
    exact ⟨congQ_iff.mpr (by push_cast; exact heven), congQ_iff.mpr (by push_cast; exact hodd)⟩

/-! ### The negacyclic product -/

/-- Coefficient `k` of x^i h modulo x^n + 1, for `i` at most `n` (R9). -/
def negacyclicShift (n i : Nat) (h : Nat → ZMod 3329) (k : Nat) : ZMod 3329 :=
  if i ≤ k then h (k - i) else -h (n + k - i)

/-- Coefficient `k` of the product f h modulo x^n + 1 (R9). -/
def fieldNegacyclic (n : Nat) (f h : Nat → ZMod 3329) (k : Nat) : ZMod 3329 :=
  ∑ i ∈ Finset.range n, f i * negacyclicShift n i h k

theorem cast_negacyclicCoeff (a b : Poly) (k : Nat) :
    ((negacyclicCoeff a b k : Int) : ZMod 3329) =
      fieldNegacyclic 256 (fun j => coeffAt a j) (fun j => coeffAt b j) k := by
  rw [negacyclicCoeff, Int.cast_sum, fieldNegacyclic]
  refine Finset.sum_congr rfl fun i _ => ?_
  rw [negacyclicShift]
  split
  · rw [Int.cast_mul]
  · rw [Int.cast_neg, Int.cast_mul, mul_neg]

section
open Polynomial

/-- Block 0 is the polynomial of the first `n` values. -/
theorem blockPoly_zero (n : Nat) (f : Nat → ZMod 3329) :
    blockPoly n f 0 = ∑ d ∈ Finset.range n, C (f d) * X ^ d := by
  simp only [blockPoly, mul_zero, zero_add]

/-- The terms of x^i h of degree `n` and more come back negated. -/
theorem negacyclicShift_congr {n i : Nat} (hi : i ≤ n) (h : Nat → ZMod 3329) :
    X ^ n + 1 ∣ X ^ i * blockPoly n h 0 - blockPoly n (negacyclicShift n i h) 0 := by
  obtain ⟨m, rfl⟩ := Nat.exists_eq_add_of_le hi
  have hkept : ∀ j, negacyclicShift (i + m) i h (i + j) = h j := fun j => by
    simp [negacyclicShift]
  have hwrapped : ∀ k ∈ Finset.range i, negacyclicShift (i + m) i h k = -h (m + k) := fun k hk => by
    rw [negacyclicShift, if_neg (by simpa using hk), show i + m + k - i = m + k by omega]
  refine ⟨∑ k ∈ Finset.range i, C (h (m + k)) * X ^ k, ?_⟩
  have hshift : X ^ i * blockPoly (i + m) h 0 =
      ∑ j ∈ Finset.range m, C (h j) * X ^ (i + j) +
        X ^ (i + m) * ∑ k ∈ Finset.range i, C (h (m + k)) * X ^ k := by
    simp only [blockPoly_zero]
    rw [add_comm i m, Finset.sum_range_add, mul_add, Finset.mul_sum, Finset.mul_sum, Finset.mul_sum]
    exact congrArg₂ (· + ·) (Finset.sum_congr rfl fun _ _ => by ring) (Finset.sum_congr rfl fun _ _ => by ring)
  have hresidue : blockPoly (i + m) (negacyclicShift (i + m) i h) 0 =
      -(∑ k ∈ Finset.range i, C (h (m + k)) * X ^ k) + ∑ j ∈ Finset.range m, C (h j) * X ^ (i + j) := by
    simp only [blockPoly_zero]
    rw [Finset.sum_range_add, ← Finset.sum_neg_distrib]
    exact congrArg₂ (· + ·) (Finset.sum_congr rfl fun k hk => by rw [hwrapped k hk, C_neg, neg_mul])
      (Finset.sum_congr rfl fun j _ => by rw [hkept j])
  rw [hshift, hresidue]
  ring

theorem blockPoly_fieldNegacyclic (n : Nat) (f h : Nat → ZMod 3329) :
    blockPoly n (fieldNegacyclic n f h) 0 =
      ∑ i ∈ Finset.range n, C (f i) * blockPoly n (negacyclicShift n i h) 0 := by
  simp only [blockPoly_zero, fieldNegacyclic, map_sum, Finset.sum_mul, Finset.mul_sum, C_mul, mul_assoc]
  exact Finset.sum_comm

/-- The negacyclic product is the product modulo x^n + 1 (R9). -/
theorem fieldNegacyclic_congr (n : Nat) (f h : Nat → ZMod 3329) :
    X ^ n + 1 ∣ blockPoly n f 0 * blockPoly n h 0 - blockPoly n (fieldNegacyclic n f h) 0 := by
  have hterms : blockPoly n f 0 * blockPoly n h 0 - blockPoly n (fieldNegacyclic n f h) 0 =
      ∑ i ∈ Finset.range n, C (f i) * (X ^ i * blockPoly n h 0 - blockPoly n (negacyclicShift n i h) 0) := by
    rw [blockPoly_fieldNegacyclic, blockPoly_zero n f, Finset.sum_mul, ← Finset.sum_sub_distrib]
    exact Finset.sum_congr rfl fun i _ => by ring
  rw [hterms]
  exact Finset.dvd_sum fun i hi => (negacyclicShift_congr (Finset.mem_range.mp hi).le h).mul_left _

theorem gammaOf_pow (i : Nat) : ((gammaOf i : ℕ) : ZMod 3329) ^ 128 = -1 := by
  rw [gammaOf, ZMod.natCast_mod, Nat.cast_pow, ← pow_mul, mul_comm, pow_mul, Nat.cast_ofNat, root_pow_half]
  exact Odd.neg_one_pow ⟨_, rfl⟩

theorem square_modulus_dvd {gamma : ZMod 3329} {n : Nat} (hgamma : gamma ^ n = -1) :
    X ^ 2 - C gamma ∣ X ^ (2 * n) + 1 := by
  have h := sub_dvd_pow_sub_pow (X ^ 2) (C gamma) n
  rwa [← pow_mul, ← C_pow, hgamma, C_neg, C_1, sub_neg_eq_add] at h

/-- Each x^2 - gamma_i is a factor of x^256 + 1 (R97). -/
theorem gammaOf_modulus_dvd (i : Nat) : X ^ 2 - C ((gammaOf i : ℕ) : ZMod 3329) ∣ X ^ 256 + 1 := by
  have h := square_modulus_dvd (gammaOf_pow i)
  rwa [show 2 * 128 = 256 from rfl] at h

/-- The product of two polynomials of degree 1 modulo x^2 - gamma (R110). -/
theorem linear_mul_congr (gamma f0 f1 h0 h1 : ZMod 3329) :
    X ^ 2 - C gamma ∣ (C f0 + C f1 * X) * (C h0 + C h1 * X) -
      (C (f0 * h0 + gamma * f1 * h1) + C (f0 * h1 + f1 * h0) * X) := by
  refine ⟨C (f1 * h1), ?_⟩
  simp only [C_add, C_mul]
  ring

/-- The transform turns the negacyclic product into products of pairs modulo x^2 - gamma_i (R112). -/
theorem fieldNtt_fieldNegacyclic (f h : Nat → ZMod 3329) {i : Nat} (hi : i < 128) :
    fieldNtt (fieldNegacyclic 256 f h) (2 * i) =
        fieldNtt f (2 * i) * fieldNtt h (2 * i) + gammaOf i * fieldNtt f (2 * i + 1) * fieldNtt h (2 * i + 1) ∧
      fieldNtt (fieldNegacyclic 256 f h) (2 * i + 1) =
        fieldNtt f (2 * i) * fieldNtt h (2 * i + 1) + fieldNtt f (2 * i + 1) * fieldNtt h (2 * i) := by
  have hpairs := dvd_mul_sub_mul (fieldNtt_residue f hi) (fieldNtt_residue h hi)
  have hcyclic := (gammaOf_modulus_dvd i).trans (fieldNegacyclic_congr 256 f h)
  have hreduced := linear_mul_congr (gammaOf i) (fieldNtt f (2 * i)) (fieldNtt f (2 * i + 1)) (fieldNtt h (2 * i))
    (fieldNtt h (2 * i + 1))
  have hresidue := fieldNtt_residue (fieldNegacyclic 256 f h) hi
  simp only [← blockPoly_zero] at hpairs hresidue
  refine eq_of_residue (gamma := gammaOf i) ?_
  convert dvd_sub (dvd_sub (dvd_add hpairs hreduced) hcyclic) hresidue using 1
  ring

end

/-- BASEMUL of two transforms is the transform of the negacyclic product, over 2^16 (R112). -/
theorem cast_basemulFn_polyNttFn {a b : Poly} (ha : BoundedBy 9471 a) (hb : BoundedBy 9471 b) {i : Nat} (hi : i < 256) :
    ((coeffAt (basemulFn (polyNttFn a) (polyNttFn b)) i : Int) : ZMod 3329) =
      169 * fieldNtt (fieldNegacyclic 256 (fun j => coeffAt a j) fun j => coeffAt b j) i := by
  obtain ⟨m, hm⟩ := i.even_or_odd'
  have hm128 : m < 128 := by omega
  have hlower : 2 * m < 256 := by omega
  have hupper : 2 * m + 1 < 256 := by omega
  obtain ⟨heven, hodd⟩ := cast_basemulFn (b := polyNttFn b) (.inl ((polyNttFn_bounded a).mono (by decide))) hm128
  simp only [cast_polyNttFn ha hlower, cast_polyNttFn ha hupper, cast_polyNttFn hb hlower,
    cast_polyNttFn hb hupper] at heven hodd
  obtain ⟨hproduct0, hproduct1⟩ := fieldNtt_fieldNegacyclic (fun j => coeffAt a j) (fun j => coeffAt b j) hm128
  obtain rfl | rfl := hm
  · rw [heven, hproduct0]
  · rw [hodd, hproduct1]

/-- Settles O37: the inverse transform of 2^-16 times the transform of the negacyclic product is that product. -/
theorem transformProductIsNegacyclic : Obligations.TransformProductIsNegacyclic := by
  intro a b ha hb k hk
  have hinverse : (2285 * 169 : ZMod 3329) = 1 := by decide
  have hbounded : BoundedBy 16383 (basemulFn (polyNttFn a) (polyNttFn b)) :=
    (basemulFn_bounded ((polyNttFn_bounded a).mono (by decide)) _).mono (by decide)
  rw [congQ_iff, cast_invnttFn_of_ntt hbounded (fun i hi => cast_basemulFn_polyNttFn ha hb hi) hk, hinverse, one_mul,
    cast_negacyclicCoeff]

end Sys2Proof.Machine
end

section
/-! PROOFS. The ring operations as commands, and sums that do not wrap (spec/43_ring.md R120 to R124). -/

namespace Sys2Proof.Machine

/-! ### The commands -/

/-- A command that runs as `runBinary F` follows the rule of the coefficients of `F` (R45, R55). -/
theorem binaryRule_of_runBinary {cmd : PolyIdx → PolyIdx → PolyIdx → Instr} {F : Poly → Poly → Poly}
    {f : Poly → Poly → Nat → Int} (hexec : ∀ s rd rs1 rs2, exec (cmd rd rs1 rs2) s = runBinary F rd rs1 rs2 s)
    (hcoeff : ∀ (a b : Poly) (i : Nat), i < 256 → coeffAt (F a b) i = f a b i) : BinaryRule cmd f := by
  intro s rd rs1 rs2 hrd hrs1 hrs2
  obtain ⟨a, b, t, ha, hb, hrun, hframe, hholds, hclean⟩ := runBinary_holds F hrd hrs1 hrs2
  refine ⟨a, b, t, ha, hb, (hexec s rd rs1 rs2).trans hrun, hframe, fun i hi => ?_, hclean⟩
  exact ⟨(F a b)[i], hholds i hi, by rw [← hcoeff a b i hi, coeffAt_of_lt _ hi]⟩

theorem coeffAt_addFn (a b : Poly) {i : Nat} (hi : i < 256) :
    coeffAt (addFn a b) i = s16 (coeffAt a i + coeffAt b i) := by
  rw [addFn, coeffAt_tabulate _ hi, toCoeff_toInt]

theorem coeffAt_subFn (a b : Poly) {i : Nat} (hi : i < 256) :
    coeffAt (subFn a b) i = s16 (coeffAt a i - coeffAt b i) := by
  rw [subFn, coeffAt_tabulate _ hi, toCoeff_toInt]

/-- Settles O38: both commands run as `runBinary`. -/
theorem addAndSubCommands : Obligations.AddAndSubCommands :=
  ⟨binaryRule_of_runBinary exec_add fun a b _ => coeffAt_addFn a b,
    binaryRule_of_runBinary exec_sub fun a b _ => coeffAt_subFn a b⟩

/-- Settles O40: both commands run as `runUnary`, and a 16-bit coefficient is in the safe range of either reduction. -/
theorem reduceAndFrommontCommands : Obligations.ReduceAndFrommontCommands := by
  refine ⟨unaryRule_of_runUnary exec_reduce fun a i hi => ?_,
    unaryRule_of_runUnary exec_frommont fun a _ => coeffAt_frommontPoly a, fun a i => ?_⟩
  · rw [coeffAt_reducePoly a hi, barrettReduce_eq_centered (coeffAt_range a i)]
  · have hrange := coeffAt_range a i
    have hsafe : -80624 ≤ coeffAt a i ∧ coeffAt a i ≤ 80624 := by omega
    rw [mul_comm 2285]
    exact ⟨frommontFn_congr hsafe, frommontFn_bound hsafe⟩

/-! ### Sums of several terms -/

/-- One ADD, or where the sign is `false` one SUB, of a term to a running sum; the middle component is the term's
bound, which the sum does not use (R124). -/
def accumulate (r : Poly) (t : Bool × Int × Poly) : Poly := if t.1 = true then addFn r t.2.2 else subFn r t.2.2

/-- What the term contributes to coefficient `i` of the exact sum. -/
def signedCoeff (i : Nat) (t : Bool × Int × Poly) : Int := if t.1 = true then coeffAt t.2.2 i else -coeffAt t.2.2 i

theorem BoundedBy.nonneg {B : Int} {r : Poly} (h : BoundedBy B r) : 0 ≤ B := by
  have := h 0 (by decide)
  omega

theorem signedCoeff_bound {t : Bool × Int × Poly} (h : BoundedBy t.2.1 t.2.2) {i : Nat} (hi : i < 256) :
    -t.2.1 ≤ signedCoeff i t ∧ signedCoeff i t ≤ t.2.1 := by
  have := h i hi
  unfold signedCoeff
  split <;> omega

theorem coeffAt_accumulate (r : Poly) (t : Bool × Int × Poly) {i : Nat} (hi : i < 256) :
    coeffAt (accumulate r t) i = s16 (coeffAt r i + signedCoeff i t) := by
  unfold accumulate signedCoeff
  split
  · exact coeffAt_addFn r t.2.2 hi
  · rw [coeffAt_subFn r t.2.2 hi, Int.sub_eq_add_neg]

section
variable {B : Int} {r : Poly} {t : Bool × Int × Poly}

theorem coeffAt_accumulate_exact (hr : BoundedBy B r) (ht : BoundedBy t.2.1 t.2.2) (hB : B + t.2.1 ≤ 32767) {i : Nat}
    (hi : i < 256) : coeffAt (accumulate r t) i = coeffAt r i + signedCoeff i t := by
  have := hr i hi
  have := signedCoeff_bound ht hi
  rw [coeffAt_accumulate r t hi, s16_eq_self (by omega)]

theorem accumulate_bounded (hr : BoundedBy B r) (ht : BoundedBy t.2.1 t.2.2) (hB : B + t.2.1 ≤ 32767) :
    BoundedBy (B + t.2.1) (accumulate r t) := by
  intro i hi
  have := hr i hi
  have := signedCoeff_bound ht hi
  rw [coeffAt_accumulate_exact hr ht hB hi]
  omega

end

theorem bounds_sum_nonneg {terms : List (Bool × Int × Poly)} (h : ∀ t ∈ terms, BoundedBy t.2.1 t.2.2) :
    0 ≤ (terms.map fun t => t.2.1).sum :=
  List.sum_nonneg <| List.forall_mem_map.mpr fun t ht => (h t ht).nonneg

/-- The bounds of the terms still to come are not negative, so every partial sum is in range when the last one is. -/
theorem coeffAt_foldl_accumulate {terms : List (Bool × Int × Poly)} {start : Poly} {B : Int}
    (hstart : BoundedBy B start) (hterms : ∀ t ∈ terms, BoundedBy t.2.1 t.2.2)
    (hB : B + (terms.map fun t => t.2.1).sum ≤ 32767) {i : Nat} (hi : i < 256) :
    coeffAt (terms.foldl accumulate start) i = coeffAt start i + (terms.map (signedCoeff i)).sum := by
  induction terms generalizing start B with
  | nil => simp
  | cons t terms ih =>
    obtain ⟨ht, hrest⟩ := List.forall_mem_cons.mp hterms
    have hnonneg := bounds_sum_nonneg hrest
    rw [List.map_cons, List.sum_cons] at hB
    have hfirst : B + t.2.1 ≤ 32767 := by omega
    rw [List.foldl_cons, ih (accumulate_bounded hstart ht hfirst) hrest (by omega),
      coeffAt_accumulate_exact hstart ht hfirst hi, List.map_cons, List.sum_cons, Int.add_assoc]

/-- The polynomial whose every coefficient is q - 1, the largest term R124 allows. -/
def largestTerm : Poly := tabulate 256 fun _ => toCoeff 3328

theorem coeffAt_largestTerm {i : Nat} (hi : i < 256) : coeffAt largestTerm i = 3328 := by
  rw [largestTerm, coeffAt_tabulate _ hi]
  decide

theorem largestTerm_bounded : BoundedBy 3328 largestTerm := by
  intro i hi
  rw [coeffAt_largestTerm hi]
  decide

/-- Ten terms of magnitude q - 1 add up to 33280, which wraps to -32256 (R124). -/
theorem coeffAt_ten_largestTerm : coeffAt ((List.replicate 9 largestTerm).foldl addFn largestTerm) 0 = -32256 := by
  have hindex : 0 < 256 := by decide
  simp only [List.replicate, List.foldl, coeffAt_addFn _ _ hindex, coeffAt_largestTerm hindex]
  decide

/-- Settles O39, by induction on the terms; ten polynomials with every coefficient 3328 wrap. -/
theorem accumulationDoesNotWrap : Obligations.AccumulationDoesNotWrap := by
  refine ⟨fun _ _ _ hstart hterms hB _ hi => coeffAt_foldl_accumulate hstart hterms hB hi,
    largestTerm, largestTerm_bounded, ?_⟩
  rw [coeffAt_ten_largestTerm, coeffAt_largestTerm (by decide)]
  decide

end Sys2Proof.Machine
end

section
/-! PROOFS. The codec on one coefficient: normalization, compression and the message bit
(spec/44_codec.md R140, R144, R145, R150, R152, R153). -/

namespace Sys2Proof.Machine

/-! ### Normalization -/

/-- The mask `(a >> 15) & q` is q for a negative coefficient and 0 for any other (R140). -/
theorem signMask_eq (a : Coeff) : (a.sshiftRight 15 &&& 3329 : Coeff) = if a.toInt < 0 then 3329 else 0 := by
  have hrange := coeff_range a
  have hshift : (a.sshiftRight 15).toInt = a.toInt / 32768 := by
    rw [BitVec.toInt_sshiftRight, Int.shiftRight_eq_div_pow]
    norm_num
  split
  · have hones : a.sshiftRight 15 = (-1 : Coeff) := BitVec.eq_of_toInt_eq (hshift.trans (show _ = -1 by omega))
    rw [hones]
    decide
  · have hzero : a.sshiftRight 15 = (0 : Coeff) := BitVec.eq_of_toInt_eq (hshift.trans (show _ = 0 by omega))
    rw [hzero]
    decide

/-- The integer sum of `normalizeCoeff` and the 16-bit sum of the rule are one pattern (R140). -/
theorem normalizeCoeff_eq_pattern (a : Coeff) :
    normalizeCoeff a.toInt = (a + (a.sshiftRight 15 &&& 3329)).toNat := by
  have hsum : a + (a.sshiftRight 15 &&& 3329) = BitVec.ofInt 16 (a.toInt + if a.toInt < 0 then 3329 else 0) := by
    rw [signMask_eq, BitVec.ofInt_add, BitVec.ofInt_toInt]
    split <;> rfl
  rw [hsum, BitVec.toNat_ofInt]
  rfl

section
variable {a : Int}

/-- From -q up the sum does not wrap (R140). -/
theorem normalizeCoeff_of_ge_neg_q (h0 : -3329 ≤ a) (h : a ≤ 32767) :
    (normalizeCoeff a : Int) = if a < 0 then a + 3329 else a := by
  unfold normalizeCoeff
  split <;> omega

theorem normalizeCoeff_of_nonneg (h0 : 0 ≤ a) (h : a ≤ 32767) : (normalizeCoeff a : Int) = a := by
  rw [normalizeCoeff_of_ge_neg_q (by omega) h, if_neg (by omega)]

/-- A coefficient below -q stays negative after adding q, so its pattern is 65536 more (R140). -/
theorem normalizeCoeff_of_lt_neg_q (h0 : -32768 ≤ a) (h : a < -3329) :
    (normalizeCoeff a : Int) = a + 3329 + 65536 := by
  unfold normalizeCoeff
  omega

theorem normalizeCoeff_lt_q_iff (h0 : -32768 ≤ a) (h : a ≤ 32767) :
    normalizeCoeff a < 3329 ↔ -3329 ≤ a ∧ a < 3329 := by
  unfold normalizeCoeff
  omega

end

/-- Settles O41, by the sign of the coefficient. -/
theorem normalizeRule : Obligations.NormalizeRule := by
  refine ⟨fun a => ?_, by decide⟩
  obtain ⟨hlo, hhi⟩ := coeff_range a
  exact ⟨normalizeCoeff_eq_pattern a, normalizeCoeff_lt_q_iff hlo hhi, fun h => normalizeCoeff_of_nonneg h hhi,
    normalizeCoeff_of_lt_neg_q hlo⟩

/-! ### Compression -/

/-- The shift and the mask of R144 as a product and a remainder. -/
theorem compressCoeff_eq (a : Int) (d : Nat) :
    compressCoeff a d = ((normalizeCoeff a * 2 ^ d + 1664) / 3329) % 2 ^ d := by
  rw [compressCoeff, Nat.shiftLeft_eq, Nat.and_two_pow_sub_one_eq_mod]

theorem compressCoeff_lt (a : Int) (d : Nat) : compressCoeff a d < 2 ^ d := by
  rw [compressCoeff_eq]
  exact Nat.mod_lt _ (by positivity)

/-- The shift of R145 as a quotient. -/
theorem decompressCoeff_eq (t d : Nat) : decompressCoeff t d = (t * 3329 + 2 ^ (d - 1)) / 2 ^ d :=
  Nat.shiftRight_eq_div_pow _ _

/-- A value of [0, q) is its own normalization (R140). -/
theorem normalizeCoeff_natCast {u : Nat} (h : u < 3329) : normalizeCoeff (u : Int) = u := by
  have := normalizeCoeff_of_nonneg (a := u) (by omega) (by omega)
  omega

section
variable {u : Nat} (h : u < 3329)
include h

/-- The rounding of R144 to 4 bits steps once every 208 values, first from 104 to 105. -/
theorem rounded_four : (u * 16 + 1664) / 3329 = (u + 103) / 208 := by
  have hstep := Nat.div_add_mod (u + 103) 208
  have hrest := Nat.mod_lt (u + 103) (y := 208) (by decide)
  exact Nat.div_eq_of_lt_le (by omega) (by omega)

/-- The rounding of R144 to 5 bits steps once every 104 values, first from 52 to 53. -/
theorem rounded_five : (u * 32 + 1664) / 3329 = (u + 51) / 104 := by
  have hstep := Nat.div_add_mod (u + 51) 104
  have hrest := Nat.mod_lt (u + 51) (y := 104) (by decide)
  exact Nat.div_eq_of_lt_le (by omega) (by omega)

theorem compressCoeff_four : compressCoeff u 4 = (u + 103) / 208 % 16 := by
  rw [compressCoeff_eq, normalizeCoeff_natCast h]
  exact congrArg (· % 16) (rounded_four h)

theorem compressCoeff_five : compressCoeff u 5 = (u + 51) / 104 % 32 := by
  rw [compressCoeff_eq, normalizeCoeff_natCast h]
  exact congrArg (· % 32) (rounded_five h)

theorem compressCoeff_four_intervals :
    compressCoeff u 4 = if u ≤ 104 ∨ 3225 ≤ u then 0 else (u - 105) / 208 + 1 := by
  rw [compressCoeff_four h]
  split <;> omega

theorem compressCoeff_five_intervals :
    compressCoeff u 5 = if u ≤ 52 ∨ 3277 ≤ u then 0 else (u - 53) / 104 + 1 := by
  rw [compressCoeff_five h]
  split <;> omega

end

/-- Settles O42, interval by interval; the expanded values are evaluated. -/
theorem compressionRules : Obligations.CompressionRules :=
  ⟨fun a _ _ => ⟨compressCoeff_eq a 4, compressCoeff_eq a 5⟩,
    fun _ h => ⟨compressCoeff_four_intervals h, compressCoeff_five_intervals h⟩,
    fun d t => decompressCoeff_eq t d, by decide, by decide⟩

/-- Adding some multiple of q to the difference bounds the distance modulo q (R150). -/
theorem circularDistance_le {x u B : Int} (k : Int) (h : -B ≤ x - u + 3329 * k ∧ x - u + 3329 * k ≤ B) :
    circularDistance x u ≤ B := by
  unfold circularDistance
  omega

/-- Rounding to DV bits and back: within half a step, where the top half step rounds up to q and wraps to 0 (R150). -/
theorem compressionError_le (dv : DvWidth) {u : Nat} (h : u < 3329) :
    circularDistance (decompressCoeff (compressCoeff u dv.bits) dv.bits) u ≤ if dv = .four then 104 else 52 := by
  cases dv with
  | four =>
    simp only [DvWidth.bits, decompressCoeff_eq, compressCoeff_four h, if_true]
    exact circularDistance_le (if 3225 ≤ u then 1 else 0) (by split <;> omega)
  | five =>
    simp only [DvWidth.bits, decompressCoeff_eq, compressCoeff_five h, reduceCtorEq, if_false]
    exact circularDistance_le (if 3277 ≤ u then 1 else 0) (by split <;> omega)

/-! ### The message bit -/

theorem msgBit_eq (a : Int) : msgBit a = ((normalizeCoeff a * 2 + 1664) / 3329) % 2 := by
  rw [msgBit, Nat.shiftLeft_eq, Nat.and_one_is_mod, pow_one]

theorem msgBit_lt (a : Int) : msgBit a < 2 := by
  rw [msgBit_eq]
  omega

/-- The points nearer to q/2 than to 0 or q (R152). -/
theorem msgBit_eq_one_iff {c : Int} (h0 : -3329 ≤ c) (h : c < 3329) :
    msgBit c = 1 ↔ 833 ≤ normalizeCoeff c ∧ normalizeCoeff c ≤ 2496 := by
  have hlt := (normalizeCoeff_lt_q_iff (a := c) (by omega) (by omega)).mpr ⟨h0, h⟩
  rw [msgBit_eq]
  omega

/-- A message bit survives noise in [-832, 831]: around 0 it normalizes outside [833, 2496], around 1665 inside
(R153). -/
theorem msgBit_of_noise (b : Bool) {e : Int} (he : -832 ≤ e ∧ e ≤ 831) :
    msgBit ((if b then 1665 else 0) + e) = b.toNat := by
  cases b with
  | false =>
    have hbit := msgBit_eq_one_iff (c := 0 + e) (by omega) (by omega)
    have hnorm := normalize_of_range (a := 0 + e) (by omega)
    have hlt := msgBit_lt (0 + e)
    show msgBit (0 + e) = 0
    split at hnorm <;> omega
  | true =>
    have hnorm := normalizeCoeff_of_nonneg (a := 1665 + e) (by omega) (by omega)
    exact (msgBit_eq_one_iff (c := 1665 + e) (by omega) (by omega)).mpr (by omega)

end Sys2Proof.Machine
end

section
/-! PROOFS. The byte formats of the codec as bit streams (spec/44_codec.md R141, R142, R146 to R148, R151, R152). -/

namespace Sys2Proof.Machine

/-! ### Fields side by side in a number -/

/-- The number whose field `j` of `w` bits is `f j`, for `j` below `n`: the sum that packs and unpacks a group
(R146). -/
def bitField (w : Nat) (f : Nat → Nat) (n : Nat) : Nat := (List.range n).foldl (fun x j => x + (f j <<< (w * j))) 0

theorem packGroup_eq_bitField (d : Nat) (t : Nat → Nat) (g : Nat) :
    packGroup d t g = bitField d (fun j => t (8 * g + j)) 8 := rfl

theorem unpackGroup_eq_bitField (d : Nat) (bs : List Byte) (g : Nat) :
    unpackGroup d bs g = bitField 8 (fun k => byteAt bs (d * g + k)) d := rfl

theorem bitField_zero (w : Nat) (f : Nat → Nat) : bitField w f 0 = 0 := rfl

theorem bitField_succ (w : Nat) (f : Nat → Nat) (n : Nat) :
    bitField w f (n + 1) = 2 ^ (w * n) * f n + bitField w f n := by
  rw [bitField, List.range_succ, List.foldl_append, List.foldl_cons, List.foldl_nil, Nat.shiftLeft_eq, Nat.mul_comm,
    Nat.add_comm]
  rfl

section
variable {w : Nat} {f : Nat → Nat}

theorem bitField_lt {n : Nat} (hf : ∀ j < n, f j < 2 ^ w) : bitField w f n < 2 ^ (w * n) := by
  induction n with
  | zero => simp [bitField_zero]
  | succ n ih =>
    have hlow := ih fun j hj => hf j (Nat.lt_succ_of_lt hj)
    have hhigh := Nat.mul_le_mul_left (2 ^ (w * n)) (hf n (Nat.lt_succ_self n))
    rw [bitField_succ, Nat.mul_succ w n, Nat.pow_add]
    rw [Nat.mul_succ] at hhigh
    omega

/-- A bit of the number is a bit of the field it falls in. -/
theorem testBit_bitField {n m : Nat} (hf : ∀ j < n, f j < 2 ^ w) (hm : m < w * n) :
    (bitField w f n).testBit m = (f (m / w)).testBit (m % w) := by
  induction n with
  | zero => omega
  | succ n ih =>
    have hrest : ∀ j < n, f j < 2 ^ w := fun j hj => hf j (Nat.lt_succ_of_lt hj)
    rw [bitField_succ, Nat.testBit_two_pow_mul_add _ (bitField_lt hrest)]
    split
    · exact ih hrest ‹_›
    · obtain ⟨r, rfl⟩ := Nat.exists_eq_add_of_le (Nat.not_lt.mp ‹_›)
      have hr : r < w := by rw [Nat.mul_succ] at hm; omega
      rw [Nat.add_sub_cancel_left, Nat.mul_add_div (by omega), Nat.mul_add_mod, Nat.div_eq_of_lt hr,
        Nat.mod_eq_of_lt hr, Nat.add_zero]

/-- Single bits joined by `|||` instead of a sum: the number TOMSG builds (R152). -/
theorem foldl_or_eq_bitField {n : Nat} (hf : ∀ j < n, f j < 2 ^ 1) :
    (List.range n).foldl (fun x j => x ||| (f j <<< j)) 0 = bitField 1 f n := by
  induction n with
  | zero => rfl
  | succ n ih =>
    have hrest : ∀ j < n, f j < 2 ^ 1 := fun j hj => hf j (Nat.lt_succ_of_lt hj)
    have hlow : bitField 1 f n < 2 ^ n := by simpa using bitField_lt hrest
    rw [List.range_succ, List.foldl_append, List.foldl_cons, List.foldl_nil, ih hrest, Nat.or_comm,
      ← Nat.shiftLeft_add_eq_or_of_lt hlow, bitField_succ, Nat.shiftLeft_eq, Nat.mul_comm, Nat.one_mul]

end

/-! ### Bytes and stream bits -/

/-- Bit `m mod 8` of byte `m / 8`: the stream bits of R146, and the message bits of R151. -/
def streamBit (bs : List Byte) (m : Nat) : Bool := (bs.getD (m / 8) 0).getLsbD (m % 8)

theorem testBit_byteAt (bs : List Byte) (j b : Nat) : (byteAt bs j).testBit b = (bs.getD j 0).getLsbD b :=
  BitVec.testBit_toNat _

theorem byteAt_lt (bs : List Byte) (j : Nat) : byteAt bs j < 2 ^ 8 := BitVec.isLt _

/-- Byte lists of one length with the same stream are equal. -/
theorem eq_of_streamBit {bs cs : List Byte} {n : Nat} (hbs : bs.length = n) (hcs : cs.length = n)
    (h : ∀ m < 8 * n, streamBit bs m = streamBit cs m) : bs = cs := by
  refine List.ext_getElem (hbs.trans hcs.symm) fun j hj hj' => BitVec.eq_of_getLsbD_eq fun b hb => ?_
  have hbit := h (8 * j + b) (by omega)
  have hbyte : (8 * j + b) / 8 = j := by omega
  have hpos : (8 * j + b) % 8 = b := by omega
  simpa [streamBit, hbyte, hpos, hj, hj'] using hbit

/-- Item `j` of groups of `k` items joined is item `j mod k` of group `j / k`. -/
theorem getD_flatMap_groups {α : Type} {f : Nat → List α} {k : Nat} (hf : ∀ i, (f i).length = k) {n j : Nat}
    (hj : j < n * k) (x : α) : ((List.range n).flatMap f).getD j x = (f (j / k)).getD (j % k) x := by
  induction n with
  | zero => omega
  | succ n ih =>
    have hlen : ((List.range n).flatMap f).length = n * k := by
      rw [length_flatMap_groups _ _ k hf, List.length_range]
    rw [List.range_succ, List.flatMap_append, List.flatMap_singleton]
    by_cases h : j < n * k
    · rw [List.getD_append _ _ _ _ (by omega), ih h]
    · obtain ⟨r, rfl⟩ := Nat.exists_eq_add_of_le (Nat.not_lt.mp h)
      have hr : r < k := by rw [Nat.succ_mul] at hj; omega
      rw [List.getD_append_right _ _ _ _ (by omega), hlen, Nat.add_sub_cancel_left, Nat.mul_comm n k,
        Nat.mul_add_div (by omega), Nat.mul_add_mod, Nat.div_eq_of_lt hr, Nat.mod_eq_of_lt hr, Nat.add_zero]

theorem getD_map_range {α : Type} (f : Nat → α) {n j : Nat} (hj : j < n) (x : α) :
    ((List.range n).map f).getD j x = f j := by
  simp [hj]

/-- A number that fits is stored in a coefficient unchanged. -/
theorem toInt_ofNat_of_lt {v : Nat} (h : v < 32768) : (BitVec.ofNat 16 v : Coeff).toInt = v := by
  have hnat : (BitVec.ofNat 16 v).toNat = v := by
    rw [BitVec.toNat_ofNat]
    exact Nat.mod_eq_of_lt (h.trans (by decide))
  rw [BitVec.toInt_eq_toNat_of_lt (by omega), hnat]

/-! ### The 12-bit format -/

/-- Byte `r` of group `i` is byte `r` of the packed pair `i` (R141). -/
theorem byteAt_toBytesFn (a : Poly) {i r : Nat} (hi : i < 128) (hr : r < 3) :
    byteAt (toBytesFn a) (3 * i + r) =
      byteAt (packPair (normalizeCoeff (coeffAt a (2 * i))) (normalizeCoeff (coeffAt a (2 * i + 1)))) r := by
  rw [byteAt, toBytesFn, getD_flatMap_groups (k := 3) (fun _ => rfl) (by omega), Nat.mul_add_div (by omega),
    Nat.mul_add_mod, Nat.div_eq_of_lt hr, Nat.mod_eq_of_lt hr, Nat.add_zero, byteAt]

section
variable (t0 t1 : Nat)

theorem byteAt_packPair_zero : byteAt (packPair t0 t1) 0 = t0 % 2 ^ 8 := rfl

theorem byteAt_packPair_one : byteAt (packPair t0 t1) 1 = ((t0 >>> 8) ||| (t1 <<< 4)) % 2 ^ 8 := rfl

theorem byteAt_packPair_two : byteAt (packPair t0 t1) 2 = (t1 >>> 4) % 2 ^ 8 := rfl

end

/-- The fields of R142 as numbers: they fit 12 bits. -/
theorem coeffAt_fromBytesFn (bs : List Byte) {n : Nat} (hn : n < 256) :
    coeffAt (fromBytesFn bs) n =
      if n % 2 = 0 then
        (((byteAt bs (3 * (n / 2)) ||| (byteAt bs (3 * (n / 2) + 1) <<< 8)) &&& 0xFFF : Nat) : Int)
      else ((((byteAt bs (3 * (n / 2) + 1) >>> 4) ||| (byteAt bs (3 * (n / 2) + 2) <<< 4)) &&& 0xFFF : Nat) : Int) := by
  have hfits : ∀ x : Nat, x &&& 0xFFF < 32768 := fun x => Nat.lt_of_le_of_lt Nat.and_le_right (by decide)
  rw [fromBytesFn, coeffAt_tabulate _ hn]
  split <;> exact toInt_ofNat_of_lt (hfits _)

section
variable {t0 t1 : Nat}

/-- The middle byte of a pair: the high nibble of the first value below the low nibble of the second (R141). -/
theorem byteAt_packPair_one_eq (h0 : t0 < 4096) :
    byteAt (packPair t0 t1) 1 = (t1 * 2 ^ 4 + t0 / 2 ^ 8) % 2 ^ 8 := by
  have hlow : t0 >>> 8 < 2 ^ 4 := by rw [Nat.shiftRight_eq_div_pow]; omega
  rw [byteAt_packPair_one, Nat.or_comm, ← Nat.shiftLeft_add_eq_or_of_lt hlow, Nat.shiftLeft_eq,
    Nat.shiftRight_eq_div_pow]

/-- The low field of a packed pair is its first value (R141, R142). -/
theorem lowField_packPair (h0 : t0 < 4096) :
    (byteAt (packPair t0 t1) 0 ||| (byteAt (packPair t0 t1) 1 <<< 8)) &&& 0xFFF = t0 := by
  rw [Nat.and_two_pow_sub_one_eq_mod _ 12, Nat.or_comm, ← Nat.shiftLeft_add_eq_or_of_lt (byteAt_lt _ _),
    Nat.shiftLeft_eq, byteAt_packPair_zero, byteAt_packPair_one_eq h0]
  omega

/-- The high field of a packed pair is its second value (R141, R142). -/
theorem highField_packPair (h0 : t0 < 4096) (h1 : t1 < 4096) :
    ((byteAt (packPair t0 t1) 1 >>> 4) ||| (byteAt (packPair t0 t1) 2 <<< 4)) &&& 0xFFF = t1 := by
  have hlow : byteAt (packPair t0 t1) 1 >>> 4 < 2 ^ 4 := by
    have := byteAt_lt (packPair t0 t1) 1
    rw [Nat.shiftRight_eq_div_pow]
    omega
  rw [Nat.and_two_pow_sub_one_eq_mod _ 12, Nat.or_comm, ← Nat.shiftLeft_add_eq_or_of_lt hlow, Nat.shiftLeft_eq,
    Nat.shiftRight_eq_div_pow, byteAt_packPair_one_eq h0, byteAt_packPair_two, Nat.shiftRight_eq_div_pow]
  omega

end

/-- FROMBYTES takes out the normalized coefficients TOBYTES packed, when they fit 12 bits (R143). -/
theorem coeffAt_fromBytesFn_toBytesFn {a : Poly} (h : ∀ i < 256, normalizeCoeff (coeffAt a i) < 4096) {n : Nat}
    (hn : n < 256) : coeffAt (fromBytesFn (toBytesFn a)) n = normalizeCoeff (coeffAt a n) := by
  have hi : n / 2 < 128 := by omega
  have h0 := h (2 * (n / 2)) (by omega)
  have h1 := h (2 * (n / 2) + 1) (by omega)
  rw [coeffAt_fromBytesFn _ hn, byteAt_toBytesFn a hi (by decide), byteAt_toBytesFn a hi (by decide),
    ← Nat.add_zero (3 * (n / 2)), byteAt_toBytesFn a hi (by decide)]
  split
  · rw [lowField_packPair h0, show 2 * (n / 2) = n by omega]
  · rw [highField_packPair h0 h1, show 2 * (n / 2) + 1 = n by omega]

/-! ### The stream of compressed values -/

/-- Stream bit `m` of COMPRESS is bit `m mod d` of value `m / d` (R146, R147). -/
theorem streamBit_compressFn {d : Nat} (a : Poly) {m : Nat} (hm : m < 256 * d) :
    streamBit (compressFn d a) m = (compressCoeff (coeffAt a (m / d)) d).testBit (m % d) := by
  have hd : 0 < d := by omega
  have hgroup : m / 8 / d = m / d / 8 := by rw [Nat.div_div_eq_div_mul, Nat.mul_comm, ← Nat.div_div_eq_div_mul]
  have hbit : 8 * (m / 8 % d) + m % 8 = m % (d * 8) := by rw [Nat.mul_comm d 8, Nat.mod_mul, Nat.add_comm]
  have hlt : m % (d * 8) < d * 8 := Nat.mod_lt _ (by omega)
  rw [streamBit, compressFn, getD_flatMap_groups (k := d) (by simp) (by omega),
    getD_map_range _ (Nat.mod_lt _ hd), BitVec.getLsbD_ofNat, Nat.testBit_shiftRight, hbit, hgroup,
    packGroup_eq_bitField, testBit_bitField (fun _ _ => compressCoeff_lt _ _) hlt, Nat.mod_mul_right_div_self,
    Nat.mod_mul_right_mod, Nat.div_add_mod]
  simp [Nat.mod_lt]

/-- The d-bit value DECOMPRESS takes from the stream for coefficient `n` (R148). -/
def streamField (d : Nat) (bs : List Byte) (n : Nat) : Nat :=
  (unpackGroup d bs (n / 8) >>> (d * (n % 8))) &&& (2 ^ d - 1)

theorem streamField_eq_mod (d : Nat) (bs : List Byte) (n : Nat) :
    streamField d bs n = (unpackGroup d bs (n / 8) >>> (d * (n % 8))) % 2 ^ d :=
  Nat.and_two_pow_sub_one_eq_mod _ _

theorem streamField_lt (d : Nat) (bs : List Byte) (n : Nat) : streamField d bs n < 2 ^ d := by
  rw [streamField_eq_mod]
  exact Nat.mod_lt _ (by positivity)

/-- Bit `b` of value `n` is stream bit `d n + b` (R146, R148). -/
theorem testBit_streamField {d b : Nat} (bs : List Byte) (n : Nat) (hb : b < d) :
    (streamField d bs n).testBit b = streamBit bs (d * n + b) := by
  have hindex : d * n + b = 8 * (d * (n / 8)) + (d * (n % 8) + b) := by
    conv_lhs => rw [← Nat.div_add_mod n 8]
    ring
  have hlt : d * (n % 8) + b < 8 * d := by
    have := Nat.mul_le_mul_left d (Nat.le_of_lt_succ (Nat.mod_lt n (y := 8) (by decide)))
    omega
  rw [streamField_eq_mod, Nat.testBit_mod_two_pow, Nat.testBit_shiftRight, unpackGroup_eq_bitField,
    testBit_bitField (fun _ _ => byteAt_lt _ _) hlt, testBit_byteAt, hindex, streamBit, Nat.mul_add_div (by decide),
    Nat.mul_add_mod]
  simp [hb]

/-- The values COMPRESS packed are the values DECOMPRESS takes out (R146). -/
theorem streamField_compressFn (d : Nat) (a : Poly) {n : Nat} (hn : n < 256) :
    streamField d (compressFn d a) n = compressCoeff (coeffAt a n) d := by
  refine Nat.eq_of_testBit_eq fun b => ?_
  by_cases hb : b < d
  · have hlt : d * n + b < 256 * d := by
      have := Nat.mul_le_mul_left d (Nat.le_of_lt_succ hn)
      omega
    rw [testBit_streamField _ _ hb, streamBit_compressFn a hlt, Nat.mul_add_div (by omega), Nat.mul_add_mod,
      Nat.div_eq_of_lt hb, Nat.mod_eq_of_lt hb, Nat.add_zero]
  · have hpow : 2 ^ d ≤ 2 ^ b := Nat.pow_le_pow_right (by decide) (Nat.not_lt.mp hb)
    rw [Nat.testBit_lt_two_pow ((streamField_lt d _ n).trans_le hpow),
      Nat.testBit_lt_two_pow ((compressCoeff_lt _ d).trans_le hpow)]

/-- The expanded values are at most q (R145). -/
theorem decompressCoeff_le {t d : Nat} (h : t < 2 ^ d) : decompressCoeff t d ≤ 3329 := by
  have hhalf : 2 ^ (d - 1) ≤ 2 ^ d := Nat.pow_le_pow_right (by decide) (Nat.sub_le d 1)
  rw [decompressCoeff_eq]
  exact Nat.le_of_lt_succ (Nat.div_lt_of_lt_mul (by omega))

theorem coeffAt_decompressFn (d : Nat) (bs : List Byte) {n : Nat} (hn : n < 256) :
    coeffAt (decompressFn d bs) n = decompressCoeff (streamField d bs n) d := by
  rw [decompressFn, coeffAt_tabulate _ hn]
  exact toInt_ofNat_of_lt (Nat.lt_of_le_of_lt (decompressCoeff_le (streamField_lt d bs n)) (by decide))

/-! ### The message -/

theorem coeffAt_fromMsgFn (bs : List Byte) {n : Nat} (hn : n < 256) :
    coeffAt (fromMsgFn bs) n = if streamBit bs n then 1665 else 0 := by
  rw [fromMsgFn, coeffAt_tabulate _ hn, Nat.and_one_is_mod, Nat.shiftRight_eq_div_pow, ← Nat.toNat_testBit,
    testBit_byteAt, streamBit]
  cases (bs.getD (n / 8) 0).getLsbD (n % 8) <;> rfl

theorem streamBit_toMsgFn (a : Poly) {n : Nat} (hn : n < 256) :
    (streamBit (toMsgFn a) n).toNat = msgBit (coeffAt a n) := by
  rw [streamBit, toMsgFn, getD_map_range _ (by omega), foldl_or_eq_bitField (fun _ _ => msgBit_lt _),
    BitVec.getLsbD_ofNat, testBit_bitField (fun _ _ => msgBit_lt _) (by omega), Nat.div_one, Nat.mod_one,
    Nat.div_add_mod, decide_eq_true (Nat.mod_lt n (by decide)), Bool.true_and, Nat.toNat_testBit, pow_zero, Nat.div_one,
    Nat.mod_eq_of_lt (msgBit_lt _)]

/-- The message is decoded from the polynomial of FROMMSG under any noise in [-832, 831] (R153). -/
theorem toMsgFn_of_noise {bs : List Byte} (hlen : bs.length = 32) {noisy : Poly}
    (h : ∀ n < 256, ∃ e : Int, -832 ≤ e ∧ e ≤ 831 ∧ coeffAt noisy n = coeffAt (fromMsgFn bs) n + e) :
    toMsgFn noisy = bs := by
  refine eq_of_streamBit (toMsgFn_length noisy) hlen fun n hn => ?_
  obtain ⟨e, hlo, hhi, hnoisy⟩ := h n hn
  apply Function.LeftInverse.injective Bool.ofNat_toNat
  rw [streamBit_toMsgFn noisy hn, hnoisy, coeffAt_fromMsgFn bs hn, msgBit_of_noise _ ⟨hlo, hhi⟩]

end Sys2Proof.Machine
end

section
/-! PROOFS. The six codec commands with their frames, and their round trips (spec/44_codec.md R141 to R153). -/

namespace Sys2Proof.Machine

/-! ### The two operand classes -/

theorem State.Completes.build_eq {s t : State} (h : s.Completes t) : t.build = s.build := h.2.2.1

/-- A store-to-buffer command on an existing register writes its bytes of what it reads, and nothing else
(R45, R55). -/
theorem runStore_holds {F : Poly → List Byte} {n : Nat} (hlen : ∀ a, (F a).length = n) {s : State} {rs1 : PolyIdx}
    (hrs1 : rs1.val < s.build.npoly) :
    ∃ (a : Poly) (t : State), s.Reads rs1 a ∧ runStore F rs1 s = .next t ∧ s.OnlyBuf n t ∧
      (∀ j < n, t.buf.read j = some ((F a).getD j 0)) ∧ (s.AllWritten rs1 → s.ReadsClean t) := by
  refine ⟨s.polyValues rs1, _, polyValues_reads s rs1, runStore_eq (hasReg_of_lt hrs1), ?_, fun j hj => ?_, ?_⟩
  · rw [← hlen (s.polyValues rs1)]
    exact setBytes_frame ..
  · rw [← hlen (s.polyValues rs1)] at hj
    simp [Memory.read_writeBytes, hj]
  · intro hwritten
    rw [(polyWritten_iff s rs1).mpr hwritten]
    simp [State.ReadsClean]

/-- A load-from-buffer command on an existing register writes its function of the bytes it reads, and nothing else
(R45, R55). -/
theorem runLoad_holds (G : List Byte → Poly) (n : Nat) {s : State} {rd : PolyIdx} (hrd : rd.val < s.build.npoly) :
    ∃ (bs : List Byte) (t : State), s.ReadsBuf n bs ∧ runLoad n G rd s = .next t ∧ s.OnlyReg rd t ∧
      t.Holds rd (G bs) ∧ (s.BufAllWritten n → s.ReadsClean t) := by
  refine ⟨s.bufValues 0 n, _, bufValues_reads s n, runLoad_eq (hasReg_of_lt hrd), setPoly_frame_one .., ?_, ?_⟩
  · intro i hi
    simp [hi]
  · intro hwritten
    rw [(bufWritten_iff s n).mpr hwritten]
    simp [State.ReadsClean]

/-- A command that runs as `runLoad G` follows the rule of the coefficients of `G`. -/
theorem loadRule_of_runLoad {cmd : PolyIdx → Instr} {G : List Byte → Poly} {n : Nat} {f : List Byte → Nat → Int}
    (hexec : ∀ s rd, exec (cmd rd) s = runLoad n G rd s)
    (hcoeff : ∀ (bs : List Byte) (i : Nat), i < 256 → coeffAt (G bs) i = f bs i) :
    LoadRule cmd (fun _ => n) fun _ => f := by
  intro s rd hrd
  obtain ⟨bs, t, hbs, hrun, hframe, hholds, hclean⟩ := runLoad_holds G n hrd
  refine ⟨bs, t, hbs, (hexec s rd).trans hrun, hframe, fun i hi => ?_, hclean⟩
  exact ⟨(G bs)[i], hholds i hi, (coeffAt_of_lt _ hi).symm.trans (hcoeff bs i hi)⟩

/-! ### The commands -/

/-- Byte `j` of TOBYTES as R141 writes it. -/
theorem byteAt_toBytesFn_eq (a : Poly) {j : Nat} (hj : j < 384) :
    byteAt (toBytesFn a) j =
      let t0 := normalizeCoeff (coeffAt a (2 * (j / 3)))
      let t1 := normalizeCoeff (coeffAt a (2 * (j / 3) + 1))
      if j % 3 = 0 then t0 &&& 0xFF
      else if j % 3 = 1 then ((t0 >>> 8) ||| (t1 <<< 4)) &&& 0xFF
      else (t1 >>> 4) &&& 0xFF := by
  have hbyte := byteAt_toBytesFn a (i := j / 3) (r := j % 3) (by omega) (by omega)
  rw [Nat.div_add_mod] at hbyte
  simp only [hbyte, Nat.and_two_pow_sub_one_eq_mod _ 8]
  split
  · rw [‹j % 3 = 0›, byteAt_packPair_zero]
  · split
    · rw [‹j % 3 = 1›, byteAt_packPair_one]
    · rw [show j % 3 = 2 by omega, byteAt_packPair_two]

/-- Settles O43: the two commands run as `runStore` and `runLoad`. -/
theorem tobytesAndFrombytesCommands : Obligations.TobytesAndFrombytesCommands := by
  refine ⟨fun s rs1 hrs1 => ?_, loadRule_of_runLoad exec_frombytes fun bs _ => coeffAt_fromBytesFn bs⟩
  obtain ⟨a, t, ha, hrun, hframe, hbytes, hclean⟩ := runStore_holds toBytesFn_length hrs1
  exact ⟨a, t, ha, (exec_tobytes s rs1).trans hrun, hframe,
    fun j hj => ⟨_, hbytes j hj, byteAt_toBytesFn_eq a hj⟩, hclean⟩

/-- Settles O44: the stream of the bytes COMPRESS writes. -/
theorem compressCommand : Obligations.CompressCommand := by
  intro s rs1 hrs1
  obtain ⟨a, t, ha, hrun, hframe, hbytes, hclean⟩ := runStore_holds (compressFn_length s.build.dv.bits) hrs1
  refine ⟨a, t, ha, (exec_compress s rs1).trans hrun, hframe, hclean, fun m hm => ?_⟩
  exact ⟨_, hbytes (m / 8) (by omega), streamBit_compressFn a hm⟩

/-- Settles O45: the value of coefficient `j` is its field of the stream. -/
theorem decompressCommand : Obligations.DecompressCommand := by
  intro s rd hrd
  obtain ⟨bs, t, hbs, hrun, hframe, hholds, hclean⟩ :=
    runLoad_holds (decompressFn s.build.dv.bits) (32 * s.build.dv.bits) hrd
  refine ⟨bs, t, hbs, (exec_decompress s rd).trans hrun, hframe, hclean, fun j hj => ?_⟩
  refine ⟨_, streamField s.build.dv.bits bs j, hholds j hj, streamField_lt _ _ _, ?_,
    fun b hb => testBit_streamField bs j hb⟩
  rw [← coeffAt_of_lt _ hj, coeffAt_decompressFn _ _ hj, decompressCoeff_eq]

/-- Settles O46: message bit `8 i + j` is bit `j` of byte `i`. -/
theorem frommsgAndTomsgCommands : Obligations.FrommsgAndTomsgCommands := by
  refine ⟨loadRule_of_runLoad exec_frommsg fun bs _ => coeffAt_fromMsgFn bs, fun s rs1 hrs1 => ?_,
    fun _ => msgBit_eq_one_iff⟩
  obtain ⟨a, t, ha, hrun, hframe, hbytes, hclean⟩ := runStore_holds toMsgFn_length hrs1
  refine ⟨a, t, ha, (exec_tomsg s rs1).trans hrun, hframe, hclean, fun i j hi hj => ⟨_, hbytes i hi, ?_⟩⟩
  have hbit := streamBit_toMsgFn a (n := 8 * i + j) (by omega)
  rwa [streamBit, msgBit_eq, show (8 * i + j) / 8 = i by omega, show (8 * i + j) % 8 = j by omega] at hbit

/-! ### Round trips -/

/-- A register that holds a polynomial is read as that polynomial. -/
theorem reads_eq_of_holds {s : State} {p : PolyIdx} {a b : Poly} (ha : s.Holds p a) (hb : s.Reads p b) : b = a :=
  poly_ext fun i hi => hb i hi _ (ha i hi)

/-- Written bytes are read as they are. -/
theorem readsBuf_eq_of_read {s : State} {n : Nat} {bs cs : List Byte} (hlen : bs.length = n)
    (hread : ∀ j < n, s.buf.read j = some (bs.getD j 0)) (h : s.ReadsBuf n cs) : cs = bs := by
  obtain ⟨hcs, hbytes⟩ := h
  refine List.ext_getElem (hcs.trans hlen.symm) fun j hj hj' => ?_
  have := hbytes j _ (by omega) (hread j (by omega))
  simpa [hj, hj'] using this

/-- What a store-to-buffer command writes from a register that holds `a`. -/
theorem runStore_of_holds {F : Poly → List Byte} {n : Nat} (hlen : ∀ a, (F a).length = n) {s : State} {p : PolyIdx}
    {a : Poly} (hp : p.val < s.build.npoly) (h : s.Holds p a) :
    ∃ t : State, runStore F p s = .next t ∧ s.OnlyBuf n t ∧ ∀ j < n, t.buf.read j = some ((F a).getD j 0) := by
  obtain ⟨b, t, hb, hrun, hframe, hbytes, -⟩ := runStore_holds hlen hp
  rw [reads_eq_of_holds h hb] at hbytes
  exact ⟨t, hrun, hframe, hbytes⟩

/-- A load-from-buffer command after a store-to-buffer command reads the bytes that were written. -/
theorem runStore_runLoad {F : Poly → List Byte} {n : Nat} (hlen : ∀ a, (F a).length = n) (G : List Byte → Poly)
    {s : State} {p r : PolyIdx} {a : Poly} (hp : p.val < s.build.npoly) (hr : r.val < s.build.npoly)
    (h : s.Holds p a) :
    ∃ t u : State, runStore F p s = .next t ∧ t.build = s.build ∧ runLoad n G r t = .next u ∧
      u.Holds r (G (F a)) := by
  obtain ⟨t, hstore, ⟨hcompletes, -⟩, hbytes⟩ := runStore_of_holds hlen hp h
  have hbuild := hcompletes.build_eq
  obtain ⟨bs, u, hbs, hload, -, hholds, -⟩ := runLoad_holds G n (hbuild ▸ hr)
  rw [readsBuf_eq_of_read (hlen a) hbytes hbs] at hholds
  exact ⟨t, u, hstore, hbuild, hload, hholds⟩

/-- Settles O47: coefficients of [-q, 4095] normalize below 4096. -/
theorem bytesRoundTrip : Obligations.BytesRoundTrip := by
  intro s p r a hp hr hholds hrange
  obtain ⟨t, u, hstore, -, hload, hu⟩ := runStore_runLoad toBytesFn_length fromBytesFn hp hr hholds
  have hnorm : ∀ i < 256,
      (normalizeCoeff (coeffAt a i) : Int) = if coeffAt a i < 0 then coeffAt a i + 3329 else coeffAt a i :=
    fun i hi => normalizeCoeff_of_ge_neg_q (hrange i hi).1 ((hrange i hi).2.trans (by decide))
  have hfits : ∀ i < 256, normalizeCoeff (coeffAt a i) < 4096 := by
    intro i hi
    have := hrange i hi
    have := hnorm i hi
    split at this <;> omega
  refine ⟨t, u, (exec_tobytes s p).trans hstore, (exec_frombytes t r).trans hload, fun i hi => ⟨_, hu i hi, ?_⟩⟩
  rw [← coeffAt_of_lt _ hi, coeffAt_fromBytesFn_toBytesFn hfits hi, hnorm i hi]

/-- Settles O48: each coefficient is compressed and expanded on its own. -/
theorem compressionErrorIsBounded : Obligations.CompressionErrorIsBounded := by
  intro s p r a hp hr hholds hrange
  obtain ⟨t, u, hstore, hbuild, hload, hu⟩ :=
    runStore_runLoad (compressFn_length s.build.dv.bits) (decompressFn s.build.dv.bits) hp hr hholds
  refine ⟨t, u, (exec_compress s p).trans hstore, ?_, fun i hi => ⟨_, hu i hi, ?_⟩⟩
  · rw [exec_decompress, hbuild, hload]
  · obtain ⟨hlo, hhi⟩ := hrange i hi
    obtain ⟨x, hx⟩ := Int.eq_ofNat_of_zero_le hlo
    rw [← coeffAt_of_lt _ hi, coeffAt_decompressFn _ _ hi, streamField_compressFn _ _ hi, hx]
    exact compressionError_le s.build.dv (by omega)

/-- Settles O49: TOMSG of any noisy copy returns the message, and the polynomial of FROMMSG is its own copy with
noise 0. -/
theorem messageRoundTrip : Obligations.MessageRoundTrip := by
  intro s p hp hwritten
  obtain ⟨bs, t, ⟨hlen, hbytes⟩, hload, ⟨hcompletes, -⟩, ht, -⟩ := runLoad_holds fromMsgFn 32 hp
  have hmessage : ∀ j < 32, s.buf.read j = some (bs.getD j 0) := by
    intro j hj
    obtain ⟨b, hb⟩ := Option.isSome_iff_exists.mp (hwritten j hj)
    rw [hb, List.getD_eq_getElem?_getD, hbytes j b hj hb]
    rfl
  have hdecode : ∀ (noisy : Poly) (v : State),
      (∀ n < 256, ∃ e : Int, -832 ≤ e ∧ e ≤ 831 ∧ coeffAt noisy n = coeffAt (fromMsgFn bs) n + e) →
      v.Holds p noisy → v.build = s.build →
      ∃ u : State, exec (.tomsg p) v = .next u ∧ ∀ j : Nat, j < 32 → u.buf.read j = s.buf.read j := by
    intro noisy v hnoise hv hbuild
    obtain ⟨u, hstore, -, hu⟩ := runStore_of_holds toMsgFn_length (hbuild ▸ hp) hv
    rw [toMsgFn_of_noise hlen hnoise] at hu
    exact ⟨u, (exec_tomsg v p).trans hstore, fun j hj => (hu j hj).trans (hmessage j hj).symm⟩
  refine ⟨t, (exec_frommsg s p).trans hload, ?_, fun noisy v hnoise => hdecode noisy v fun n hn => ?_⟩
  · exact hdecode _ t (fun n _ => ⟨0, by simp⟩) ht hcompletes.build_eq
  · obtain ⟨c, e, hc, hlo, hhi, hnoisy⟩ := hnoise n hn
    refine ⟨e, hlo, hhi, ?_⟩
    rw [ht n hn, Stored.holds.injEq] at hc
    rw [coeffAt_of_lt _ hn, coeffAt_of_lt _ hn, hnoisy, hc]

end Sys2Proof.Machine
end

section
/-! PROOFS. STATUS as issue, completion and the acknowledgement change it (spec/60_exceptions.md R172, R177). -/

namespace Sys2Proof.Machine

/-- ERR, DONE and BUSY are the low three bits of STATUS (R15). -/
theorem statusWord_low (s : State) :
    s.statusWord.extractLsb' 0 3 = BitVec.ofBool s.err ++ BitVec.ofBool s.done ++ BitVec.ofBool s.busy := by
  obtain ⟨busy, done, err, -⟩ := statusWord_fields s
  refine BitVec.eq_of_getLsbD_eq fun k hk => ?_
  interval_cases k <;>
    simp +decide only [BitVec.getLsbD_extractLsb', BitVec.getLsbD_append, BitVec.getLsbD_ofBool, busy, done, err,
      if_true, if_false]

/-- The low bits of STATUS after a completion or a rejection: BUSY 0 and DONE 1 (R172). -/
theorem statusWord_low_of_done {s : State} (hb : s.busy = false) (hd : s.done = true) :
    s.statusWord.extractLsb' 0 3 = if s.err then 6 else 2 := by
  rw [statusWord_low, hb, hd]
  cases s.err <;> rfl

theorem busy_of_pending_none {s : State} (h : s.pending = none) : s.busy = false := by rw [State.busy, h]; rfl

/-- Every error code fits ERRCODE, the byte of STATUS that records it (R171). -/
theorem errorCode_toNat (e : CmdError) : (BitVec.ofNat 8 e.code).toNat = e.code := by cases e <;> rfl

/-- Settles O7: a CMD write of an idle engine issues the word, and a completed command leaves the error as it was. -/
theorem cmdWriteAcceptsOrRejects : Obligations.CmdWriteAcceptsOrRejects := by
  intro s
  refine ⟨fun w i hb hd => ?_, fun w e hb hd => ?_, fun i t h => ?_⟩
  · rw [hostWrite_cmd hb, issue_of_ok hd]
    rfl
  · obtain ⟨hissue, hcode⟩ := issue_of_error hd
    rw [hostWrite_cmd hb]
    rw [hissue] at hcode ⊢
    refine ⟨rfl, statusWord_low_of_done hb rfl, ?_⟩
    rw [← errorCode_toNat e, ← hcode]
    rfl
  · obtain ⟨hpending, hdone, -, -, -, herror, hovr, -⟩ := exec_completes h
    have hbusy := busy_of_pending_none hpending
    refine ⟨hpending, hbusy, hdone, herror, hovr, fun hs => ?_⟩
    have hnone : t.error = none := herror.trans hs
    obtain ⟨-, -, -, -, -, hcode, -⟩ := statusWord_fields t
    rw [statusWord_low_of_done hbusy hdone, hcode, errcode_none hnone, State.err, hnone]
    exact ⟨rfl, rfl⟩

/-- A write of STATUS acknowledges, at any time (R173, R177). -/
theorem hostWrite_status (s : State) (v : Word) : s.hostWrite 0x008 .bits32 v = (s.acknowledge v).respond .ok :=
  hostWrite_ok (by decide) rfl rfl (Bool.and_false _)

/-- The acknowledgement, flag by flag: cleared where the written bit is 1, else as it was. -/
theorem acknowledge_eq (s : State) (v : Word) :
    s.acknowledge v =
      { s with
        done := if v.getLsbD 1 then false else s.done
        error := if v.getLsbD 2 then none else s.error
        ovr := if v.getLsbD 3 then false else s.ovr } := by
  have hclear : ∀ bit flag : Bool, (flag && !bit) = if bit then false else flag := by decide
  rw [State.acknowledge, hclear, hclear]

/-- Settles O8: the acknowledgement of a write to STATUS, and what acceptance and rejection do to the error. -/
theorem acknowledgeClearsWrittenBits : Obligations.AcknowledgeClearsWrittenBits := by
  intro s v
  refine ⟨?_, fun i hd => ?_, fun e e' hd _ => ?_⟩
  · rw [hostWrite_status, acknowledge_eq]
    rfl
  · rw [issue_of_ok hd]
    exact ⟨rfl, rfl, rfl, rfl⟩
  · obtain ⟨hissue, -⟩ := issue_of_error hd
    rw [hissue]
    exact ⟨rfl, rfl⟩

end Sys2Proof.Machine
end
